-- ==== Sys2Proof/Word.lean ====
section
/-! DEFINITION. The word types of the machine (R8, R20, R134). -/

namespace Sys2Proof

/-- A byte: 8 bits (R8). -/
abbrev Byte := BitVec 8

/-- A word: 16 bits, the width of a register, of the program counter and of a bus address (R8, R20, R25). -/
abbrev Word := BitVec 16

/-- A 4-bit register field; all 16 values name a register (R134). -/
abbrev Reg := BitVec 4

end Sys2Proof
end

