-- ==== Sys2Proof/Config.lean ====
section
/-! DEFINITION. What an implementation fixes: the parameters of rule R6 as one record, the constraints of
R7 on it, the numeric parameters of the audio unit (R346), and the free values, constants without a body. -/

namespace Sys2Proof

/-- The four bytes of an instrument (R43). -/
structure Envelope where
  attack : Byte
  decay : Byte
  sustain : Byte
  release : Byte
  deriving DecidableEq, Repr

/-- An instrument's bytes in address order (R43). -/
def Envelope.bytes (e : Envelope) : List Byte := [e.attack, e.decay, e.sustain, e.release]

/-- The plain parameters of R6, one field for each name there. -/
structure Config where
  nRegs : Nat
  xlen : Nat
  pcBits : Nat
  addrBits : Nat
  flagCBit : Nat
  flagZBit : Nat
  flagVBit : Nat
  flagNBit : Nat
  callStackDepth : Option Nat
  altByte : Byte
  maxInstrLen : Nat
  cycleBudget : Nat
  adcWriteback : Bool
  logicKeepsCarry : Bool
  romOrigin : Nat
  fixedRomEnd : Nat
  bankBase : Nat
  bankEnd : Nat
  atlasBase : Nat
  atlasTop : Nat
  tileBytes : Nat
  nTiles : Nat
  wramBase : Nat
  wramEnd : Nat
  audioBase : Nat
  instrBase : Nat
  nInstr : Nat
  audioEnd : Nat
  reservedBase : Nat
  biosCallBase : Nat
  biosCallEnd : Nat
  sysFlagsBase : Nat
  paletteBase : Nat
  paletteEnd : Nat
  verifyAddr : Nat
  verifyMagic : Byte
  errNone : Byte
  errReservedWrite : Byte
  errOamCursor : Byte
  errStackUnderflow : Byte
  biosVersion : Word
  lowmemClearEnd : Nat
  saveBase : Nat
  saveSize : Nat
  screenW : Nat
  screenH : Nat
  textCols : Nat
  textRows : Nat
  oamEntries : Nat
  oamEntryBytes : Nat
  attrHflipBit : Nat
  attrVflipBit : Nat
  attrAltpalBit : Nat
  typeHudBit : Nat
  typeBgBit : Nat
  colNone : Word
  camMax : Nat
  bgDefault : BitVec 5
  fontColorDefault : BitVec 5
  nControllers : Nat
  sampleRate : Nat
  seqTickSamples : Nat
  tempo : Rat
  seqLoopLimit : Nat
  cartHeaderBytes : Nat
  cartMagic : List Byte
  /-- `NOTE_FREQ`: one frequency word for each of the 256 notes (R348). -/
  noteFreq : List Word
  /-- `DEFAULT_INSTRUMENTS`: `N_INSTR` quadruplets (R346), OPEN in R6. -/
  defaultInstruments : List Envelope
  deriving DecidableEq, Repr

/-- `NOTE_FREQ` for the notes 0 to 63 (R348). -/
def noteFreqLow : List Word :=
  [8, 9, 9, 10, 10, 11, 12, 12, 13, 14, 15, 15, 16, 17, 18, 19, 21, 22, 23, 24, 26, 28, 29, 31, 33, 35, 37,
    39, 41, 44, 46, 49, 52, 55, 58, 62, 65, 69, 73, 78, 82, 87, 92, 98, 104, 110, 117, 123, 131, 139, 147,
    156, 165, 175, 185, 196, 208, 220, 233, 247, 262, 277, 294, 311]

/-- `NOTE_FREQ` for the notes 64 to 155 (R348). -/
def noteFreqHigh : List Word :=
  [330, 349, 370, 392, 415, 440, 466, 494, 523, 554, 587, 622, 659, 698, 740, 784, 831, 880, 932, 988,
    1047, 1109, 1175, 1245, 1319, 1397, 1480, 1568, 1661, 1760, 1865, 1976, 2093, 2217, 2349, 2489, 2637,
    2794, 2960, 3136, 3322, 3520, 3729, 3951, 4186, 4435, 4699, 4978, 5274, 5588, 5920, 6272, 6645, 7040,
    7459, 7902, 8372, 8870, 9397, 9956, 10548, 11175, 11840, 12544, 13290, 14080, 14917, 15804, 16744,
    17740, 18795, 19912, 21096, 22351, 23680, 25088, 26580, 28160, 29834, 31609, 33488, 35479, 37589,
    39824, 42192, 44701, 47359, 50175, 53159, 56320, 59669, 63217]

/-- The table of R348: 65535 from note 156 up. All entries but note 69 come from outside the source (U2;
log entry 28). -/
def noteFreqDefault : List Word := noteFreqLow ++ (noteFreqHigh ++ List.replicate 100 0xFFFF)

/-- The default column of R6. `tempo`, `biosVersion` and `defaultInstruments` are OPEN there
(DESIGN CHOICE, unsafe: log entries 10 and 11). -/
def Config.standard : Config where
  nRegs := 16
  xlen := 16
  pcBits := 16
  addrBits := 16
  flagCBit := 0
  flagZBit := 1
  flagVBit := 2
  flagNBit := 3
  callStackDepth := none
  altByte := 0xFE
  maxInstrLen := 4
  cycleBudget := 16000
  adcWriteback := false
  logicKeepsCarry := true
  romOrigin := 0x0000
  fixedRomEnd := 0x7FFF
  bankBase := 0x8000
  bankEnd := 0xBFFF
  atlasBase := 0xC000
  atlasTop := 0xDFFF
  tileBytes := 32
  nTiles := 256
  wramBase := 0xE000
  wramEnd := 0xF79F
  audioBase := 0xF7A0
  instrBase := 0xF7C0
  nInstr := 16
  audioEnd := 0xF7FF
  reservedBase := 0xF800
  biosCallBase := 0xF800
  biosCallEnd := 0xFFDF
  sysFlagsBase := 0xFFE0
  paletteBase := 0xFFF0
  paletteEnd := 0xFFFF
  verifyAddr := 0xFFE8
  verifyMagic := 0xA5
  errNone := 0x00
  errReservedWrite := 0x01
  errOamCursor := 0x02
  errStackUnderflow := 0x03
  biosVersion := 0x0001
  lowmemClearEnd := 0xDFFF
  saveBase := 0xF000
  saveSize := 0x0800
  screenW := 256
  screenH := 256
  textCols := 32
  textRows := 32
  oamEntries := 512
  oamEntryBytes := 7
  attrHflipBit := 0
  attrVflipBit := 1
  attrAltpalBit := 2
  typeHudBit := 0
  typeBgBit := 1
  colNone := 0xFFFF
  camMax := 65280
  bgDefault := 0
  fontColorDefault := 1
  nControllers := 2
  sampleRate := 44100
  seqTickSamples := 1024
  tempo := 1
  seqLoopLimit := 65536
  cartHeaderBytes := 64
  cartMagic := [0x53, 0x48, 0x52, 0x50]
  noteFreq := noteFreqDefault
  defaultInstruments := List.replicate 16 ⟨1, 8, 192, 8⟩

/-- The configuration this machine runs: the defaults of R6 (log entry 18). -/
def cfg : Config := Config.standard

/-- `BANK_SIZE` (R6, derived). -/
def Config.bankSize (c : Config) : Nat := c.bankEnd - c.bankBase + 1

/-- x mod 1 (R358). -/
def fracPart (x : Rat) : Rat := x - (x.floor : Rat)

/-- A triangle wave of period 1 (R346): from the phase `start` it rises in a straight line from `low` to
`high` over the part `rise` of the period, then falls in a straight line back to `low`. -/
structure Triangle where
  start : Rat
  rise : Rat
  low : Rat
  high : Rat
  deriving DecidableEq, Repr, Inhabited

/-- What R346 asks of `WAVE_TRI`: a triangle with values in [-1, 1]. That "a triangle" means one rising and
one falling edge per period, of any lengths, is DEDUCED (log entry 9). -/
abbrev Triangle.Lawful (w : Triangle) : Prop :=
  0 < w.rise ∧ w.rise < 1 ∧ -1 ≤ w.low ∧ w.low < w.high ∧ w.high ≤ 1

/-- The wave's value at a phase. -/
def Triangle.wave (w : Triangle) (phase : Rat) : Rat :=
  let u := fracPart (phase - w.start)
  if u < w.rise then w.low + (w.high - w.low) * (u / w.rise)
  else w.high - (w.high - w.low) * ((u - w.rise) / (1 - w.rise))

/-- The triangle of the suggested instance (R346): 1 at phase 0, -1 at phase 1/2. -/
def Triangle.suggested : Triangle where
  start := 1 / 2
  rise := 1 / 2
  low := -1
  high := 1

/-- A triangle kept to the lawful ones; every lawful triangle is reached. -/
def Triangle.kept (w : Triangle) : Triangle := if w.Lawful then w else .suggested

/-- The numeric parameters of the audio unit that R346 leaves open, with `TEMPO` (R350) and the
environment's noise draws (R359). -/
structure ApuParams where
  tempo : Rat
  preGain : Rat
  attackStep : Byte → Rat
  decayStep : Byte → Rat
  releaseStep : Byte → Rat
  retriggerKeep : Rat
  noisePeriod : Word → Rat
  waveSquare : Rat → Rat → Rat
  waveTri : Rat → Rat
  waveSaw : Rat → Rat → Rat
  noise : Nat → Rat

/-! The free values: nothing in Lean can evaluate one or prove a value of it. -/

/-- `draw16()` (R262, U12): the n-th draw of RND. Free value, log entry 5. -/
opaque Config.draw16 : Nat → Word

/-- `drawNoise()` (R359, U13) before it is brought into [-1, 1]: the n-th draw. Free value, log entry 6. -/
opaque Config.rawNoise : Nat → Rat

/-- The byte of controller i at the n-th poll (R414, U14). Free value, log entry 7. -/
opaque Config.controllerByte : Nat → Nat → Byte

/-- `MASTER_PALETTE` (R325, U17): slot to (R, G, B). Open parameter, log entry 8. -/
opaque Config.masterPalette : Nat → Byte × Byte × Byte

/-- `FONT` (R316, U17): character code and glyph row to the row's 8 pixels. Open parameter, log entry 8. -/
opaque Config.font : Byte → Nat → Byte

/-! The parameters of R346 before their constraints are put on them. Open parameters, log entry 9. -/

opaque Config.rawPreGain : Rat
opaque Config.rawAttackStep : Byte → Rat
opaque Config.rawDecayStep : Byte → Rat
opaque Config.rawReleaseStep : Byte → Rat
opaque Config.rawRetriggerKeep : Rat
opaque Config.rawNoisePeriod : Nat → Rat
opaque Config.rawTriangle : Triangle
opaque Config.rawWaveExcess : Rat
opaque Config.rawWaveSquare : Rat → Rat → Rat
opaque Config.rawWaveSaw : Rat → Rat → Rat

/-- A rational kept to the positive ones; every positive value is reached. -/
def positive (q : Rat) : Rat := if 0 < q then q else 1

/-- A rational kept to [lo, hi]; every value of the range is reached. -/
def clampTo (lo hi q : Rat) : Rat := max lo (min hi q)

/-- Every function from Nat to the rationals from 1 up that never rises is `descending f` for some f. -/
def descending (f : Nat → Rat) : Nat → Rat
  | 0 => max 1 (f 0)
  | n + 1 => max 1 (min (descending f n) (f (n + 1)))

/-- `e` of R346: how far the band-limited waves may leave [-1, 1]. Open parameter, log entry 9. -/
def Config.waveExcess : Rat := max 0 Config.rawWaveExcess

/-- The triangle that `WAVE_TRI` is. Open parameter, log entry 9. -/
def Config.triangle : Triangle := Config.rawTriangle.kept

/-- The audio parameters of the machine: the open constants under the constraints R346 states. -/
def Config.apu : ApuParams where
  tempo := cfg.tempo
  preGain := positive Config.rawPreGain
  attackStep b := positive (Config.rawAttackStep b)
  decayStep b := positive (Config.rawDecayStep b)
  releaseStep b := positive (Config.rawReleaseStep b)
  retriggerKeep := clampTo 0 1 Config.rawRetriggerKeep
  noisePeriod f := descending Config.rawNoisePeriod f.toNat
  waveSquare t dt := clampTo (-1 - Config.waveExcess) (1 + Config.waveExcess) (Config.rawWaveSquare t dt)
  waveTri := Config.triangle.wave
  waveSaw t dt := clampTo (-1 - Config.waveExcess) (1 + Config.waveExcess) (Config.rawWaveSaw t dt)
  noise n := clampTo (-1) 1 (Config.rawNoise n)

/-- polyBLEP (R347): the two-sample step correction of the suggested waves. The spec gives it for
0 < dt < 1/2 and at dt = 0; for dt from 1/2 up the same two cases, the first one first, are the model's
choice (DESIGN CHOICE: log entry 29). -/
def blep (t dt : Rat) : Rat :=
  if t < dt then
    let u := t / dt
    2 * u - u * u - 1
  else if 1 - dt < t then
    let u := (t - 1) / dt
    u * u + 2 * u + 1
  else 0

/-- The suggested instance of R346 and R347, with noise draws of 0. The machine does not run it: it is
there so that the worked example R364 can be checked. -/
def ApuParams.suggested : ApuParams where
  tempo := 1
  preGain := 1 / 4
  attackStep b := 1 / (1 + 64 * b.toNat)
  decayStep b := 1 / (1 + 64 * b.toNat)
  releaseStep b := 1 / (1 + 64 * b.toNat)
  retriggerKeep := 1 / 2
  noisePeriod f := max 1 (cfg.sampleRate / max (f.toNat : Rat) 1)
  waveSquare t dt :=
    (if t < 1 / 2 then 1 else -1) + blep t dt - blep (fracPart (t + 1 / 2)) dt
  waveTri t := 4 * |t - 1 / 2| - 1
  waveSaw t dt := 2 * t - 1 - blep t dt
  noise _ := 0

end Sys2Proof
end

