-- ==== Sys2Proof/Syntax.lean ====
section
/-! DEFINITION. The instructions: one constructor for each row of spec/opcode_table.json (R140, R141). -/

namespace Sys2Proof

/-- The 53 primary instructions and the 9 behind the 0xFE byte. Register operands come in the order of
the Mnemonic column of R140 and R141; a 16-bit literal or address comes last. -/
inductive Instr where
  -- 43_control.md and the operand-free device forms
  | halt
  | ret
  | vblnk
  | cls
  | mute
  | jmp (a16 : Word)
  | jeq (a16 : Word)
  | jne (a16 : Word)
  | jgt (a16 : Word)
  | jlt (a16 : Word)
  | jge (a16 : Word)
  | jle (a16 : Word)
  | call (a16 : Word)
  -- 41_arithmetic.md, 42_logic_shift.md
  | add (a b : Reg)
  | sub (a b : Reg)
  | adc (a b : Reg)
  | cmp (a b : Reg)
  | div (a b : Reg)
  | mod (a b : Reg)
  | and (a b : Reg)
  | or (a b : Reg)
  | xor (a b : Reg)
  | shl (a b : Reg)
  | shr (a b : Reg)
  | ldp (a b : Reg)
  | inc (a : Reg)
  | dec (a : Reg)
  | neg (a : Reg)
  | not (a : Reg)
  -- the family forms
  | ldi (r : Reg) (imm16 : Word)
  | ldm (r : Reg) (a16 : Word)
  | stm (r : Reg) (a16 : Word)
  | iadd (r : Reg) (imm16 : Word)
  | isub (r : Reg) (imm16 : Word)
  | icmp (r : Reg) (imm16 : Word)
  | rnd (r : Reg)
  | song (r : Reg)
  | draw (r y t a : Reg)
  | instr (r a b : Reg)
  -- 44_device_ops.md
  | play (a b : Reg) (imm8 : Byte)
  | stop (a : Reg)
  | input (a b : Reg)
  | text (a : Reg)
  | attr (a : Reg)
  | swc (a b : Reg)
  | col (a b : Reg)
  | setcrs (a b : Reg)
  | cam (a b : Reg)
  | cammv (a b : Reg)
  | setoam (a : Reg)
  | bank (a : Reg)
  | outR (a : Reg)
  | outS (a : Reg)
  -- the ALT table (R141)
  | altCls
  | altMute
  | altLdp (a b : Reg)
  | altLdm (r : Reg) (a16 : Word)
  | altStm (r : Reg) (a16 : Word)
  | altIadd (r : Reg) (imm16 : Word)
  | altIsub (r : Reg) (imm16 : Word)
  | altIcmp (r : Reg) (imm16 : Word)
  | altSetcrs (a b : Reg)
  deriving DecidableEq, Repr

end Sys2Proof
end

