-- ==== Sys2Proof/WellFormed.lean ====
section
/-! DEFINITION. What is checked before a term is trusted: an instruction's register fields (R134) and a
configuration (R7). -/

namespace Sys2Proof

/-- The register fields of an instruction, in operand order. -/
def Instr.regs : Instr → List Reg
  | .halt | .ret | .vblnk | .cls | .mute | .altCls | .altMute => []
  | .jmp _ | .jeq _ | .jne _ | .jgt _ | .jlt _ | .jge _ | .jle _ | .call _ => []
  | .add a b | .sub a b | .adc a b | .cmp a b | .div a b | .mod a b => [a, b]
  | .and a b | .or a b | .xor a b | .shl a b | .shr a b | .ldp a b => [a, b]
  | .inc a | .dec a | .neg a | .not a => [a]
  | .ldi r _ | .ldm r _ | .stm r _ | .iadd r _ | .isub r _ | .icmp r _ => [r]
  | .rnd r | .song r => [r]
  | .draw r y t a => [r, y, t, a]
  | .instr r a b => [r, a, b]
  | .play a b _ => [a, b]
  | .stop a | .text a | .attr a | .setoam a | .bank a | .outR a | .outS a => [a]
  | .input a b | .swc a b | .col a b | .setcrs a b | .cam a b | .cammv a b => [a, b]
  | .altLdp a b | .altSetcrs a b => [a, b]
  | .altLdm r _ | .altStm r _ | .altIadd r _ | .altIsub r _ | .altIcmp r _ => [r]

/-- Every register field names one of n registers. -/
def Instr.wfFor (n : Nat) (i : Instr) : Bool := i.regs.all fun r => decide (r.toNat < n)

/-- Well-formed for this machine's register file (R20, R134): with `N_REGS` = 16 every term is. -/
def Instr.wf (i : Instr) : Bool := i.wfFor cfg.nRegs

/-- Why a configuration is refused: one name for each constraint of R7, and for the lengths of the two tables
(R346, R348). -/
inductive ConfigError where
  | regionOrder
  | instrumentBase
  | audioEnd
  | reservedOrder
  | sysFlagsBase
  | paletteEnd
  | biosCallEnd
  | atlasSize
  | verifyMagic
  | verifyAddr
  | noteTable
  | instrumentTable
  deriving DecidableEq, Repr

/-- The constraints of R7, in its order, then the lengths of `NOTE_FREQ` and `DEFAULT_INSTRUMENTS` (R348,
R346), each with the name it is refused by. -/
def Config.constraints (c : Config) : List (Bool × ConfigError) :=
  [ (c.romOrigin == 0 && decide (c.fixedRomEnd < c.bankBase) && decide (c.bankBase ≤ c.bankEnd) &&
      decide (c.bankEnd < c.atlasBase) && decide (c.atlasBase ≤ c.atlasTop) &&
      decide (c.atlasTop < c.wramBase) && decide (c.wramBase ≤ c.wramEnd) &&
      decide (c.wramEnd < c.audioBase), .regionOrder),
    (c.instrBase == c.audioBase + 32, .instrumentBase),
    (c.audioEnd + 1 == c.instrBase + 4 * c.nInstr && decide (c.audioEnd < c.reservedBase), .audioEnd),
    (decide (c.reservedBase ≤ c.biosCallBase) && decide (c.biosCallBase ≤ c.biosCallEnd) &&
      decide (c.biosCallEnd < c.sysFlagsBase), .reservedOrder),
    (c.sysFlagsBase + 16 == c.paletteBase, .sysFlagsBase),
    (c.paletteEnd == c.paletteBase + 15 && c.paletteEnd == 0xFFFF, .paletteEnd),
    (c.biosCallEnd + 32 == 0xFFFF, .biosCallEnd),
    (c.atlasTop + 1 == c.atlasBase + c.tileBytes * c.nTiles, .atlasSize),
    (c.verifyMagic != 0, .verifyMagic),
    (decide (c.sysFlagsBase ≤ c.verifyAddr) && decide (c.verifyAddr ≤ c.sysFlagsBase + 15), .verifyAddr),
    (c.noteFreq.length == 256, .noteTable),
    (c.defaultInstruments.length == c.nInstr, .instrumentTable) ]

/-- The first constraint that fails, by name. -/
def Config.firstError (c : Config) : Option ConfigError :=
  (c.constraints.find? fun x => !x.1).map (·.2)

/-- R7: a configuration that fails a constraint is refused, by name. -/
def Config.build (c : Config) : Except ConfigError Config :=
  match c.firstError with
  | some e => .error e
  | none => .ok c

/-- A configuration R7 accepts. -/
def Config.wf (c : Config) : Bool := c.firstError.isNone

end Sys2Proof
end

