-- ==== Sys2Proof/Decode.lean ====
section
/-! DEFINITION. The decoder (R120 to R145) and the encoder, written from the same formats. -/

namespace Sys2Proof

/-! ## Bit fields (R8) -/

/-- Bits 7:0 of a word. -/
def loByte (w : Word) : Byte := w.extractLsb' 0 8

/-- Bits 15:8 of a word. -/
def hiByte (w : Word) : Byte := w.extractLsb' 8 8

/-- `{hi, lo}`: two bytes as a word, hi in bits 15:8 (R8). -/
def joinBytes (hi lo : Byte) : Word := hi ++ lo

/-- Bits 7:4 of a byte. -/
def hiNibble (b : Byte) : BitVec 4 := b.extractLsb' 4 4

/-- Bits 3:0 of a byte. -/
def loNibble (b : Byte) : BitVec 4 := b.extractLsb' 0 4

/-- A byte from its two nibbles. -/
def nibbles (hi lo : BitVec 4) : Byte := hi ++ lo

/-! ## Formats -/

/-- Why bytes are refused: an unassigned primary opcode, an unassigned second byte after 0xFE (R145), or
fewer bytes than the format needs. -/
inductive Reject where
  | unassigned (op : Byte)
  | unassignedAlt (op2 : Byte)
  | truncated
  deriving DecidableEq, Repr

/-- The operand layouts of R122 to R133; the opcode byte (and, for a family, its register) is already
read, and each layout takes what its operand bytes select. -/
inductive Format where
  | n (i : Instr)                                  -- R122, R128: no operand byte
  | a (mk : Word → Instr)                          -- R123, R129: a 16-bit literal, low byte first
  | rr (mk : Reg → Reg → Instr)                    -- R124, R132: two nibbles
  | r (mk : Reg → Instr)                           -- R125: the high nibble, the low one ignored
  | rri (mk : Reg → Reg → Byte → Instr)            -- R127
  | fd (mk : Reg → Reg → Reg → Instr)              -- R133: three nibbles, the fourth ignored

/-- Read exactly the operand bytes of the format found (R121). -/
def Format.read : Format → List Byte → Except Reject (Instr × List Byte)
  | .n i, rest => .ok (i, rest)
  | .a mk, lo :: hi :: rest => .ok (mk (joinBytes hi lo), rest)
  | .rr mk, b :: rest => .ok (mk (hiNibble b) (loNibble b), rest)
  | .r mk, b :: rest => .ok (mk (hiNibble b), rest)
  | .rri mk, b :: imm :: rest => .ok (mk (hiNibble b) (loNibble b) imm, rest)
  | .fd mk, b :: c :: rest => .ok (mk (hiNibble b) (loNibble b) (hiNibble c), rest)
  | _, _ => .error .truncated

/-- The primary table (R140): a family is found by its high nibble, the other codes by the whole byte. -/
def primaryTable (op : Byte) : Option Format :=
  match hiNibble op, loNibble op with
  | 0x0#4, 0x0#4 => some (.n .halt)
  | 0x0#4, 0x1#4 => some (.n .ret)
  | 0x0#4, 0x2#4 => some (.n .vblnk)
  | 0x0#4, 0x3#4 => some (.n .cls)
  | 0x0#4, 0x4#4 => some (.n .mute)
  | 0x0#4, 0x8#4 => some (.a .jmp)
  | 0x0#4, 0x9#4 => some (.a .jeq)
  | 0x0#4, 0xA#4 => some (.a .jne)
  | 0x0#4, 0xB#4 => some (.a .jgt)
  | 0x0#4, 0xC#4 => some (.a .jlt)
  | 0x0#4, 0xD#4 => some (.a .jge)
  | 0x0#4, 0xE#4 => some (.a .jle)
  | 0x0#4, 0xF#4 => some (.a .call)
  | 0x1#4, 0x0#4 => some (.rr .add)
  | 0x1#4, 0x1#4 => some (.rr .sub)
  | 0x1#4, 0x2#4 => some (.rr .adc)
  | 0x1#4, 0x3#4 => some (.rr .cmp)
  | 0x1#4, 0x4#4 => some (.rr .div)
  | 0x1#4, 0x5#4 => some (.rr .mod)
  | 0x1#4, 0x6#4 => some (.rr .and)
  | 0x1#4, 0x7#4 => some (.rr .or)
  | 0x1#4, 0x8#4 => some (.rr .xor)
  | 0x1#4, 0x9#4 => some (.rr .shl)
  | 0x1#4, 0xA#4 => some (.rr .shr)
  | 0x1#4, 0xB#4 => some (.rr .ldp)
  | 0x1#4, 0xC#4 => some (.r .inc)
  | 0x1#4, 0xD#4 => some (.r .dec)
  | 0x1#4, 0xE#4 => some (.r .neg)
  | 0x1#4, 0xF#4 => some (.r .not)
  | 0x2#4, r => some (.a (.ldi r))
  | 0x3#4, r => some (.a (.ldm r))
  | 0x4#4, r => some (.a (.stm r))
  | 0x5#4, r => some (.a (.iadd r))
  | 0x6#4, r => some (.a (.isub r))
  | 0x7#4, r => some (.a (.icmp r))
  | 0x8#4, r => some (.n (.rnd r))
  | 0x9#4, r => some (.n (.song r))
  | 0xA#4, r => some (.fd (.draw r))
  | 0xB#4, r => some (.rr (.instr r))
  | 0xF#4, 0x0#4 => some (.rri .play)
  | 0xF#4, 0x1#4 => some (.r .stop)
  | 0xF#4, 0x2#4 => some (.rr .input)
  | 0xF#4, 0x3#4 => some (.r .text)
  | 0xF#4, 0x4#4 => some (.r .attr)
  | 0xF#4, 0x5#4 => some (.rr .swc)
  | 0xF#4, 0x6#4 => some (.rr .col)
  | 0xF#4, 0x7#4 => some (.rr .setcrs)
  | 0xF#4, 0x8#4 => some (.rr .cam)
  | 0xF#4, 0x9#4 => some (.rr .cammv)
  | 0xF#4, 0xA#4 => some (.r .setoam)
  | 0xF#4, 0xB#4 => some (.r .bank)
  | 0xF#4, 0xC#4 => some (.r .outR)
  | 0xF#4, 0xD#4 => some (.r .outS)
  | _, _ => none

/-- The ALT table (R141), looked up by the byte after 0xFE. -/
def altTable (op2 : Byte) : Option Format :=
  match hiNibble op2, loNibble op2 with
  | 0x0#4, 0x3#4 => some (.n .altCls)
  | 0x0#4, 0x4#4 => some (.n .altMute)
  | 0x1#4, 0xB#4 => some (.rr .altLdp)
  | 0x3#4, r => some (.a (.altLdm r))
  | 0x4#4, r => some (.a (.altStm r))
  | 0x5#4, r => some (.a (.altIadd r))
  | 0x6#4, r => some (.a (.altIsub r))
  | 0x7#4, r => some (.a (.altIcmp r))
  | 0xF#4, 0x7#4 => some (.rr .altSetcrs)
  | _, _ => none

/-- The decoder (R121): the instruction at the head of the bytes and the bytes after it, or the reason
for refusing them. It reads operand bytes only after a successful lookup. -/
def decode : List Byte → Except Reject (Instr × List Byte)
  | [] => .error .truncated
  | op :: rest =>
    if op = cfg.altByte then
      match rest with
      | [] => .error .truncated
      | op2 :: rest' =>
        match altTable op2 with
        | some f => f.read rest'
        | none => .error (.unassignedAlt op2)
    else
      match primaryTable op with
      | some f => f.read rest
      | none => .error (.unassigned op)

/-! ## The encoder -/

/-- A 16-bit literal as two bytes, low byte first (R130). -/
def literalBytes (w : Word) : List Byte := [loByte w, hiByte w]

/-- The bytes of an instruction in address order (R122 to R133, R140, R141); ignored bits are 0 (R135). -/
def encode : Instr → List Byte
  | .halt => [0x00]
  | .ret => [0x01]
  | .vblnk => [0x02]
  | .cls => [0x03]
  | .mute => [0x04]
  | .jmp w => 0x08 :: literalBytes w
  | .jeq w => 0x09 :: literalBytes w
  | .jne w => 0x0A :: literalBytes w
  | .jgt w => 0x0B :: literalBytes w
  | .jlt w => 0x0C :: literalBytes w
  | .jge w => 0x0D :: literalBytes w
  | .jle w => 0x0E :: literalBytes w
  | .call w => 0x0F :: literalBytes w
  | .add a b => [0x10, nibbles a b]
  | .sub a b => [0x11, nibbles a b]
  | .adc a b => [0x12, nibbles a b]
  | .cmp a b => [0x13, nibbles a b]
  | .div a b => [0x14, nibbles a b]
  | .mod a b => [0x15, nibbles a b]
  | .and a b => [0x16, nibbles a b]
  | .or a b => [0x17, nibbles a b]
  | .xor a b => [0x18, nibbles a b]
  | .shl a b => [0x19, nibbles a b]
  | .shr a b => [0x1A, nibbles a b]
  | .ldp a b => [0x1B, nibbles a b]
  | .inc a => [0x1C, nibbles a 0]
  | .dec a => [0x1D, nibbles a 0]
  | .neg a => [0x1E, nibbles a 0]
  | .not a => [0x1F, nibbles a 0]
  | .ldi r w => nibbles 0x2 r :: literalBytes w
  | .ldm r w => nibbles 0x3 r :: literalBytes w
  | .stm r w => nibbles 0x4 r :: literalBytes w
  | .iadd r w => nibbles 0x5 r :: literalBytes w
  | .isub r w => nibbles 0x6 r :: literalBytes w
  | .icmp r w => nibbles 0x7 r :: literalBytes w
  | .rnd r => [nibbles 0x8 r]
  | .song r => [nibbles 0x9 r]
  | .draw r y t a => [nibbles 0xA r, nibbles y t, nibbles a 0]
  | .instr r a b => [nibbles 0xB r, nibbles a b]
  | .play a b imm => [0xF0, nibbles a b, imm]
  | .stop a => [0xF1, nibbles a 0]
  | .input a b => [0xF2, nibbles a b]
  | .text a => [0xF3, nibbles a 0]
  | .attr a => [0xF4, nibbles a 0]
  | .swc a b => [0xF5, nibbles a b]
  | .col a b => [0xF6, nibbles a b]
  | .setcrs a b => [0xF7, nibbles a b]
  | .cam a b => [0xF8, nibbles a b]
  | .cammv a b => [0xF9, nibbles a b]
  | .setoam a => [0xFA, nibbles a 0]
  | .bank a => [0xFB, nibbles a 0]
  | .outR a => [0xFC, nibbles a 0]
  | .outS a => [0xFD, nibbles a 0]
  | .altCls => [0xFE, 0x03]
  | .altMute => [0xFE, 0x04]
  | .altLdp a b => [0xFE, 0x1B, nibbles a b]
  | .altLdm r w => 0xFE :: nibbles 0x3 r :: literalBytes w
  | .altStm r w => 0xFE :: nibbles 0x4 r :: literalBytes w
  | .altIadd r w => 0xFE :: nibbles 0x5 r :: literalBytes w
  | .altIsub r w => 0xFE :: nibbles 0x6 r :: literalBytes w
  | .altIcmp r w => 0xFE :: nibbles 0x7 r :: literalBytes w
  | .altSetcrs a b => [0xFE, 0xF7, nibbles a b]

/-- The length of an instruction in bytes (R142). -/
def Instr.length : Instr → Nat
  | .halt | .ret | .vblnk | .cls | .mute | .rnd _ | .song _ => 1
  | .jmp _ | .jeq _ | .jne _ | .jgt _ | .jlt _ | .jge _ | .jle _ | .call _ => 3
  | .add .. | .sub .. | .adc .. | .cmp .. | .div .. | .mod .. => 2
  | .and .. | .or .. | .xor .. | .shl .. | .shr .. | .ldp .. => 2
  | .inc _ | .dec _ | .neg _ | .not _ => 2
  | .ldi .. | .ldm .. | .stm .. | .iadd .. | .isub .. | .icmp .. => 3
  | .draw .. => 3
  | .instr .. => 2
  | .play .. => 3
  | .stop _ | .input .. | .text _ | .attr _ | .swc .. | .col .. | .setcrs .. => 2
  | .cam .. | .cammv .. | .setoam _ | .bank _ | .outR _ | .outS _ => 2
  | .altCls | .altMute => 2
  | .altLdp .. | .altSetcrs .. => 3
  | .altLdm .. | .altStm .. | .altIadd .. | .altIsub .. | .altIcmp .. => 4

/-! ## Words of the opcode table -/

/-- The bytes, in address order, of an instruction whose bits are w as spec/opcode_table.json numbers
them. The table gives 16 bits only to the rows behind 0xFE, and numbers them with byte 0 in bits 15:8
(30_encoding.md, at its head); every other row has its first byte in bits 7:0. A 16-bit w whose bits
15:8 are not 0xFE is laid out first byte lowest (log entry 3). Bits above nbits are 0. -/
def tableBytes (nbits w : Nat) : List Byte :=
  let v := w % 2 ^ nbits
  if nbits = 16 ∧ v / 256 = 0xFE then
    [0xFE, BitVec.ofNat 8 v, 0, 0]
  else
    [BitVec.ofNat 8 v, BitVec.ofNat 8 (v / 2 ^ 8), BitVec.ofNat 8 (v / 2 ^ 16), BitVec.ofNat 8 (v / 2 ^ 24)]

/-- The instruction the decoder reads from a word of the opcode table. -/
def decodeTableWord (nbits w : Nat) : Option Instr :=
  match decode (tableBytes nbits w) with
  | .ok (i, _) => some i
  | .error _ => none

end Sys2Proof
end

