-- ==== Sys2Proof/Machine/State.lean ====
section
/-! DEFINITION. The state of the machine as plain data (R20 to R57), the reasons a step can stop, and the
state after reset (R62, R412). -/

namespace Sys2Proof.Machine

/-! ## Reasons to stop -/

/-- The machine stops with a fault. Nothing in this machine does: every abnormal event of R450 has a next
state the spec describes, so the type has no constructor (log entry 25). -/
inductive Fault
  deriving DecidableEq, Repr

/-- A step the spec gives no meaning to. -/
inductive Refusal where
  /-- Raised by an arm of `exec` whose instruction has no meaning yet; safe. No arm raises it. -/
  | notModelled (mnemonic : String)
  /-- Raised by a sequencer tick that would read more than `SEQ_LOOP_LIMIT` records (R399, U6); safe:
  the spec asks for a refusal. -/
  | sequencerLoop
  /-- Raised by a CALL beyond a finite `CALL_STACK_DEPTH` (R30, U5); safe: the spec asks for a refusal.
  Never raised with the default, which is no bound. -/
  | callStackFull
  deriving DecidableEq, Repr

/-! ## Memory -/

/-- Cells of a store: (address, byte) pairs in one canonical form (see `Memory.wf`). -/
abbrev Memory := List Host.Cell

/-- The stores of the machine that are held as cells. -/
inductive Store where
  | ram      -- R35
  | bios     -- R36
  | bank     -- R37: one bank
  | header   -- R39
  | oam      -- R45
  | tag      -- R46
  | text     -- R47
  | pixbuf   -- R50
  | frame    -- R50
  deriving DecidableEq, Repr

/-! ## CPU -/

/-- The four flag bits (R28); `Flags.pack` gives the packed value. -/
structure Flags where
  c : Bool
  z : Bool
  v : Bool
  n : Bool
  deriving DecidableEq, Repr

/-- `cpu_state` (R31). -/
inductive RunState where
  | running
  | halted
  deriving DecidableEq, Repr

/-- The kinds of fault (R450). -/
inductive FaultKind where
  | reservedWrite
  | oamCursor
  | stackUnderflow
  deriving DecidableEq, Repr

/-- Why the CPU is halted. The model's own record, so that a halt by an unassigned opcode or a fault is
told from a normal end (R146, U11; log entry 4). -/
inductive HaltCause where
  | notHalted
  | haltInstruction
  | unknownOpcode
  | fault (kind : FaultKind)
  | host
  deriving DecidableEq, Repr

/-- The CPU's state (R20 to R32). -/
structure Cpu where
  /-- x[0] to x[15] (R20). -/
  regs : Vector Word 16
  /-- The program counter (R25). -/
  pc : Word
  /-- The flags (R28). -/
  flags : Flags
  /-- The call stack, its top first (R30). -/
  stack : List Word
  /-- `cpu_state` (R31). -/
  run : RunState
  /-- `awaiting_vblank` (R32). -/
  awaitingVblank : Bool
  /-- The model's own (R146). -/
  haltCause : HaltCause
  deriving DecidableEq, Repr

/-! ## Bus -/

/-- The stores behind the bus and what selects them (R35 to R39). -/
structure Bus where
  ram : Memory
  bios : Memory
  /-- The configured banks; `N_BANKS` is the length of the list (R37). -/
  banks : List Memory
  selectedBank : Nat
  bootMode : Bool
  powerOn : Bool
  cartHeader : Memory
  deriving DecidableEq, Repr

/-! ## Picture unit and sprite table -/

/-- R45 to R50. -/
structure Ppu where
  oam : Memory
  oamCursor : Nat
  oamTag : Memory
  /-- Cell (row, column) at index 32 * row + column (R47). -/
  textGrid : Memory
  cursorX : Fin 32
  cursorY : Fin 32
  fontColor : BitVec 5
  bgColor : BitVec 5
  camX : Nat
  camY : Nat
  /-- Pixel (x, y) at index 256 * y + x (R50). -/
  pixbuf : Memory
  /-- The exported RGBA bytes (R50, R325). -/
  frame : Memory
  deriving DecidableEq, Repr

/-! ## Audio unit and sequencer -/

/-- Envelope stages (R51, R353). -/
inductive Stage where
  | idle
  | attack
  | decay
  | sustain
  | release
  deriving DecidableEq, Repr

/-- One channel of the APU (R51); the reals are held as rationals (R341; log entry 12). -/
structure Channel where
  phase : Rat
  volume : Rat
  stage : Stage
  lastFreq : Word
  lastCtrl : Byte
  retrig : Bool
  priority : Bool
  noiseTimer : Rat
  noiseValue : Rat
  deriving DecidableEq, Repr

/-- A channel after power-on and after every APU reset (R62, R411). -/
def Channel.reset : Channel where
  phase := 0
  volume := 0
  stage := .idle
  lastFreq := 0
  lastCtrl := 0
  retrig := false
  priority := false
  noiseTimer := 0
  noiseValue := 0

/-- The APU's and the sequencer's state (R51 to R53). -/
structure Audio where
  channels : Vector Channel 8
  seqSamples : Rat
  seqCursor : Word
  seqDelay : Nat
  seqEnabled : Bool
  deriving DecidableEq, Repr

/-! ## Arbiter, host and environment -/

/-- An event of the debug sink (R440). -/
inductive DebugEvent where
  | reg (index : Reg) (value : Word)
  | str (bytes : List Byte)
  | unknownOpcode (pc : Word) (op : Byte)
  | unknownAltOpcode (pc : Word) (op2 : Byte)
  | fault (kind : FaultKind) (pc : Word)
  deriving DecidableEq, Repr

/-- One sample handed to the audio sink: `SOFT_CLIP(preClip)` with `SOFT_CLIP` = tanh kept as a symbol
(R341, R360; log entry 12). -/
structure Sample where
  preClip : Rat
  deriving DecidableEq, Repr

/-- What the host and the audio agent may ask for between two atomic steps (R430). -/
inductive HostOp where
  | powerOn                                  -- R412
  | loadBios (img : List Byte)               -- R431
  | loadCartridge (img : List Byte)          -- R432
  | loadBanks (images : List (List Byte))    -- R434
  | reset                                    -- R435
  | halt                                     -- R435
  | saveView                                 -- R438
  | saveLoad (buf : List Byte)               -- R438
  | generateSamples (n : Nat)                -- R437, R350
  deriving DecidableEq, Repr

/-- The arbiter's own state, the input latch, the outputs to the sinks, and the model's record of the
environment. -/
structure Env where
  /-- One byte per controller (R54). -/
  inputLatch : Vector Byte cfg.nControllers
  /-- Instructions executed in the frame step under way: `count` of R413 (R471). -/
  frameCount : Nat
  /-- The debug trace, oldest first (R440). -/
  debugLog : List DebugEvent
  /-- The samples returned to the audio sink, oldest first (R437). The model's own. -/
  audioOut : List Sample
  /-- The bytes the last SaveView returned (R438). The model's own. -/
  saveOut : List Byte
  /-- How many frames the display sink was handed (R436). The model's own. -/
  framesShown : Nat
  /-- The host's operations to come, each after so many moves of the frame agent (R100, U15; log entry 1). -/
  schedule : List (Nat × HostOp)
  /-- Draws of RND so far: the free value to come is `Config.draw16 drawIndex` (log entry 5). -/
  drawIndex : Nat
  /-- Noise draws so far (log entry 6). -/
  noiseIndex : Nat
  /-- Input polls so far (log entry 7). -/
  pollIndex : Nat
  deriving DecidableEq, Repr

/-- The one machine state (R410). -/
structure State where
  cpu : Cpu
  bus : Bus
  ppu : Ppu
  audio : Audio
  env : Env
  deriving DecidableEq, Repr

/-! ## Reset -/

/-- The CPU after a CPU reset (R61). -/
def Cpu.reset : Cpu where
  regs := Vector.replicate 16 0
  pc := BitVec.ofNat 16 cfg.romOrigin
  flags := ⟨false, false, false, false⟩
  stack := []
  run := .running
  awaitingVblank := false
  haltCause := .notHalted

/-- The machine right after `PowerOn()` (the first column of R62, R412). No store lists a cell: each
reads as its reset contents (`Store.blank`). -/
def State.reset : State where
  cpu := Cpu.reset
  bus :=
    { ram := []
      bios := []
      banks := []
      selectedBank := 0
      bootMode := true
      powerOn := true
      cartHeader := [] }
  ppu :=
    { oam := []
      oamCursor := 0
      oamTag := []
      textGrid := []
      cursorX := 0
      cursorY := 0
      fontColor := cfg.fontColorDefault
      bgColor := cfg.bgDefault
      camX := 0
      camY := 0
      pixbuf := []
      frame := [] }
  audio :=
    { channels := Vector.replicate 8 Channel.reset
      seqSamples := 0
      seqCursor := 0
      seqDelay := 0
      seqEnabled := false }
  env :=
    { inputLatch := Vector.replicate cfg.nControllers 0
      frameCount := 0
      debugLog := []
      audioOut := []
      saveOut := []
      framesShown := 0
      schedule := []
      drawIndex := 0
      noiseIndex := 0
      pollIndex := 0 }

end Sys2Proof.Machine
end

