-- ==== Sys2Proof/Machine/Flags.lean ====
section
/-! DEFINITION. Every flag computation of the spec (R28, R180 to R182, R185, R196 to R198, R210, R215,
R216) and the conditions that read the flags (R231). -/

namespace Sys2Proof.Machine

/-- The packed value `FLAGS = C | Z<<1 | V<<2 | N<<3` (R28); used at the debugging interface and in test
vectors only. -/
def Flags.pack (f : Flags) : BitVec 4 :=
  (BitVec.ofBool f.c).setWidth 4 <<< cfg.flagCBit ||| (BitVec.ofBool f.z).setWidth 4 <<< cfg.flagZBit |||
    (BitVec.ofBool f.v).setWidth 4 <<< cfg.flagVBit ||| (BitVec.ofBool f.n).setWidth 4 <<< cfg.flagNBit

/-- A sum of two words and a carry in with its flags: the law of R180, and R185's with the carry in. -/
def addCarry16 (a b : Word) (cin : Bool) : Word × Flags :=
  let raw := a.toNat + b.toNat + cin.toNat
  let r := BitVec.ofNat 16 raw
  (r, { c := decide (0xFFFF < raw)
        z := decide (r = 0)
        v := a.msb == b.msb && r.msb != a.msb
        n := r.msb })

/-- `add16` (R180). -/
def add16 (a b : Word) : Word × Flags := addCarry16 a b false

/-- `sub16` (R181): carry is borrow, and the subtrahend's sign is inverted for overflow. -/
def sub16 (a b : Word) : Word × Flags :=
  let r := a - b
  (r, { c := decide (a.toNat < b.toNat)
        z := decide (r = 0)
        v := a.msb == !b.msb && r.msb != a.msb
        n := r.msb })

/-- The flags of a division's result for a divisor that is not 0 (R196, R197). -/
def divFlags (r : Word) : Flags := { c := false, z := decide (r = 0), v := false, n := r.msb }

/-- The result and flags of a division or modulo by zero (R198). -/
def divByZero : Word × Flags := (0, { c := false, z := true, v := true, n := false })

/-- DIV (R196, R198): the unsigned floor quotient. -/
def div16 (a b : Word) : Word × Flags :=
  if b = 0 then divByZero
  else
    let q := BitVec.ofNat 16 (a.toNat / b.toNat)
    (q, divFlags q)

/-- MOD (R197, R198): the unsigned remainder. -/
def mod16 (a b : Word) : Word × Flags :=
  if b = 0 then divByZero
  else
    let m := BitVec.ofNat 16 (a.toNat % b.toNat)
    (m, divFlags m)

/-- The logic flag law (R210) with its carry: kept when `keep` (`LOGIC_KEEPS_CARRY`), else cleared. -/
def logicFlags (keep : Bool) (old : Flags) (r : Word) : Flags :=
  { c := keep && old.c, z := decide (r = 0), v := false, n := r.msb }

/-- The flags of a shift (R215, R216): carry is the bit shifted out. -/
def shiftFlags (c : Bool) (r : Word) : Flags := { c := c, z := decide (r = 0), v := false, n := r.msb }

/-- SHL (R215): the count is not masked; the last bit shifted out of bit 15 is the carry. -/
def shl16 (v count : Word) : Word × Flags :=
  let n := count.toNat
  let r : Word := if 16 ≤ n then 0 else BitVec.ofNat 16 (v.toNat * 2 ^ n)
  let c := if 1 ≤ n ∧ n ≤ 16 then v.getLsbD (16 - n) else false
  (r, shiftFlags c r)

/-- SHR (R216): logical; the last bit shifted out of bit 0 is the carry. -/
def shr16 (v count : Word) : Word × Flags :=
  let n := count.toNat
  let r : Word := if 16 ≤ n then 0 else BitVec.ofNat 16 (v.toNat / 2 ^ n)
  let c := if 1 ≤ n ∧ n ≤ 16 then v.getLsbD (n - 1) else false
  (r, shiftFlags c r)

/-! The conditions of R231. -/

/-- JEQ (R238). -/
def Flags.eq (f : Flags) : Bool := f.z

/-- JNE (R239). -/
def Flags.ne (f : Flags) : Bool := !f.z

/-- JGT (R240). -/
def Flags.gt (f : Flags) : Bool := !f.z && f.n == f.v

/-- JLT (R241). -/
def Flags.lt (f : Flags) : Bool := f.n != f.v

/-- JGE (R242). -/
def Flags.ge (f : Flags) : Bool := f.n == f.v

/-- JLE (R243). -/
def Flags.le (f : Flags) : Bool := f.z || f.n != f.v

end Sys2Proof.Machine
end

