-- ==== Sys2Proof/Machine/Memory.lean ====
section
/-! DEFINITION. Memory as cells: what an unlisted address reads as, the canonical form, and the
operations, which keep it (Sys2Proof/Laws/Memory.lean). -/

namespace Sys2Proof.Machine

/-- How many bytes a store has (R35 to R39, R45 to R50). -/
def Store.size : Store → Nat
  | .ram | .bios => 65536
  | .bank => cfg.bankSize
  | .header => cfg.cartHeaderBytes
  | .oam => cfg.oamEntries * cfg.oamEntryBytes
  | .tag => cfg.oamEntries
  | .text => cfg.textCols * cfg.textRows
  | .pixbuf => cfg.screenW * cfg.screenH
  | .frame => 4 * (cfg.screenW * cfg.screenH)

/-- Byte j of `DEFAULT_INSTRUMENTS[k]` (R43, R346). -/
def instrumentBlank (k j : Nat) : Byte :=
  ((cfg.defaultInstruments[k]?.map Envelope.bytes).getD []).getD j 0

/-- What `ram` holds after power-on (R62): in audio RAM the values of `ResetApu` (R411), in the palette
its index, and 0 elsewhere. The instrument table's values are the suggested ones (log entry 10). -/
def ramBlank (a : Nat) : Byte :=
  if cfg.audioBase ≤ a ∧ a < cfg.instrBase then
    if (a - cfg.audioBase) % 4 = 2 then 0xFF else 0x00
  else if cfg.instrBase ≤ a ∧ a ≤ cfg.audioEnd then
    instrumentBlank ((a - cfg.instrBase) / 4) ((a - cfg.instrBase) % 4)
  else if cfg.paletteBase ≤ a ∧ a ≤ cfg.paletteEnd then
    BitVec.ofNat 8 (a - cfg.paletteBase)
  else 0x00

/-- What an unlisted address of a store reads as: the store's contents after power-on (R62). -/
def Store.blank : Store → Nat → Byte
  | .ram, a => ramBlank a
  | .bios, _ | .bank, _ | .tag, _ | .pixbuf, _ | .frame, _ => 0x00
  | .header, _ | .oam, _ | .text, _ => 0xFF

/-- The canonical form from address lo up: addresses strictly rising and inside the store, no cell equal
to what its address reads as unlisted. -/
def Memory.wfFrom (st : Store) (lo : Nat) : Memory → Bool
  | [] => true
  | (a, b) :: rest =>
    decide (lo ≤ a) && decide (a < st.size) && decide (b ≠ st.blank a) && Memory.wfFrom st (a + 1) rest

/-- The canonical form of a store's cells. -/
def Memory.wf (st : Store) (m : Memory) : Bool := Memory.wfFrom st 0 m

/-- The byte at an address. -/
def Memory.read (st : Store) (m : Memory) (a : Nat) : Byte :=
  match m with
  | [] => st.blank a
  | (k, b) :: rest => if k = a then b else Memory.read st rest a

/-- The cells of bytes that stand from an address up. -/
def Memory.cells (st : Store) (base : Nat) : List Byte → Memory
  | [] => []
  | b :: bs =>
    if b = st.blank base then Memory.cells st (base + 1) bs
    else (base, b) :: Memory.cells st (base + 1) bs

/-- Store bytes from an address up. -/
def Memory.load (st : Store) (m : Memory) (base : Nat) (bytes : List Byte) : Memory :=
  m.filter (fun c => decide (c.1 < base)) ++
    (Memory.cells st base bytes ++ m.filter (fun c => decide (base + bytes.length ≤ c.1)))

/-- Store one byte. -/
def Memory.write (st : Store) (m : Memory) (a : Nat) (b : Byte) : Memory := Memory.load st m a [b]

/-- Give the addresses lo to hi back their power-on contents. -/
def Memory.restore (m : Memory) (lo hi : Nat) : Memory :=
  m.filter fun c => !(decide (lo ≤ c.1) && decide (c.1 ≤ hi))

end Sys2Proof.Machine
end

