-- ==== Sys2Proof/Machine/Ops.lean ====
section
/-! DEFINITION. The named operations over registers and memory: register access, internal writes, the
shared reset procedures, the fault handler, the boot handoff, and the bus policy. -/

namespace Sys2Proof.Machine

/-! ## CPU -/

/-- `x[r]` (R9, R20). -/
def State.reg (s : State) (r : Reg) : Word := s.cpu.regs[r.toNat]'(by have := r.isLt; omega)

/-- `x[r] <- v` (R9, R20). -/
def State.setReg (s : State) (r : Reg) (v : Word) : State :=
  { s with cpu := { s.cpu with regs := s.cpu.regs.set r.toNat v (by have := r.isLt; omega) } }

/-- `flags <- f` (R9, R28). -/
def State.setFlags (s : State) (f : Flags) : State := { s with cpu := { s.cpu with flags := f } }

/-- `pc <- a` (R9, R25). -/
def State.setPc (s : State) (a : Word) : State := { s with cpu := { s.cpu with pc := a } }

/-- `pc <- (pc + L) mod 65536` (R26, R27). -/
def State.advance (s : State) (len : Nat) : State := s.setPc (s.cpu.pc + BitVec.ofNat 16 len)

/-- `stack <- l` (R30). -/
def State.setStack (s : State) (l : List Word) : State := { s with cpu := { s.cpu with stack := l } }

/-- `Halt()` (R31, R415), with the model's record of why (R146). -/
def State.halt (s : State) (why : HaltCause) : State :=
  { s with cpu := { s.cpu with run := .halted, haltCause := why } }

/-- `awaiting_vblank <- b` (R32). -/
def State.setAwaiting (s : State) (b : Bool) : State :=
  { s with cpu := { s.cpu with awaitingVblank := b } }

/-- `CpuReset()` (R61, R415). -/
def State.cpuReset (s : State) : State := { s with cpu := Cpu.reset }

/-! ## Internal writes (R91) and the debug sink -/

/-- `ram[a] <- b` as an internal write: no fault, no bank, no handoff (R91). -/
def State.ramWrite (s : State) (a : Nat) (b : Byte) : State :=
  { s with bus := { s.bus with ram := s.bus.ram.write .ram a b } }

/-- Internal writes of bytes from an address up (R91). -/
def State.ramLoad (s : State) (base : Nat) (bytes : List Byte) : State :=
  { s with bus := { s.bus with ram := s.bus.ram.load .ram base bytes } }

/-- `ram[a]`, read directly. -/
def State.ramRead (s : State) (a : Nat) : Byte := s.bus.ram.read .ram a

/-- `debug(e)`: append an event to the debug sink (R440). -/
def State.logEvent (s : State) (e : DebugEvent) : State :=
  { s with env := { s.env with debugLog := s.env.debugLog ++ [e] } }

/-! ## Reset procedures (R411) -/

/-- `ResetOam()` (R411). -/
def State.resetOam (s : State) : State :=
  { s with ppu := { s.ppu with oam := [], oamTag := [], oamCursor := 0 } }

/-- `ClearText()` (R411). -/
def State.clearText (s : State) : State := { s with ppu := { s.ppu with textGrid := [] } }

/-- `ResetSequencer()` (R401, R411). -/
def State.resetSequencer (s : State) : State :=
  { s with audio := { s.audio with seqCursor := 0, seqDelay := 0, seqEnabled := false } }

/-- `ResetApu()` (R362, R411): every channel's state, its register bytes (FREQ 0, VOLUME 0xFF, CONTROL 0)
and the instrument table go back to their power-on values, which are what audio RAM reads as unlisted. -/
def State.resetApu (s : State) : State :=
  { s with
    audio := { s.audio with channels := Vector.replicate 8 Channel.reset }
    bus := { s.bus with ram := s.bus.ram.restore cfg.audioBase cfg.audioEnd } }

/-- `ram[a] <- 0` for a from 0 to `LOWMEM_CLEAR_END` (R460): low memory reads 0 after power-on. -/
def State.clearLowMemory (s : State) : State :=
  { s with bus := { s.bus with ram := s.bus.ram.restore 0 cfg.lowmemClearEnd } }

/-! ## Taking a fault (R460, R461) -/

/-- The error code of a fault (R40, R450). -/
def FaultKind.code : FaultKind → Byte
  | .reservedWrite => cfg.errReservedWrite
  | .oamCursor => cfg.errOamCursor
  | .stackUnderflow => cfg.errStackUnderflow

/-- The address of `SYS_ERROR` (R40). -/
def sysErrorAddr : Nat := cfg.sysFlagsBase + 10

/-- `boot_mode <- b` (R38). -/
def State.setBootMode (s : State) (b : Bool) : State := { s with bus := { s.bus with bootMode := b } }

/-- `FaultHandler(kind)` past its test of `power_on` (R460): log, error code, halt, clear low memory,
reset OAM, sequencer and APU, enter boot mode. Registers, pc, flags and stack stay. -/
def State.faultHandler (s : State) (kind : FaultKind) : State :=
  let s := s.logEvent (.fault kind s.cpu.pc)
  let s := s.ramWrite sysErrorAddr kind.code
  let s := s.halt (.fault kind)
  let s := s.clearLowMemory
  let s := s.resetOam.resetSequencer.resetApu
  s.setBootMode true

/-- How a part of an instruction that can fault or hand off leaves it: it goes on, or it has ended early
(R463). -/
inductive Flow where
  | goOn (s : State)
  | ended (s : State)
  deriving DecidableEq, Repr

/-- `raise Fault(kind)` (R9, R460): while `power_on` is 1 the fault is suppressed and the instruction goes
on (R461); otherwise the handler runs and the instruction ends (R463). -/
def takeFault (kind : FaultKind) (s : State) : Flow :=
  if s.bus.powerOn then .goOn s else .ended (s.faultHandler kind)

/-- There is no return from a fault on this machine (R465): the way on is the host's `Reset()` (R435),
which is `CpuReset()` and keeps the mode, memory and devices. -/
def State.hostReset (s : State) : State := s.cpuReset

/-- The next part of an instruction runs only if the part before it went on (R463). -/
def Flow.andThen (f : Flow) (g : State → Flow) : Flow :=
  match f with
  | .goOn s => g s
  | .ended s => .ended s

/-- The end of an instruction of length L: its pc advance, but for one that ended early (R26, R463). -/
def Flow.finish (len : Nat) : Flow → Host.Outcome State Fault Refusal
  | .goOn s => .next (s.advance len)
  | .ended s => .next s

/-- The end of an instruction of length L that cannot end early (R26). -/
def done (len : Nat) (s : State) : Host.Outcome State Fault Refusal := .next (s.advance len)

/-! ## Boot handoff (R416) -/

/-- The palette a handoff loads: the header's byte, or the entry's index where that is 0xFF (R416, R433). -/
def handoffPalette (s : State) : List Byte :=
  (List.range 16).map fun i =>
    let b := s.bus.cartHeader.read .header (48 + i)
    if b = 0xFF then BitVec.ofNat 8 i else b

/-- `font_color <- v` (R421). -/
def State.setFontColor (s : State) (v : BitVec 5) : State :=
  { s with ppu := { s.ppu with fontColor := v } }

/-- `BootHandoff()` (R416). -/
def State.bootHandoff (s : State) : State :=
  let s := s.halt .host
  let s := s.resetOam.resetApu.resetSequencer.clearText.setFontColor cfg.fontColorDefault
  let s := s.ramLoad cfg.paletteBase (handoffPalette s)
  let s := { s with bus := { s.bus with bootMode := false, powerOn := false } }
  s.cpuReset

/-! ## The bus (R80 to R91) -/

/-- The switchable ROM window (R71). -/
def inBankWindow (a : Word) : Bool := decide (cfg.bankBase ≤ a.toNat) && decide (a.toNat ≤ cfg.bankEnd)

/-- An access in the window goes to the selected bank: cartridge mode with banks configured (R80, R84). -/
def State.banked (s : State) (a : Word) : Bool :=
  !s.bus.bootMode && decide (0 < s.bus.banks.length) && inBankWindow a

/-- The selected bank's cells (R37); empty for a selection outside the configured banks, which no run
reaches (log entry 14). -/
def State.bank (s : State) : Memory := s.bus.banks.getD s.bus.selectedBank []

/-- `BusRead8(a)` (R80). -/
def busRead8 (s : State) (a : Word) : Byte :=
  if s.bus.bootMode && decide (a.toNat ≤ cfg.atlasTop) then s.bus.bios.read .bios a.toNat
  else if s.banked a then s.bank.read .bank (a.toNat - cfg.bankBase)
  else s.ramRead a.toNat

/-- Store a byte in the selected bank (R86). -/
def State.bankWrite (s : State) (a : Nat) (b : Byte) : State :=
  { s with bus :=
    { s.bus with banks := s.bus.banks.modify s.bus.selectedBank fun m => m.write .bank a b } }

/-- A write the bus rejects: cartridge mode, at or above `RESERVED_BASE` (R84, R85). -/
def State.protects (s : State) (a : Word) : Bool :=
  !s.bus.bootMode && decide (cfg.reservedBase ≤ a.toNat)

/-- A write that hands off: boot mode, `VERIFY_MAGIC` to `VERIFY_ADDR` (R84, R416). -/
def State.handsOff (s : State) (a : Word) (b : Byte) : Bool :=
  s.bus.bootMode && decide (a.toNat = cfg.verifyAddr) && decide (b = cfg.verifyMagic)

/-- Where an accepted write lands: the selected bank or `ram` (R84). -/
def State.place (s : State) (a : Word) (b : Byte) : State :=
  if s.banked a then s.bankWrite (a.toNat - cfg.bankBase) b else s.ramWrite a.toNat b

/-- `BusWrite8(a, b)` (R84). -/
def busWrite8 (a : Word) (b : Byte) (s : State) : Flow :=
  if s.protects a then takeFault .reservedWrite s
  else if s.handsOff a b then .ended (s.place a b).bootHandoff
  else .goOn (s.place a b)

/-- `MemRead(a, 2)` (R88, R90). -/
def memRead16 (s : State) (a : Word) : Word := joinBytes (busRead8 s (a + 1)) (busRead8 s a)

/-- `MemWrite(a, 2, v)` (R89, R90): low byte first, each byte checked on its own. -/
def memWrite16 (a : Word) (v : Word) (s : State) : Flow :=
  (busWrite8 a (loByte v) s).andThen (busWrite8 (a + 1) (hiByte v))

/-! ## An unassigned opcode (R452) -/

/-- `raise UnknownOpcode` (R452): one debug event, the CPU halts, pc advances by 1 from the first byte. -/
def State.unknownOpcode (s : State) (e : DebugEvent) : State :=
  ((s.logEvent e).halt .unknownOpcode).advance 1

end Sys2Proof.Machine
end

