-- ==== Sys2Proof/Machine/Operands.lean ====
section
/-! DEFINITION. The operand forms (R160, R261): effective addresses, loads and stores through them, signed
operands, and the fields of a register or literal that an instruction uses. -/

namespace Sys2Proof.Machine

/-- The two ways to form a data address (R160); the third operand form, the literal itself, is a value. -/
inductive Ea where
  | absolute (a16 : Word)
  | indirect (r : Reg)
  deriving DecidableEq, Repr

/-- The effective address: the literal, or the register's value (R160). -/
def Ea.addr (e : Ea) (s : State) : Word :=
  match e with
  | .absolute a16 => a16
  | .indirect r => s.reg r

/-- A word operand in memory (R88, R160). -/
def Ea.loadWord (e : Ea) (s : State) : Word := memRead16 s (e.addr s)

/-- A byte operand in memory, widened with zeros (R9, R160). -/
def Ea.loadByte (e : Ea) (s : State) : Word := (busRead8 s (e.addr s)).setWidth 16

/-- Store a word (R89, R160). -/
def Ea.storeWord (e : Ea) (v : Word) (s : State) : Flow := memWrite16 (e.addr s) v s

/-- Store bits 7:0 of a word (R160). -/
def Ea.storeByte (e : Ea) (v : Word) (s : State) : Flow := busWrite8 (e.addr s) (loByte v) s

/-- `signed(x[r])` (R8). -/
def State.signedReg (s : State) (r : Reg) : Int := (s.reg r).toInt

/-- The instrument field of PLAY's literal: bits 3:0 (R267). -/
def playInstrument (imm8 : Byte) : BitVec 4 := loNibble imm8

/-- The priority override of PLAY's literal: bit 7; bits 6:4 are ignored (R267). -/
def playOverride (imm8 : Byte) : Bool := imm8.msb

/-- A colour value: bits 4:0 (R261, R274). -/
def colourField (w : Word) : BitVec 5 := w.extractLsb' 0 5

/-- A palette index: bits 3:0 (R261, R271). -/
def paletteField (w : Word) : BitVec 4 := w.extractLsb' 0 4

/-! ## The usual ends of an instruction over registers and flags -/

/-- Write a result and its flags, then advance (R26). -/
def writeResult (r : Reg) (res : Word × Flags) (len : Nat) (s : State) : Host.Outcome State Fault Refusal :=
  done len ((s.setReg r res.1).setFlags res.2)

/-- Write the flags of a result that is discarded, then advance (R26). -/
def writeFlags (res : Word × Flags) (len : Nat) (s : State) : Host.Outcome State Fault Refusal :=
  done len (s.setFlags res.2)

/-- Write a register and no flag, then advance (R26). -/
def writeReg (r : Reg) (v : Word) (len : Nat) (s : State) : Host.Outcome State Fault Refusal :=
  done len (s.setReg r v)

/-- A conditional jump (R231): the target, or the next instruction. -/
def jumpIf (taken : Bool) (a16 : Word) (s : State) : Host.Outcome State Fault Refusal :=
  if taken then .next (s.setPc a16) else done 3 s

end Sys2Proof.Machine
end

