-- ==== Sys2Proof/Machine/Arithmetic.lean ====
section
/-! DEFINITION. Arithmetic (41_arithmetic.md): register, immediate and pointer forms, division. -/

namespace Sys2Proof.Machine

/-- ADD (R183). -/
def execAdd (a b : Reg) (s : State) : Host.Outcome State Fault Refusal :=
  writeResult a (add16 (s.reg a) (s.reg b)) 2 s

/-- SUB (R184). -/
def execSub (a b : Reg) (s : State) : Host.Outcome State Fault Refusal :=
  writeResult a (sub16 (s.reg a) (s.reg b)) 2 s

/-- ADC (R185) for either value of `ADC_WRITEBACK`: the sum with the carry in, written back or discarded. -/
def adcWith (writeback : Bool) (a b : Reg) (s : State) : Host.Outcome State Fault Refusal :=
  if writeback then writeResult a (addCarry16 (s.reg a) (s.reg b) s.cpu.flags.c) 2 s else done 2 s

/-- ADC (R185): with the default `ADC_WRITEBACK` = false nothing but pc changes. -/
def execAdc (a b : Reg) (s : State) : Host.Outcome State Fault Refusal := adcWith cfg.adcWriteback a b s

/-- CMP (R186). -/
def execCmp (a b : Reg) (s : State) : Host.Outcome State Fault Refusal :=
  writeFlags (sub16 (s.reg a) (s.reg b)) 2 s

/-- INC (R187). -/
def execInc (a : Reg) (s : State) : Host.Outcome State Fault Refusal := writeResult a (add16 (s.reg a) 1) 2 s

/-- DEC (R188). -/
def execDec (a : Reg) (s : State) : Host.Outcome State Fault Refusal := writeResult a (sub16 (s.reg a) 1) 2 s

/-- NEG (R189). -/
def execNeg (a : Reg) (s : State) : Host.Outcome State Fault Refusal := writeResult a (sub16 0 (s.reg a)) 2 s

/-- IADD (R190). -/
def execIadd (r : Reg) (imm16 : Word) (s : State) : Host.Outcome State Fault Refusal :=
  writeResult r (add16 (s.reg r) imm16) 3 s

/-- ISUB (R191). -/
def execIsub (r : Reg) (imm16 : Word) (s : State) : Host.Outcome State Fault Refusal :=
  writeResult r (sub16 (s.reg r) imm16) 3 s

/-- ICMP (R192). -/
def execIcmp (r : Reg) (imm16 : Word) (s : State) : Host.Outcome State Fault Refusal :=
  writeFlags (sub16 (s.reg r) imm16) 3 s

/-- The flags, then the write-back of a result to the word a register points at (R193, R194): the flags
stand even if the write-back ends the instruction early (R463). -/
def writeBack (r : Reg) (res : Word × Flags) (s : State) : Host.Outcome State Fault Refusal :=
  ((Ea.indirect r).storeWord res.1 (s.setFlags res.2)).finish 4

/-- ALT IADD (R193). -/
def execAltIadd (r : Reg) (imm16 : Word) (s : State) : Host.Outcome State Fault Refusal :=
  writeBack r (add16 ((Ea.indirect r).loadWord s) imm16) s

/-- ALT ISUB (R194). -/
def execAltIsub (r : Reg) (imm16 : Word) (s : State) : Host.Outcome State Fault Refusal :=
  writeBack r (sub16 ((Ea.indirect r).loadWord s) imm16) s

/-- ALT ICMP (R195). -/
def execAltIcmp (r : Reg) (imm16 : Word) (s : State) : Host.Outcome State Fault Refusal :=
  writeFlags (sub16 ((Ea.indirect r).loadWord s) imm16) 4 s

/-- DIV (R196, R198). -/
def execDiv (a b : Reg) (s : State) : Host.Outcome State Fault Refusal :=
  writeResult a (div16 (s.reg a) (s.reg b)) 2 s

/-- MOD (R197, R198). -/
def execMod (a b : Reg) (s : State) : Host.Outcome State Fault Refusal :=
  writeResult a (mod16 (s.reg a) (s.reg b)) 2 s

end Sys2Proof.Machine
end

