-- ==== Sys2Proof/Machine/Control.lean ====
section
/-! DEFINITION. Control transfer, HALT and VBLNK (43_control.md). -/

namespace Sys2Proof.Machine

/-- JMP (R230). -/
def execJmp (a16 : Word) (s : State) : Host.Outcome State Fault Refusal := .next (s.setPc a16)

/-- JEQ (R238). -/
def execJeq (a16 : Word) (s : State) : Host.Outcome State Fault Refusal := jumpIf s.cpu.flags.eq a16 s

/-- JNE (R239). -/
def execJne (a16 : Word) (s : State) : Host.Outcome State Fault Refusal := jumpIf s.cpu.flags.ne a16 s

/-- JGT (R240). -/
def execJgt (a16 : Word) (s : State) : Host.Outcome State Fault Refusal := jumpIf s.cpu.flags.gt a16 s

/-- JLT (R241). -/
def execJlt (a16 : Word) (s : State) : Host.Outcome State Fault Refusal := jumpIf s.cpu.flags.lt a16 s

/-- JGE (R242). -/
def execJge (a16 : Word) (s : State) : Host.Outcome State Fault Refusal := jumpIf s.cpu.flags.ge a16 s

/-- JLE (R243). -/
def execJle (a16 : Word) (s : State) : Host.Outcome State Fault Refusal := jumpIf s.cpu.flags.le a16 s

/-- CALL (R232) for any `CALL_STACK_DEPTH`: a push over a finite bound is refused (R30, U5). -/
def callWith (depth : Option Nat) (a16 : Word) (s : State) : Host.Outcome State Fault Refusal :=
  if depth.any (fun d => decide (d ≤ s.cpu.stack.length)) then .refused .callStackFull
  else .next ((s.setStack ((s.cpu.pc + 3) :: s.cpu.stack)).setPc a16)

/-- CALL (R232); with the default `CALL_STACK_DEPTH` = none no push fails. -/
def execCall (a16 : Word) (s : State) : Host.Outcome State Fault Refusal := callWith cfg.callStackDepth a16 s

/-- RET (R234): pop and jump, or the stack underflow fault; suppressed, it only advances (R461). -/
def execRet (s : State) : Host.Outcome State Fault Refusal :=
  match s.cpu.stack with
  | [] => (takeFault .stackUnderflow s).finish 1
  | top :: rest => .next ((s.setStack rest).setPc top)

/-- HALT (R235). -/
def execHalt (s : State) : Host.Outcome State Fault Refusal := done 1 (s.halt .haltInstruction)

/-- VBLNK (R236). -/
def execVblnk (s : State) : Host.Outcome State Fault Refusal := done 1 (s.setAwaiting true)

end Sys2Proof.Machine
end

