-- ==== Sys2Proof/Machine/DataMovement.lean ====
section
/-! DEFINITION. Data movement (40_data_movement.md): LDI, LDM, LDP, STM and their ALT byte forms. -/

namespace Sys2Proof.Machine

/-- LDI (R161). -/
def execLdi (r : Reg) (imm16 : Word) (s : State) : Host.Outcome State Fault Refusal :=
  writeReg r imm16 3 s

/-- LDM (R162). -/
def execLdm (r : Reg) (a16 : Word) (s : State) : Host.Outcome State Fault Refusal :=
  writeReg r ((Ea.absolute a16).loadWord s) 3 s

/-- LDP (R163). -/
def execLdp (a b : Reg) (s : State) : Host.Outcome State Fault Refusal :=
  writeReg a ((Ea.indirect b).loadWord s) 2 s

/-- STM (R164). -/
def execStm (r : Reg) (a16 : Word) (s : State) : Host.Outcome State Fault Refusal :=
  ((Ea.absolute a16).storeWord (s.reg r) s).finish 3

/-- ALT LDM (R165). -/
def execAltLdm (r : Reg) (a16 : Word) (s : State) : Host.Outcome State Fault Refusal :=
  writeReg r ((Ea.absolute a16).loadByte s) 4 s

/-- ALT LDP (R166). -/
def execAltLdp (a b : Reg) (s : State) : Host.Outcome State Fault Refusal :=
  writeReg a ((Ea.indirect b).loadByte s) 3 s

/-- ALT STM (R167). -/
def execAltStm (r : Reg) (a16 : Word) (s : State) : Host.Outcome State Fault Refusal :=
  ((Ea.absolute a16).storeByte (s.reg r) s).finish 4

end Sys2Proof.Machine
end

