-- ==== Sys2Proof/Machine/Triggers.lean ====
section
/-! DEFINITION. The arbiter's device triggers (R418 to R429, R440): what device instructions, and the
sequencer, ask of the devices. Their writes to `ram` are internal (R91). -/

namespace Sys2Proof.Machine

/-! ## Audio (R418, R419, R425, R428) -/

/-- `NOTE_FREQ[note]`: the parameter's entry (R348). -/
def noteFreq (note : Byte) : Word := cfg.noteFreq.getD note.toNat 0xFFFF

/-- Change one channel's state. -/
def State.modifyChannel (s : State) (c : Fin 8) (f : Channel → Channel) : State :=
  { s with audio := { s.audio with channels := s.audio.channels.set c.val (f (s.audio.channels.get c)) } }

/-- The address of byte k of channel c's registers (R42). -/
def channelAddr (c : Fin 8) (k : Nat) : Nat := cfg.audioBase + 4 * c.val + k

/-- `PlayNote(ch, note, instr, override)` on a channel that exists (R418). -/
def State.playChannel (s : State) (c : Fin 8) (note : Byte) (ins : BitVec 4) (override : Bool) : State :=
  if (s.audio.channels.get c).priority && !override then s
  else
    let f := noteFreq note
    let s := s.modifyChannel c fun ch => { ch with priority := override, retrig := true }
    let s := s.ramLoad (channelAddr c 0) [loByte f, hiByte f]
    s.ramWrite (channelAddr c 3) (nibbles ins 1)

/-- `PlayNote` (R418): a channel number of 8 or more is ignored (R261). -/
def State.playNote (s : State) (ch : Nat) (note : Byte) (ins : BitVec 4) (override : Bool) : State :=
  if h : ch < 8 then s.playChannel ⟨ch, h⟩ note ins override else s

/-- `StopChannel(ch)` on a channel that exists (R419). -/
def State.releaseChannel (s : State) (c : Fin 8) : State :=
  let s := s.ramWrite (channelAddr c 3) (s.ramRead (channelAddr c 3) &&& 0xF0)
  s.modifyChannel c fun ch => { ch with priority := false }

/-- `StopChannel(ch)` (R419): a channel number of 8 or more is ignored (R261). -/
def State.stopChannel (s : State) (ch : Nat) : State := if h : ch < 8 then s.releaseChannel ⟨ch, h⟩ else s

/-- `StopAll()` (R419). -/
def State.stopAll (s : State) : State := (List.finRange 8).foldl State.releaseChannel s

/-- `StartSong(addr)` (R425). -/
def State.startSong (s : State) (addr : Word) : State :=
  { s with audio := { s.audio with seqCursor := addr, seqDelay := 0, seqEnabled := true } }

/-- `Mute(immediate)` (R425). -/
def State.muteAll (s : State) (immediate : Bool) : State :=
  let s := ({ s with audio := { s.audio with seqEnabled := false } } : State).stopAll
  if immediate then
    { s with audio := { s.audio with channels := s.audio.channels.map fun ch =>
      { ch with stage := .idle, volume := 0, retrig := false } } }
  else s

/-- `SetInstrument(k, ad, sr)` (R428): an instrument number of `N_INSTR` or more is ignored (R261). -/
def State.setInstrument (s : State) (k ad sr : Word) : State :=
  if k.toNat < cfg.nInstr then
    s.ramLoad (cfg.instrBase + 4 * k.toNat) [loByte ad, hiByte ad, loByte sr, hiByte sr]
  else s

/-! ## Picture unit (R420 to R427) -/

/-- `ClearScreen(alt)` (R420). -/
def State.clearScreen (s : State) (alt : Bool) : State :=
  let s := s.clearText
  let s : State := { s with ppu := { s.ppu with bgColor := cfg.bgDefault } }
  if alt then s.resetOam else s

/-- The cursor after a move (R422): floor modulus in each axis, with the columns' carry into the rows. -/
def movedCursor (x y : Fin 32) (dx dy : Int) : Fin 32 × Fin 32 :=
  let lin : Int := (x.val : Int) + dx
  (Fin.ofNat 32 (lin.emod 32).toNat, Fin.ofNat 32 (((y.val : Int) + dy + lin.ediv 32).emod 32).toNat)

/-- `MoveCursor(dx, dy)` (R422). -/
def State.moveCursor (s : State) (dx dy : Int) : State :=
  let p := movedCursor s.ppu.cursorX s.ppu.cursorY dx dy
  { s with ppu := { s.ppu with cursorX := p.1, cursorY := p.2 } }

/-- `SetCursor(cx, cy)` (R422). -/
def State.setCursor (s : State) (cx cy : Word) : State :=
  { s with ppu := { s.ppu with cursorX := Fin.ofNat 32 cx.toNat, cursorY := Fin.ofNat 32 cy.toNat } }

/-- The index of a cell of the text grid (R47). -/
def textIndex (row col : Nat) : Nat := cfg.textCols * row + col

/-- `PutChar(ch)` (R421). -/
def State.putChar (s : State) (ch : Byte) : State :=
  let at_ := textIndex s.ppu.cursorY.val s.ppu.cursorX.val
  let s : State := { s with ppu := { s.ppu with textGrid := s.ppu.textGrid.write .text at_ ch } }
  s.moveCursor 1 0

/-- `DrawSprite(X, Y, tile, attr, type)` (R423). -/
def State.drawSprite (s : State) (x y : Word) (tile attr kind : Byte) : State :=
  let at_ := s.ppu.oamCursor
  { s with ppu := { s.ppu with
      oam := s.ppu.oam.load .oam (cfg.oamEntryBytes * at_)
        [loByte x, hiByte x, loByte y, hiByte y, tile, attr, kind]
      oamTag := s.ppu.oamTag.write .tag at_ 0
      oamCursor := (at_ + 1) % cfg.oamEntries } }

/-- `SetOamCursor(v)` (R423): a value past the table raises the fault. -/
def setOamCursor (v : Word) (s : State) : Flow :=
  if cfg.oamEntries ≤ v.toNat then takeFault .oamCursor s
  else .goOn { s with ppu := { s.ppu with oamCursor := v.toNat } }

/-- `SwapColor(i, v)` (R424). -/
def State.swapColor (s : State) (i : BitVec 4) (v : Byte) : State :=
  s.ramWrite (cfg.paletteBase + i.toNat) v

/-- `SetCamera(cx, cy)` (R426). -/
def State.setCamera (s : State) (cx cy : Word) : State :=
  { s with ppu := { s.ppu with camX := min cx.toNat cfg.camMax, camY := min cy.toNat cfg.camMax } }

/-- One axis of a camera move: saturating at both ends, in unbounded integers (R426). -/
def movedCam (cam : Nat) (d : Int) : Nat := (max 0 (min (cfg.camMax : Int) ((cam : Int) + d))).toNat

/-- `MoveCamera(dx, dy)` (R426). -/
def State.moveCamera (s : State) (dx dy : Int) : State :=
  { s with ppu := { s.ppu with camX := movedCam s.ppu.camX dx, camY := movedCam s.ppu.camY dy } }

/-- An entry of the sprite table (R45). -/
structure Sprite where
  x : Word
  y : Word
  tile : Byte
  attr : Byte
  kind : Byte
  deriving DecidableEq, Repr

/-- Byte k of entry i (R45). -/
def oamByte (oam : Memory) (i k : Nat) : Byte := oam.read .oam (cfg.oamEntryBytes * i + k)

/-- Entry i of the sprite table, or none where its seven bytes are all 0xFF (R45). -/
def spriteAt (oam : Memory) (i : Nat) : Option Sprite :=
  if (List.range cfg.oamEntryBytes).all fun k => oamByte oam i k == 0xFF then none
  else
    some
      { x := joinBytes (oamByte oam i 1) (oamByte oam i 0)
        y := joinBytes (oamByte oam i 3) (oamByte oam i 2)
        tile := oamByte oam i 4
        attr := oamByte oam i 5
        kind := oamByte oam i 6 }

/-- The 8 by 8 boxes of two sprites overlap, in unbounded integers (R276). -/
def boxesMeet (p q : Sprite) : Bool :=
  decide (p.x.toNat < q.x.toNat + 8) && decide (q.x.toNat < p.x.toNat + 8) &&
    decide (p.y.toNat < q.y.toNat + 8) && decide (q.y.toNat < p.y.toNat + 8)

/-- A sprite flagged HUD (R45). -/
def Sprite.hud (p : Sprite) : Bool := p.kind.getLsbD cfg.typeHudBit

/-- A sprite flagged background (R45). -/
def Sprite.background (p : Sprite) : Bool := p.kind.getLsbD cfg.typeBgBit

/-- Entry t is one that a sprite p in slot s collides with (R276). -/
def collides (oam : Memory) (s : Nat) (p : Sprite) (t : Nat) : Bool :=
  decide (t ≠ s) &&
    match spriteAt oam t with
    | none => false
    | some q => !(q.hud || q.background) && boxesMeet p q

/-- `CheckCollision(s)` (R276, R427): the first colliding slot, or `COL_NONE`. -/
def checkCollision (oam : Memory) (s : Nat) : Word :=
  if cfg.oamEntries ≤ s then cfg.colNone
  else
    match spriteAt oam s with
    | none => cfg.colNone
    | some p =>
      match (List.range cfg.oamEntries).find? (collides oam s p) with
      | none => cfg.colNone
      | some t => BitVec.ofNat 16 t

/-! ## Input, banks, debugging (R428, R429, R440) -/

/-- `ReadInput(i)` (R428): 0 for a controller that does not exist. -/
def readInput (s : State) (i : Word) : Word :=
  if h : i.toNat < cfg.nControllers then (s.env.inputLatch.get ⟨i.toNat, h⟩).setWidth 16 else 0

/-- `SelectBank(v)` (R429): an index of `N_BANKS` or more is ignored. -/
def State.selectBank (s : State) (v : Word) : State :=
  if v.toNat < s.bus.banks.length then { s with bus := { s.bus with selectedBank := v.toNat } } else s

/-- The bytes OUT_S reads (R284): up to a zero byte, at most `fuel` of them, the address wrapping. -/
def stringAt (s : State) (p : Word) : Nat → List Byte
  | 0 => []
  | fuel + 1 =>
    let b := busRead8 s p
    if b = 0x00 then [] else b :: stringAt s (p + 1) fuel

/-- `draw16()` (R9, R262): the free value to come, and the machine that has drawn it. -/
def State.draw16 (s : State) : Word × State :=
  (Config.draw16 s.env.drawIndex, { s with env := { s.env with drawIndex := s.env.drawIndex + 1 } })

end Sys2Proof.Machine
end

