-- ==== Sys2Proof/Machine/Device.lean ====
section
/-! DEFINITION. The device instructions (44_device_ops.md): each reads its registers, calls its trigger,
writes at most one register, and advances (R260). -/

namespace Sys2Proof.Machine

/-- RND (R262): the register holds a free value. -/
def execRnd (r : Reg) (s : State) : Host.Outcome State Fault Refusal :=
  let d := s.draw16
  writeReg r d.1 1 d.2

/-- SONG (R263). -/
def execSong (r : Reg) (s : State) : Host.Outcome State Fault Refusal := done 1 (s.startSong (s.reg r))

/-- DRAW (R264): x, y, tile in a low byte, attribute and type in the low and high byte of the last. -/
def execDraw (r y t a : Reg) (s : State) : Host.Outcome State Fault Refusal :=
  done 3 (s.drawSprite (s.reg r) (s.reg y) (loByte (s.reg t)) (loByte (s.reg a)) (hiByte (s.reg a)))

/-- CLS (R265). -/
def execCls (s : State) : Host.Outcome State Fault Refusal := done 1 (s.clearScreen false)

/-- ALT CLS (R266). -/
def execAltCls (s : State) : Host.Outcome State Fault Refusal := done 2 (s.clearScreen true)

/-- PLAY (R267). -/
def execPlay (a b : Reg) (imm8 : Byte) (s : State) : Host.Outcome State Fault Refusal :=
  done 3 (s.playNote (s.reg a).toNat (loByte (s.reg b)) (playInstrument imm8) (playOverride imm8))

/-- STOP (R268). -/
def execStop (a : Reg) (s : State) : Host.Outcome State Fault Refusal :=
  done 2 (s.stopChannel (s.reg a).toNat)

/-- MUTE (R269). -/
def execMute (s : State) : Host.Outcome State Fault Refusal := done 1 (s.muteAll false)

/-- ALT MUTE (R270). -/
def execAltMute (s : State) : Host.Outcome State Fault Refusal := done 2 (s.muteAll true)

/-- SWC (R271). -/
def execSwc (a b : Reg) (s : State) : Host.Outcome State Fault Refusal :=
  done 2 (s.swapColor (paletteField (s.reg a)) (loByte (s.reg b)))

/-- INPUT (R272). -/
def execInput (a b : Reg) (s : State) : Host.Outcome State Fault Refusal :=
  writeReg a (readInput s (s.reg b)) 2 s

/-- TEXT (R273). -/
def execText (a : Reg) (s : State) : Host.Outcome State Fault Refusal :=
  done 2 (s.putChar (loByte (s.reg a)))

/-- ATTR (R274). -/
def execAttr (a : Reg) (s : State) : Host.Outcome State Fault Refusal :=
  done 2 (s.setFontColor (colourField (s.reg a)))

/-- INSTR (R275). -/
def execInstr (r a b : Reg) (s : State) : Host.Outcome State Fault Refusal :=
  done 2 (s.setInstrument (s.reg r) (s.reg a) (s.reg b))

/-- COL (R276). -/
def execCol (a b : Reg) (s : State) : Host.Outcome State Fault Refusal :=
  writeReg a (checkCollision s.ppu.oam (s.reg b).toNat) 2 s

/-- SETCRS (R277). -/
def execSetcrs (a b : Reg) (s : State) : Host.Outcome State Fault Refusal :=
  done 2 (s.setCursor (s.reg a) (s.reg b))

/-- ALT SETCRS (R278). -/
def execAltSetcrs (a b : Reg) (s : State) : Host.Outcome State Fault Refusal :=
  done 3 (s.moveCursor (s.signedReg a) (s.signedReg b))

/-- CAM (R279). -/
def execCam (a b : Reg) (s : State) : Host.Outcome State Fault Refusal :=
  done 2 (s.setCamera (s.reg a) (s.reg b))

/-- CAMMV (R280). -/
def execCammv (a b : Reg) (s : State) : Host.Outcome State Fault Refusal :=
  done 2 (s.moveCamera (s.signedReg a) (s.signedReg b))

/-- SETOAM (R281): the one device instruction that can fault (R260). -/
def execSetoam (a : Reg) (s : State) : Host.Outcome State Fault Refusal := (setOamCursor (s.reg a) s).finish 2

/-- BANK (R282). -/
def execBank (a : Reg) (s : State) : Host.Outcome State Fault Refusal := done 2 (s.selectBank (s.reg a))

/-- OUT_R (R283). -/
def execOutR (a : Reg) (s : State) : Host.Outcome State Fault Refusal :=
  done 2 (s.logEvent (.reg a (s.reg a)))

/-- OUT_S (R284). -/
def execOutS (a : Reg) (s : State) : Host.Outcome State Fault Refusal :=
  done 2 (s.logEvent (.str (stringAt s (s.reg a) 256)))

end Sys2Proof.Machine
end

