-- ==== Sys2Proof/Machine/Logic.lean ====
section
/-! DEFINITION. Logic and shifts (42_logic_shift.md). -/

namespace Sys2Proof.Machine

/-- A logic result with the flags of R210 for either value of `LOGIC_KEEPS_CARRY`. -/
def logicWith (keep : Bool) (s : State) (r : Word) : Word × Flags := (r, logicFlags keep s.cpu.flags r)

/-- AND (R211). -/
def execAnd (a b : Reg) (s : State) : Host.Outcome State Fault Refusal :=
  writeResult a (logicWith cfg.logicKeepsCarry s (s.reg a &&& s.reg b)) 2 s

/-- OR (R212). -/
def execOr (a b : Reg) (s : State) : Host.Outcome State Fault Refusal :=
  writeResult a (logicWith cfg.logicKeepsCarry s (s.reg a ||| s.reg b)) 2 s

/-- XOR (R213). -/
def execXor (a b : Reg) (s : State) : Host.Outcome State Fault Refusal :=
  writeResult a (logicWith cfg.logicKeepsCarry s (s.reg a ^^^ s.reg b)) 2 s

/-- NOT (R214). -/
def execNot (a : Reg) (s : State) : Host.Outcome State Fault Refusal :=
  writeResult a (logicWith cfg.logicKeepsCarry s (s.reg a ^^^ 0xFFFF)) 2 s

/-- SHL (R215). -/
def execShl (a b : Reg) (s : State) : Host.Outcome State Fault Refusal :=
  writeResult a (shl16 (s.reg a) (s.reg b)) 2 s

/-- SHR (R216). -/
def execShr (a b : Reg) (s : State) : Host.Outcome State Fault Refusal :=
  writeResult a (shr16 (s.reg a) (s.reg b)) 2 s

end Sys2Proof.Machine
end

