-- ==== Sys2Proof/Machine/Dispatch.lean ====
section
/-! DEFINITION. The dispatch: one arm per instruction, each a direct call of its meaning. -/

namespace Sys2Proof.Machine

/-- The effect of one instruction (R10): its operation and, unless it writes pc or ends early, its
advance. -/
def exec (i : Instr) (s : State) : Host.Outcome State Fault Refusal :=
  match i with
  | .halt => Sys2Proof.Machine.execHalt s
  | .ret => Sys2Proof.Machine.execRet s
  | .vblnk => Sys2Proof.Machine.execVblnk s
  | .cls => Sys2Proof.Machine.execCls s
  | .mute => Sys2Proof.Machine.execMute s
  | .jmp a16 => Sys2Proof.Machine.execJmp a16 s
  | .jeq a16 => Sys2Proof.Machine.execJeq a16 s
  | .jne a16 => Sys2Proof.Machine.execJne a16 s
  | .jgt a16 => Sys2Proof.Machine.execJgt a16 s
  | .jlt a16 => Sys2Proof.Machine.execJlt a16 s
  | .jge a16 => Sys2Proof.Machine.execJge a16 s
  | .jle a16 => Sys2Proof.Machine.execJle a16 s
  | .call a16 => Sys2Proof.Machine.execCall a16 s
  | .add a b => Sys2Proof.Machine.execAdd a b s
  | .sub a b => Sys2Proof.Machine.execSub a b s
  | .adc a b => Sys2Proof.Machine.execAdc a b s
  | .cmp a b => Sys2Proof.Machine.execCmp a b s
  | .div a b => Sys2Proof.Machine.execDiv a b s
  | .mod a b => Sys2Proof.Machine.execMod a b s
  | .and a b => Sys2Proof.Machine.execAnd a b s
  | .or a b => Sys2Proof.Machine.execOr a b s
  | .xor a b => Sys2Proof.Machine.execXor a b s
  | .shl a b => Sys2Proof.Machine.execShl a b s
  | .shr a b => Sys2Proof.Machine.execShr a b s
  | .ldp a b => Sys2Proof.Machine.execLdp a b s
  | .inc a => Sys2Proof.Machine.execInc a s
  | .dec a => Sys2Proof.Machine.execDec a s
  | .neg a => Sys2Proof.Machine.execNeg a s
  | .not a => Sys2Proof.Machine.execNot a s
  | .ldi r imm16 => Sys2Proof.Machine.execLdi r imm16 s
  | .ldm r a16 => Sys2Proof.Machine.execLdm r a16 s
  | .stm r a16 => Sys2Proof.Machine.execStm r a16 s
  | .iadd r imm16 => Sys2Proof.Machine.execIadd r imm16 s
  | .isub r imm16 => Sys2Proof.Machine.execIsub r imm16 s
  | .icmp r imm16 => Sys2Proof.Machine.execIcmp r imm16 s
  | .rnd r => Sys2Proof.Machine.execRnd r s
  | .song r => Sys2Proof.Machine.execSong r s
  | .draw r y t a => Sys2Proof.Machine.execDraw r y t a s
  | .instr r a b => Sys2Proof.Machine.execInstr r a b s
  | .play a b imm8 => Sys2Proof.Machine.execPlay a b imm8 s
  | .stop a => Sys2Proof.Machine.execStop a s
  | .input a b => Sys2Proof.Machine.execInput a b s
  | .text a => Sys2Proof.Machine.execText a s
  | .attr a => Sys2Proof.Machine.execAttr a s
  | .swc a b => Sys2Proof.Machine.execSwc a b s
  | .col a b => Sys2Proof.Machine.execCol a b s
  | .setcrs a b => Sys2Proof.Machine.execSetcrs a b s
  | .cam a b => Sys2Proof.Machine.execCam a b s
  | .cammv a b => Sys2Proof.Machine.execCammv a b s
  | .setoam a => Sys2Proof.Machine.execSetoam a s
  | .bank a => Sys2Proof.Machine.execBank a s
  | .outR a => Sys2Proof.Machine.execOutR a s
  | .outS a => Sys2Proof.Machine.execOutS a s
  | .altCls => Sys2Proof.Machine.execAltCls s
  | .altMute => Sys2Proof.Machine.execAltMute s
  | .altLdp a b => Sys2Proof.Machine.execAltLdp a b s
  | .altLdm r a16 => Sys2Proof.Machine.execAltLdm r a16 s
  | .altStm r a16 => Sys2Proof.Machine.execAltStm r a16 s
  | .altIadd r imm16 => Sys2Proof.Machine.execAltIadd r imm16 s
  | .altIsub r imm16 => Sys2Proof.Machine.execAltIsub r imm16 s
  | .altIcmp r imm16 => Sys2Proof.Machine.execAltIcmp r imm16 s
  | .altSetcrs a b => Sys2Proof.Machine.execAltSetcrs a b s

end Sys2Proof.Machine
end

