-- ==== Sys2Proof/Machine/Sequencer.lean ====
section
/-! DEFINITION. The note sequencer (52_sequencer.md). -/

namespace Sys2Proof.Machine

/-- The four bytes of a record (R393). -/
structure Record where
  channel : Byte
  note : Byte
  duration : Byte
  ins : Byte
  deriving DecidableEq, Repr

/-- The record at the cursor, read over the bus, the address wrapping (R391, R400). -/
def recordAt (s : State) (p : Word) : Record where
  channel := busRead8 s p
  note := busRead8 s (p + 1)
  duration := busRead8 s (p + 2)
  ins := busRead8 s (p + 3)

/-- `seq_cursor <- p`. -/
def State.setSeqCursor (s : State) (p : Word) : State :=
  { s with audio := { s.audio with seqCursor := p } }

/-- `seq_delay <- d`. -/
def State.setSeqDelay (s : State) (d : Nat) : State :=
  { s with audio := { s.audio with seqDelay := d } }

/-- END (R394): the sequence stops and every channel with it; the cursor stays. -/
def State.seqEnd (s : State) : State :=
  ({ s with audio := { s.audio with seqEnabled := false } } : State).stopAll

/-- What a record that is no control code plays (R396 to R398): note 0 stops its channel, another note
plays with override, and a channel byte from 8 up plays nothing. -/
def State.seqPlay (s : State) (r : Record) : State :=
  if r.channel.toNat < 8 then
    if r.note = 0 then s.stopChannel r.channel.toNat
    else s.playNote r.channel.toNat r.note (loNibble r.ins) true
  else s

/-- The loop of `SequencerTick()` (R391), which reads at most `fuel` records: past them the run is
refused (R399, U6). -/
def seqLoop : Nat → State → Except Refusal State
  | 0, _ => .error .sequencerLoop
  | fuel + 1, s =>
    let r := recordAt s s.audio.seqCursor
    if r.channel = 0xFF then .ok s.seqEnd
    else if r.channel = 0xFE then seqLoop fuel (s.setSeqCursor (joinBytes r.ins r.duration))
    else
      let s' := (s.setSeqCursor (s.audio.seqCursor + 4)).seqPlay r
      if r.duration = 0 then seqLoop fuel s' else .ok (s'.setSeqDelay r.duration.toNat)

/-- `SequencerTick()` (R391). -/
def sequencerTick (s : State) : Except Refusal State :=
  if s.audio.seqEnabled = false then .ok s
  else if 0 < s.audio.seqDelay then .ok (s.setSeqDelay (s.audio.seqDelay - 1))
  else seqLoop cfg.seqLoopLimit s

end Sys2Proof.Machine
end

