-- ==== Sys2Proof/Machine/Sound.lean ====
section
/-! DEFINITION. The audio unit (51_apu.md): edge detection, envelopes, oscillators, and the sample loop.
Everything takes the numeric parameters of R346 as an argument; the machine runs `Config.apu`. -/

namespace Sys2Proof.Machine

/-- `EdgeDetect` (R352). -/
def edgeDetect (p : ApuParams) (f : Word) (ctrl : Byte) (ch : Channel) : Channel :=
  let gate := ctrl.getLsbD 0
  let rising := gate && !ch.lastCtrl.getLsbD 0
  let changed := f != ch.lastFreq || ctrl != ch.lastCtrl
  let started : Channel :=
    if gate && (rising || changed || ch.retrig) then
      { ch with volume := ch.volume * p.retriggerKeep, stage := .attack }
    else ch
  let released : Channel :=
    if !gate && (started.stage == .attack || started.stage == .decay || started.stage == .sustain) then
      { started with stage := .release }
    else started
  { released with lastFreq := f, lastCtrl := ctrl, retrig := false }

/-- A byte as a fraction of full scale (R351, R353). -/
def unitOf (b : Byte) : Rat := (b.toNat : Rat) / 255

/-- `EnvelopeStep` (R353). -/
def envelopeStep (p : ApuParams) (vmax : Rat) (e : Envelope) (ch : Channel) : Channel :=
  let target := unitOf e.sustain * vmax
  match ch.stage with
  | .idle => { ch with volume := 0 }
  | .attack =>
    let v := ch.volume + p.attackStep e.attack
    if vmax ≤ v then { ch with volume := vmax, stage := .decay } else { ch with volume := v }
  | .decay =>
    let v := ch.volume - p.decayStep e.decay
    if v ≤ target then { ch with volume := target, stage := .sustain } else { ch with volume := v }
  | .sustain => { ch with volume := target }
  | .release =>
    let v := ch.volume - p.releaseStep e.release
    if v ≤ 0 then { ch with volume := 0, stage := .idle } else { ch with volume := v }

/-- The oscillator of a tonal channel (R358): the sample, then the phase's advance. -/
def tonal (p : ApuParams) (c : Fin 8) (f : Word) (ch : Channel) : Rat × Channel :=
  let dt := (f.toNat : Rat) / (cfg.sampleRate : Rat)
  let w :=
    if c.val < 2 then p.waveSquare ch.phase dt
    else if c.val < 4 then p.waveTri ch.phase
    else p.waveSaw ch.phase dt
  (w, { ch with phase := fracPart (ch.phase + dt) })

/-- A noise channel draws a new value at this sample (R359). -/
def noiseDue (ch : Channel) : Bool := decide (ch.noiseTimer - 1 ≤ 0)

/-- The oscillator of a noise channel (R359), given the value it draws if it is due. -/
def noisy (p : ApuParams) (f : Word) (drawn : Rat) (ch : Channel) : Rat × Channel :=
  let t := ch.noiseTimer - 1
  if noiseDue ch then
    (drawn, { ch with noiseValue := drawn, noiseTimer := t + p.noisePeriod f })
  else (ch.noiseValue, { ch with noiseTimer := t })

/-- The frequency word of a channel's registers (R42, R351). -/
def channelFreq (s : State) (c : Fin 8) : Word :=
  joinBytes (s.ramRead (channelAddr c 1)) (s.ramRead (channelAddr c 0))

/-- The control byte of a channel's registers (R42). -/
def channelCtrl (s : State) (c : Fin 8) : Byte := s.ramRead (channelAddr c 3)

/-- The instrument a channel's control byte names: bits 7:4 (R42, R43). -/
def channelEnvelope (s : State) (c : Fin 8) : Envelope :=
  let base := cfg.instrBase + 4 * (hiNibble (channelCtrl s c)).toNat
  { attack := s.ramRead base
    decay := s.ramRead (base + 1)
    sustain := s.ramRead (base + 2)
    release := s.ramRead (base + 3) }

/-- A channel after the edge detection and envelope of one sample (R351). -/
def shapedChannel (p : ApuParams) (s : State) (c : Fin 8) : Channel :=
  envelopeStep p (unitOf (s.ramRead (channelAddr c 2))) (channelEnvelope s c)
    (edgeDetect p (channelFreq s c) (channelCtrl s c) (s.audio.channels.get c))

/-- `ChannelSample(c)` (R351): the contribution, and the machine after it; an idle channel contributes 0
and its oscillator stands still (R357). -/
def channelSample (p : ApuParams) (s : State) (c : Fin 8) : Rat × State :=
  let ch := shapedChannel p s c
  if ch.stage = .idle then (0, s.modifyChannel c fun _ => ch)
  else if c.val < 6 then
    let o := tonal p c (channelFreq s c) ch
    (o.1 * ch.volume, s.modifyChannel c fun _ => o.2)
  else
    let o := noisy p (channelFreq s c) (p.noise s.env.noiseIndex) ch
    let s := s.modifyChannel c fun _ => o.2
    (o.1 * ch.volume,
      if noiseDue ch then { s with env := { s.env with noiseIndex := s.env.noiseIndex + 1 } } else s)

/-- The sum of the eight contributions, channel 0 first (R350, R360). -/
def mixChannels (p : ApuParams) (s : State) : Rat × State :=
  (List.finRange 8).foldl (fun acc c =>
    let r := channelSample p acc.2 c
    (acc.1 + r.1, r.2)) (0, s)

/-- The sample clock of the sequencer (R350): a tick when `SEQ_TICK_SAMPLES` samples have gathered. -/
def clockSequencer (p : ApuParams) (s : State) : Except Refusal State :=
  let t := s.audio.seqSamples + p.tempo
  if (cfg.seqTickSamples : Rat) ≤ t then
    sequencerTick { s with audio := { s.audio with seqSamples := t - (cfg.seqTickSamples : Rat) } }
  else .ok { s with audio := { s.audio with seqSamples := t } }

/-- One sample (R350): the sequencer first, then the eight channels, then the soft clip. -/
def sampleStep (p : ApuParams) (s : State) : Except Refusal State :=
  match clockSequencer p s with
  | .error e => .error e
  | .ok s =>
    let m := mixChannels p s
    let s := m.2
    .ok { s with env := { s.env with audioOut := s.env.audioOut ++ [⟨p.preGain * m.1⟩] } }

/-- `GenerateSamples(n)` (R350, R437). -/
def generateSamples (p : ApuParams) : Nat → State → Except Refusal State
  | 0, s => .ok s
  | n + 1, s =>
    match sampleStep p s with
    | .error e => .error e
    | .ok s => generateSamples p n s

end Sys2Proof.Machine
end

