-- ==== Sys2Proof/Machine/HostOps.lean ====
section
/-! DEFINITION. The host's operations (R430 to R438), each one atomic step. -/

namespace Sys2Proof.Machine

/-- `PowerOn()` (R412): the state after reset. The host's schedule, the counters of the free values and
what the sinks already hold are outside the machine and stay (log entry 15). -/
def State.powerOnHost (s : State) : State :=
  { State.reset with env :=
    { s.env with inputLatch := State.reset.env.inputLatch, frameCount := 0 } }

/-- `LoadBios(img)` (R431). -/
def State.loadBios (s : State) (img : List Byte) : State :=
  let n := min img.length 65536
  let s : State := { s with bus := { s.bus with bios := Memory.load .bios [] 0 (img.take n) } }
  let s := if cfg.biosCallBase < n then
      s.ramLoad cfg.biosCallBase ((img.take (min n (cfg.biosCallEnd + 1))).drop cfg.biosCallBase)
    else s
  let s := s.ramLoad (cfg.sysFlagsBase + 4) [loByte cfg.biosVersion, hiByte cfg.biosVersion]
  s.ramWrite (cfg.sysFlagsBase + 9) 0x00

/-- An image `LoadCartridge` accepts: a whole header with the magic (R432). -/
def cartridgeAccepted (img : List Byte) : Bool :=
  decide (cfg.cartHeaderBytes ≤ img.length) && img.take 4 == cfg.cartMagic

/-- `LoadCartridge(img)` (R432, R433, R457). -/
def State.loadCartridge (s : State) (img : List Byte) : State :=
  if cartridgeAccepted img then
    let s : State := { s with bus :=
      { s.bus with cartHeader := Memory.load .header [] 0 (img.take cfg.cartHeaderBytes) } }
    let s := s.ramLoad cfg.romOrigin ((img.drop cfg.cartHeaderBytes).take (cfg.atlasTop + 1))
    let s := s.ramLoad cfg.sysFlagsBase (img.take 4)
    let s := s.ramLoad (cfg.sysFlagsBase + 6) [img.getD 44 0, img.getD 45 0]
    s.ramWrite (cfg.sysFlagsBase + 9) 0x01
  else s.ramWrite (cfg.sysFlagsBase + 9) 0xFF

/-- `LoadBanks(list)` (R434): each bank cut or padded with zeros to `BANK_SIZE`. -/
def State.loadBanks (s : State) (images : List (List Byte)) : State :=
  { s with bus := { s.bus with
      banks := images.map fun img => Memory.load .bank [] 0 (img.take cfg.bankSize)
      selectedBank := 0 } }

/-- `SaveView()` (R438): the bytes of the save window. -/
def saveView (s : State) : List Byte :=
  (List.range cfg.saveSize).map fun i => s.ramRead (cfg.saveBase + i)

/-- `SaveLoad(buf)` (R438): a buffer of another length does nothing. -/
def State.saveLoad (s : State) (buf : List Byte) : State :=
  if buf.length = cfg.saveSize then s.ramLoad cfg.saveBase buf else s

/-- The outcome of an audio batch. -/
def ofExcept : Except Refusal State → Host.Outcome State Fault Refusal
  | .ok s => .next s
  | .error e => .refused e

/-- One operation of the host or the audio agent (R430). -/
def hostStep (op : HostOp) (s : State) : Host.Outcome State Fault Refusal :=
  match op with
  | .powerOn => .next s.powerOnHost
  | .loadBios img => .next (s.loadBios img)
  | .loadCartridge img => .next (s.loadCartridge img)
  | .loadBanks images => .next (s.loadBanks images)
  | .reset => .next s.hostReset
  | .halt => .next (s.halt .host)
  | .saveView => .next { s with env := { s.env with saveOut := saveView s } }
  | .saveLoad buf => .next (s.saveLoad buf)
  | .generateSamples n => ofExcept (generateSamples Config.apu n s)

end Sys2Proof.Machine
end

