-- ==== Sys2Proof/Machine/Picture.lean ====
section
/-! DEFINITION. The picture unit's VBlank pass (50_ppu.md): background, sprites, text, export. -/

namespace Sys2Proof.Machine

/-- The index of a pixel of the pixel buffer (R50, R301). -/
def pixelIndex (x y : Nat) : Nat := cfg.screenW * y + x

/-- Step 1 (R311): every pixel the background colour. -/
def background (c : BitVec 5) : Memory :=
  if c = 0 then []
  else (List.range (cfg.screenW * cfg.screenH)).map fun i => (i, c.setWidth 8)

/-- `TileBase(t)` (R315): tile 0 ends at `ATLAS_TOP`, and the atlas grows downward. -/
def tileBase (t : Byte) : Nat := cfg.atlasTop + 1 - cfg.tileBytes * (t.toNat + 1)

/-- `TilePixel(t, r, c)` (R315): two pixels a byte, the high nibble the left one, read over the bus (R310). -/
def tilePixel (s : State) (t : Byte) (r c : Nat) : BitVec 4 :=
  let b := busRead8 s (BitVec.ofNat 16 (tileBase t + 4 * r + c / 2))
  if c % 2 = 0 then hiNibble b else loNibble b

/-- One pixel of `Blit` (R314): row r and column c of a sprite whose top left is at (sx, sy). -/
def blitPixel (s : State) (p : Sprite) (sx sy : Int) (r c : Nat) (pb : Memory) : Memory :=
  let px := sx + (c : Int)
  let py := sy + (r : Int)
  if px < 0 ∨ 255 < px ∨ py < 0 ∨ 255 < py then pb
  else
    let v := tilePixel s p.tile (if p.attr.getLsbD cfg.attrVflipBit then 7 - r else r)
      (if p.attr.getLsbD cfg.attrHflipBit then 7 - c else c)
    if v = 0 then pb
    else
      let stored : Byte := if p.attr.getLsbD cfg.attrAltpalBit then v.setWidth 8 + 16 else v.setWidth 8
      pb.write .pixbuf (pixelIndex px.toNat py.toNat) stored

/-- `Blit(s, sx, sy)` (R314). -/
def blit (s : State) (p : Sprite) (sx sy : Int) (pb : Memory) : Memory :=
  (List.range 8).foldl (fun pb r => (List.range 8).foldl (fun pb c => blitPixel s p sx sy r c pb) pb) pb

/-- The populated entries of the sprite table in slot order (R312). -/
def populated (oam : Memory) : List Sprite := (List.range cfg.oamEntries).filterMap (spriteAt oam)

/-- A HUD entry in range: both coordinates at most 255 (R312, R313). -/
def hudInRange (p : Sprite) : Bool := p.hud && decide (p.x.toNat ≤ 255) && decide (p.y.toNat ≤ 255)

/-- Step 2 (R312): the other sprites through the camera, then the HUD entries in range. -/
def drawSprites (s : State) (pb : Memory) : Memory :=
  let all := populated s.ppu.oam
  let world := (all.filter fun p => !p.hud).foldl
    (fun pb p => blit s p ((p.x.toNat : Int) - s.ppu.camX) ((p.y.toNat : Int) - s.ppu.camY) pb) pb
  (all.filter hudInRange).foldl (fun pb p => blit s p p.x.toNat p.y.toNat pb) world

/-- One glyph of step 3 (R316): the set bits of its rows, bit 7 the left pixel. -/
def drawGlyph (s : State) (ch : Byte) (row col : Nat) (pb : Memory) : Memory :=
  (List.range 8).foldl (fun pb r =>
    (List.range 8).foldl (fun pb c =>
      if (Config.font ch r).getLsbD (7 - c) then
        pb.write .pixbuf (pixelIndex (8 * col + c) (8 * row + r)) (s.ppu.fontColor.setWidth 8)
      else pb) pb) pb

/-- Step 3 (R316): the text grid, over every sprite. -/
def drawText (s : State) (pb : Memory) : Memory :=
  (List.range cfg.textRows).foldl (fun pb row =>
    (List.range cfg.textCols).foldl (fun pb col =>
      let ch := s.ppu.textGrid.read .text (textIndex row col)
      if ch = 0xFF then pb else drawGlyph s ch row col pb) pb) pb

/-- The master slot of a stored colour value (R325). -/
def masterSlot (s : State) (p : Byte) : Nat :=
  let entry := busRead8 s (BitVec.ofNat 16 (cfg.paletteBase + (p &&& 0x0F).toNat))
  ((entry &&& 0x1F).toNat + (p &&& 0x10).toNat) % 32

/-- The four bytes a stored colour value is exported as (R325): alpha 0 for the slots 0 and 16. -/
def exportPixel (s : State) (p : Byte) : List Byte :=
  let m := masterSlot s p
  let rgb := Config.masterPalette m
  [rgb.1, rgb.2.1, rgb.2.2, if m = 0 ∨ m = 16 then 0x00 else 0xFF]

/-- The pixel buffer a pass composes: steps 1 to 3 (R311 to R316). -/
def compose (s : State) : Memory := drawText s (drawSprites s (background s.ppu.bgColor))

/-- Step 4 (R325): the bytes of the frame, row by row from the top left. -/
def exportFrame (s : State) (pb : Memory) : List Byte :=
  (List.range (cfg.screenW * cfg.screenH)).flatMap fun i => exportPixel s (pb.read .pixbuf i)

/-- `VBlankPass()` (R300): it writes `pixbuf` and `frame` and nothing else. -/
def State.vblankPass (s : State) : State :=
  let pb := compose s
  { s with ppu := { s.ppu with pixbuf := pb, frame := Memory.load .frame [] 0 (exportFrame s pb) } }

end Sys2Proof.Machine
end

