-- ==== Sys2Proof/Machine/Fetch.lean ====
section
/-! DEFINITION. Fetching an instruction's bytes, what an unassigned code raises, and the parts of the
frame step around an instruction (R120, R121, R413, R414, R452). -/

namespace Sys2Proof.Machine

/-- The bytes the fetch can reach: `Fetch8(0)` to `Fetch8(3)` (R9, R120, `MAX_INSTR_LEN`). Reads have no
side effect, so the bytes past the instruction's length do not matter (R80, R121). -/
def fetchBytes (s : State) : List Byte :=
  [busRead8 s s.cpu.pc, busRead8 s (s.cpu.pc + 1), busRead8 s (s.cpu.pc + 2), busRead8 s (s.cpu.pc + 3)]

/-- The debug event of refused bytes (R440, R452). Four bytes are never too few. -/
def rejectEvent (s : State) : Reject → DebugEvent
  | .unassigned op => .unknownOpcode s.cpu.pc op
  | .unassignedAlt op2 => .unknownAltOpcode s.cpu.pc op2
  | .truncated => .unknownOpcode s.cpu.pc (busRead8 s s.cpu.pc)

/-- The frame step goes on with an instruction: the condition of its loop (R413). -/
def State.runsInstruction (s : State) : Bool :=
  s.cpu.run == .running && !s.cpu.awaitingVblank && decide (s.env.frameCount < cfg.cycleBudget)

/-- `count <- count + 1` (R413). -/
def State.countInstruction (s : State) : State :=
  { s with env := { s.env with frameCount := s.env.frameCount + 1 } }

/-- `PollInput()` (R414): a free byte for each controller. -/
def State.pollInput (s : State) : State :=
  { s with env := { s.env with
      inputLatch := Vector.ofFn fun i : Fin cfg.nControllers => Config.controllerByte s.env.pollIndex i.val
      pollIndex := s.env.pollIndex + 1 } }

/-- The end of a frame step (R413): poll, VBlank pass, the frame handed to the display sink (R436), the
awaiting bit cleared; the next frame step counts from 0. -/
def State.frameTail (s : State) : State :=
  let s := s.pollInput.vblankPass
  let s : State := { s with env :=
    { s.env with frameCount := 0, framesShown := s.env.framesShown + 1 } }
  s.setAwaiting false

/-- Put a byte where a fetch or a read at the address finds it (R80). -/
def State.placeFetched (s : State) (a : Word) (b : Byte) : State :=
  if s.bus.bootMode && decide (a.toNat ≤ cfg.atlasTop) then
    { s with bus := { s.bus with bios := s.bus.bios.write .bios a.toNat b } }
  else if s.banked a then s.bankWrite (a.toNat - cfg.bankBase) b
  else s.ramWrite a.toNat b

/-- Put bytes from an address up where a fetch finds them. -/
def State.placeBytes (s : State) (a : Word) : List Byte → State
  | [] => s
  | b :: bs => (s.placeFetched a b).placeBytes (a + 1) bs

/-- `schedule <- l`. -/
def State.setSchedule (s : State) (l : List (Nat × HostOp)) : State :=
  { s with env := { s.env with schedule := l } }

/-- The frame agent moves next: no operation of the host is due (log entry 1). -/
def State.frameAgentNext (s : State) : Bool :=
  match s.env.schedule with
  | (0, _) :: _ => false
  | _ => true

/-- The machine as the fetch needs it for its next step to run an instruction (R413): running, not
awaiting, budget left, and the frame agent next. -/
def State.ready (s : State) : State :=
  { s with
    cpu := { s.cpu with run := .running, awaitingVblank := false, haltCause := .notHalted }
    env := { s.env with
      frameCount := if s.env.frameCount < cfg.cycleBudget then s.env.frameCount else 0
      schedule := if s.frameAgentNext then s.env.schedule else [] } }

end Sys2Proof.Machine
end

