-- ==== Sys2Proof/Machine/Frame.lean ====
section
/-! DEFINITION. The moves of the frame agent (R100, R413): one instruction, or the end of a frame step. -/

namespace Sys2Proof.Machine

/-- `ExecuteInstruction()` (R121, R413): fetch, decode, execute; an unassigned code is the event of R452. -/
def executeInstruction (s : State) : Host.Outcome State Fault Refusal :=
  match decode (fetchBytes s) with
  | .ok (i, _) => exec i s
  | .error e => .next (s.unknownOpcode (rejectEvent s e))

/-- One atomic move of the frame agent, whose driver calls `Step()` again and again (R413; log entry 1). -/
def frameMove (s : State) : Host.Outcome State Fault Refusal :=
  if s.runsInstruction then executeInstruction s.countInstruction else .next s.frameTail

/-- One atomic step of the machine (R100): the host's operation that is due, or a move of the frame
agent, which brings the next scheduled operation one move nearer. -/
def move (s : State) : Host.Outcome State Fault Refusal :=
  match s.env.schedule with
  | (0, op) :: rest => hostStep op (s.setSchedule rest)
  | (n + 1, op) :: rest => frameMove (s.setSchedule ((n, op) :: rest))
  | [] => frameMove s

end Sys2Proof.Machine
end

