-- ==== Sys2Proof/Machine/Step.lean ====
section
/-! DEFINITION. The step of the machine, and where its fetch finds an instruction. -/

namespace Sys2Proof.Machine

/-- One atomic step (R100). -/
def step : State → Host.Outcome State Fault Refusal := move

/-- The state with an instruction of the opcode table stored where the next step fetches it, and made
ready to run it (log entries 2 and 3). -/
def State.withFetchWord (s : State) (nbits w : Nat) : State :=
  s.ready.placeBytes s.cpu.pc (tableBytes nbits w)

end Sys2Proof.Machine
end

