-- ==== Sys2Proof/Safety.lean ====
section
/-! DEFINITION. The terms claims are stated in: the invariant of the machine, how a run ends, what an
instruction reads and writes by its syntax, and what a step leaves as it was. -/

namespace Sys2Proof

/-! ## Instructions by what they touch -/

/-- The operand byte whose low nibble the decoder ignores (R125, R133, R135). -/
def Instr.ignoredNibble : Instr → Option Nat
  | .inc _ | .dec _ | .neg _ | .not _ | .stop _ | .text _ | .attr _ => some 1
  | .setoam _ | .bank _ | .outR _ | .outS _ => some 1
  | .draw .. => some 2
  | _ => none

/-- The length of an instruction by the table of R142, from its first byte and, for 0xFE, its second. -/
def lengthByTable (first second : Byte) : Nat :=
  let n := first.toNat
  let m := second.toNat
  if n ≤ 0x04 then 1
  else if 0x08 ≤ n ∧ n ≤ 0x0F then 3
  else if 0x10 ≤ n ∧ n ≤ 0x1F then 2
  else if 0x20 ≤ n ∧ n ≤ 0x7F then 3
  else if 0x80 ≤ n ∧ n ≤ 0x9F then 1
  else if 0xA0 ≤ n ∧ n ≤ 0xAF then 3
  else if 0xB0 ≤ n ∧ n ≤ 0xBF then 2
  else if n = 0xF0 then 3
  else if 0xF1 ≤ n ∧ n ≤ 0xFD then 2
  else if n = 0xFE ∧ (m = 0x03 ∨ m = 0x04) then 2
  else if n = 0xFE ∧ (m = 0x1B ∨ m = 0xF7) then 3
  else if n = 0xFE ∧ 0x30 ≤ m ∧ m ≤ 0x7F then 4
  else 1

/-- A first byte that R145 lists as unassigned. -/
def Unassigned (op : Byte) : Prop :=
  op = 0x05 ∨ op = 0x06 ∨ op = 0x07 ∨ (0xC0 ≤ op.toNat ∧ op.toNat ≤ 0xEF) ∨ op = 0xFF

/-- A byte after 0xFE that R141 lists. -/
def AltAssigned (op2 : Byte) : Prop :=
  op2 = 0x03 ∨ op2 = 0x04 ∨ op2 = 0x1B ∨ (0x30 ≤ op2.toNat ∧ op2.toNat ≤ 0x7F) ∨ op2 = 0xF7

/-- The register an instruction may write (R260 and each instruction's rule). -/
def Instr.dest : Instr → Option Reg
  | .add a _ | .sub a _ | .div a _ | .mod a _ | .and a _ | .or a _ | .xor a _ | .shl a _ | .shr a _ => some a
  | .ldp a _ | .inc a | .dec a | .neg a | .not a | .input a _ | .col a _ | .altLdp a _ => some a
  | .ldi r _ | .ldm r _ | .iadd r _ | .isub r _ | .rnd r | .altLdm r _ => some r
  | _ => none

/-- The instructions that write the flags with the default `ADC_WRITEBACK` (R29). -/
def Instr.writesFlags : Instr → Bool
  | .add .. | .sub .. | .cmp .. | .div .. | .mod .. | .and .. | .or .. | .xor .. | .shl .. | .shr .. => true
  | .inc _ | .dec _ | .neg _ | .not _ | .iadd .. | .isub .. | .icmp .. => true
  | .altIadd .. | .altIsub .. | .altIcmp .. => true
  | _ => false

/-- The instructions that read the flags (R29, R231). -/
def Instr.readsFlags : Instr → Bool
  | .jeq _ | .jne _ | .jgt _ | .jlt _ | .jge _ | .jle _ => true
  | _ => false

/-- The instructions that write through the bus (R453). -/
def Instr.storesOverBus : Instr → Bool
  | .stm .. | .altStm .. | .altIadd .. | .altIsub .. => true
  | _ => false

/-- The instructions that can change something behind the bus: by a store, by an internal write, by BANK,
or by the fault they can raise (R91, R282, R450). -/
def Instr.touchesBus : Instr → Bool
  | .stm .. | .altStm .. | .altIadd .. | .altIsub .. => true
  | .play .. | .stop _ | .mute | .altMute | .instr .. | .swc .. | .bank _ => true
  | .ret | .setoam _ => true
  | _ => false

namespace Machine

/-! ## The invariant -/

/-- One channel's state as R51 bounds it, with volume 0 in Idle (R355). -/
structure Channel.Ok (ch : Channel) : Prop where
  phase : 0 ≤ ch.phase ∧ ch.phase < 1
  volume : 0 ≤ ch.volume ∧ ch.volume ≤ 1
  idle : ch.stage = .idle → ch.volume = 0
  noise : -1 ≤ ch.noiseValue ∧ ch.noiseValue ≤ 1

/-- The stores in canonical form, a selected bank that exists (R37), and R87. -/
structure Bus.Ok (b : Bus) : Prop where
  ram : b.ram.wf .ram = true
  bios : b.bios.wf .bios = true
  banks : ∀ m ∈ b.banks, Memory.wf .bank m = true
  header : b.cartHeader.wf .header = true
  selection : b.banks = [] ∨ b.selectedBank < b.banks.length
  powerOn : b.powerOn = true → b.bootMode = true

/-- The picture unit's stores in canonical form and its values in their ranges (R46, R49, R50). -/
structure Ppu.Ok (p : Ppu) : Prop where
  oam : p.oam.wf .oam = true
  tag : p.oamTag.wf .tag = true
  text : p.textGrid.wf .text = true
  pixbuf : p.pixbuf.wf .pixbuf = true
  frame : p.frame.wf .frame = true
  cursor : p.oamCursor < 512
  camX : p.camX ≤ 65280
  camY : p.camY ≤ 65280
  colours : ∀ a, (p.pixbuf.read .pixbuf a).toNat < 32

/-- The audio unit's state (R51 to R53), with fewer samples gathered than a tick takes (R350). -/
structure Audio.Ok (a : Audio) : Prop where
  channels : ∀ c : Fin 8, (a.channels.get c).Ok
  delay : a.seqDelay ≤ 255
  samples : 0 ≤ a.seqSamples ∧ a.seqSamples < 1024

/-- The invariant every step keeps. -/
structure State.Inv (s : State) : Prop where
  bus : s.bus.Ok
  ppu : s.ppu.Ok
  audio : s.audio.Ok
  /-- The CPU is halted exactly when the model holds a cause (R31, R146). -/
  halt : s.cpu.run = .halted ↔ s.cpu.haltCause ≠ .notHalted
  /-- At most `CYCLE_BUDGET` instructions run in a frame step (R413). -/
  budget : s.env.frameCount ≤ 16000

/-! ## How a run ends -/

/-- The program ended itself (R235). -/
def State.EndedNormally (s : State) : Prop :=
  s.cpu.run = .halted ∧ s.cpu.haltCause = .haltInstruction

/-- The CPU met an unassigned opcode: no claim of normal termination may rest on it (R146, R452). -/
def State.EndedUnknown (s : State) : Prop :=
  s.cpu.run = .halted ∧ s.cpu.haltCause = .unknownOpcode

/-- The CPU was halted by a fault (R460). -/
def State.EndedByFault (s : State) (kind : FaultKind) : Prop :=
  s.cpu.run = .halted ∧ s.cpu.haltCause = .fault kind

/-! ## Whose move it is -/

/-- The frame agent moves next, and its move leaves the schedule `later`: none is scheduled, or a host
operation still to come moves one step nearer (R100; log entry 1). -/
def State.FrameAgentMoves (s : State) (later : List (Nat × HostOp)) : Prop :=
  (s.env.schedule = [] ∧ later = []) ∨
    ∃ n op rest, s.env.schedule = (n + 1, op) :: rest ∧ later = (n, op) :: rest

/-! ## Flags as exact arithmetic says them -/

/-- The flags of the sum of two words and a carry in, over the integers (R180, R185, R199). -/
structure SumFlags (a b : Word) (cin : Nat) (f : Flags) : Prop where
  c : f.c = true ↔ 65535 < a.toNat + b.toNat + cin
  z : f.z = true ↔ (a.toNat + b.toNat + cin) % 65536 = 0
  v : f.v = true ↔ ¬ (-32768 ≤ a.toInt + b.toInt + cin ∧ a.toInt + b.toInt + cin ≤ 32767)
  n : f.n = true ↔ 32768 ≤ (a.toNat + b.toNat + cin) % 65536

/-- The flags of the difference of two words, over the integers (R181, R199). -/
structure DiffFlags (a b : Word) (f : Flags) : Prop where
  c : f.c = true ↔ a.toNat < b.toNat
  z : f.z = true ↔ a = b
  v : f.v = true ↔ ¬ (-32768 ≤ a.toInt - b.toInt ∧ a.toInt - b.toInt ≤ 32767)
  n : f.n = true ↔ 32768 ≤ (a.toNat + 65536 - b.toNat) % 65536

/-- The word of two bytes, the low one first (R88). -/
def wordOf (lo hi : Byte) : Word := BitVec.ofNat 16 (lo.toNat + 256 * hi.toNat)

/-! ## Sprites as R45 and R276 lay them out -/

/-- Byte k of entry i of the sprite table. -/
def entryByte (s : State) (i k : Nat) : Byte := s.ppu.oam.read .oam (7 * i + k)

/-- An entry whose seven bytes are all 0xFF is empty. -/
def EntryEmpty (s : State) (i : Nat) : Prop := ∀ k, k < 7 → entryByte s i k = 0xFF

/-- The x coordinate of an entry. -/
def entryX (s : State) (i : Nat) : Nat := (entryByte s i 0).toNat + 256 * (entryByte s i 1).toNat

/-- The y coordinate of an entry. -/
def entryY (s : State) (i : Nat) : Nat := (entryByte s i 2).toNat + 256 * (entryByte s i 3).toNat

/-- Entry t is one COL finds for sprite number i: both populated, t another entry with neither the HUD nor
the background flag, and the 8 by 8 boxes overlapping (R276). -/
structure Collision (s : State) (i t : Nat) : Prop where
  inRange : i < 512 ∧ t < 512
  other : t ≠ i
  populated : ¬ EntryEmpty s i ∧ ¬ EntryEmpty s t
  unflagged : (entryByte s t 6).toNat % 4 = 0
  columns : entryX s i < entryX s t + 8 ∧ entryX s t < entryX s i + 8
  rows : entryY s i < entryY s t + 8 ∧ entryY s t < entryY s i + 8

/-! ## Pixels of sprites as R312 to R315 lay them out -/

/-- The 4-bit value of a tile at a row and a column of it, read over the bus: tile 0 ends at 0xDFFF, each
next one lies 32 bytes lower, four bytes a row, the high nibble the left pixel (R310, R315). -/
def tileNibble (s : State) (tile row col : Nat) : Nat :=
  let b := (busRead8 s (BitVec.ofNat 16 (0xDFE0 - 32 * tile + 4 * row + col / 2))).toNat
  if col % 2 = 0 then b / 16 else b % 16

/-- An entry with its HUD flag set (R45). -/
def EntryHud (s : State) (i : Nat) : Prop := (entryByte s i 6).toNat % 2 = 1

/-- Entry i draws the colour value v at pixel (x, y): populated, and if HUD in range (R312, R313); the pixel
is its row r and column c from its top left, which the camera moves unless it is HUD; its tile has a value
that is not 0 there, counted from the other side where the attribute flips, and 16 more for the alternate
palette (R314). -/
structure SpriteShows (s : State) (i x y v : Nat) : Prop where
  inTable : i < 512
  populated : ¬ EntryEmpty s i
  inRange : EntryHud s i → entryX s i ≤ 255 ∧ entryY s i ≤ 255
  pixel : ∃ r c p attr : Nat, r < 8 ∧ c < 8 ∧ attr = (entryByte s i 5).toNat ∧
    (EntryHud s i → x = entryX s i + c ∧ y = entryY s i + r) ∧
    (¬ EntryHud s i → x + s.ppu.camX = entryX s i + c ∧ y + s.ppu.camY = entryY s i + r) ∧
    p = tileNibble s (entryByte s i 4).toNat (if attr / 2 % 2 = 1 then 7 - r else r)
      (if attr % 2 = 1 then 7 - c else c) ∧
    p ≠ 0 ∧ v = if attr / 4 % 2 = 1 then p + 16 else p

/-- Entry i is composited in front of entry j: HUD entries over the others, and higher slots over lower
(R312). -/
def InFront (s : State) (i j : Nat) : Prop :=
  (EntryHud s i ∧ ¬ EntryHud s j) ∨ ((EntryHud s i ↔ EntryHud s j) ∧ j < i)

/-! ## Writes the bus turns away or answers with the handoff -/

/-- A write the bus rejects (R85). -/
def State.Protected (s : State) (a : Word) : Prop := s.bus.bootMode = false ∧ 0xF800 ≤ a.toNat

/-- A write that hands off (R416). -/
def State.Triggers (s : State) (a : Word) (b : Byte) : Prop :=
  s.bus.bootMode = true ∧ a = 0xFFE8 ∧ b = 0xA5

/-- A write the bus carries out and nothing more (R84). -/
def State.Accepts (s : State) (a : Word) (b : Byte) : Prop := ¬ s.Protected a ∧ ¬ s.Triggers a b

/-- The boot handoff came between s and t. -/
def HandedOff (s t : State) : Prop := s.bus.bootMode = true ∧ t.bus.bootMode = false

/-- s with another picture in the pixel buffer and the exported frame. -/
def State.withPicture (s : State) (pixbuf frame : Memory) : State :=
  { s with ppu := { s.ppu with pixbuf := pixbuf, frame := frame } }

/-! ## What a step leaves as it was -/

/-- Every store, device, counter and output is as it was, and every byte of memory reads as it did. -/
structure DevicesKept (s t : State) : Prop where
  bus : t.bus = s.bus
  ppu : t.ppu = s.ppu
  audio : t.audio = s.audio
  env : t.env = s.env
  bytes : ∀ a, busRead8 t a = busRead8 s a

/-- The call stack and the run state are as they were. -/
structure ControlKept (s t : State) : Prop where
  stack : t.cpu.stack = s.cpu.stack
  run : t.cpu.run = s.cpu.run
  awaiting : t.cpu.awaitingVblank = s.cpu.awaitingVblank
  cause : t.cpu.haltCause = s.cpu.haltCause

/-- t is s after an instruction of length len that wrote v to register r, f to the flags, and nothing
else. -/
structure Computed (len : Nat) (r : Reg) (v : Word) (f : Flags) (s t : State) : Prop where
  result : t.reg r = v
  others : ∀ q, q ≠ r → t.reg q = s.reg q
  flags : t.cpu.flags = f
  pc : t.cpu.pc = s.cpu.pc + BitVec.ofNat 16 len
  control : ControlKept s t
  devices : DevicesKept s t

/-- t is s after an instruction of length len that wrote f to the flags and nothing else. -/
structure Compared (len : Nat) (f : Flags) (s t : State) : Prop where
  regs : ∀ q, t.reg q = s.reg q
  flags : t.cpu.flags = f
  pc : t.cpu.pc = s.cpu.pc + BitVec.ofNat 16 len
  control : ControlKept s t
  devices : DevicesKept s t

/-- t is s with pc at a, perhaps another call stack, and nothing else changed. -/
structure Transferred (a : Word) (stack : List Word) (s t : State) : Prop where
  pc : t.cpu.pc = a
  stack : t.cpu.stack = stack
  regs : ∀ q, t.reg q = s.reg q
  flags : t.cpu.flags = s.cpu.flags
  run : t.cpu.run = s.cpu.run
  awaiting : t.cpu.awaitingVblank = s.cpu.awaitingVblank
  cause : t.cpu.haltCause = s.cpu.haltCause
  devices : DevicesKept s t

/-- The CPU advanced by an instruction of length len; no register, no flag and nothing else of it
changed. -/
structure CpuAdvanced (len : Nat) (s t : State) : Prop where
  regs : ∀ q, t.reg q = s.reg q
  flags : t.cpu.flags = s.cpu.flags
  pc : t.cpu.pc = s.cpu.pc + BitVec.ofNat 16 len
  control : ControlKept s t

/-- Every store and its selection is as it was, and every byte of memory reads as it did. -/
structure MemoryKept (s t : State) : Prop where
  bus : t.bus = s.bus
  bytes : ∀ a, busRead8 t a = busRead8 s a

/-- Outside the addresses of p, where internal writes landed (R91), every byte of `ram` and every byte the
bus reads is as it was, and so is everything else behind the bus. -/
structure RamKeptBut (p : Nat → Prop) (s t : State) : Prop where
  ram : ∀ a, ¬ p a → t.ramRead a = s.ramRead a
  bytes : ∀ a : Word, ¬ p a.toNat → busRead8 t a = busRead8 s a
  rest : t.bus = { s.bus with ram := t.bus.ram }

/-- The byte in the store where a bus write to the address lands: the selected bank or `ram` (R84). -/
def storedByte (s : State) (a : Word) : Byte :=
  if s.banked a then s.bank.read .bank (a.toNat - 0x8000) else s.ramRead a.toNat

/-- The bytes of l, and no other, were stored over the bus: where each address's writes land (R84), and
as the bus reads them back, which it does not below the boot overlay (R81). -/
structure StoredBytes (l : List (Word × Byte)) (s t : State) : Prop where
  written : ∀ p ∈ l, storedByte t p.1 = p.2
  kept : ∀ a, (∀ p ∈ l, p.1 ≠ a) → storedByte t a = storedByte s a
  readBack : ∀ p ∈ l, busRead8 t p.1 =
    if s.bus.bootMode = true ∧ p.1.toNat ≤ 0xDFFF then busRead8 s p.1 else p.2
  bytes : ∀ a, (∀ p ∈ l, p.1 ≠ a) → busRead8 t a = busRead8 s a
  /-- `ram` under a bank keeps its bytes (R82). -/
  underBank : ∀ a : Word, s.banked a = true → t.ramRead a.toNat = s.ramRead a.toNat
  /-- In boot mode the bytes land in `ram`, also at window addresses, and every bank stays (R84, R86). -/
  boot : s.bus.bootMode = true → t.bus.banks = s.bus.banks ∧ ∀ p ∈ l, t.ramRead p.1.toNat = p.2
  otherBanks : ∀ j, j ≠ s.bus.selectedBank → t.bus.banks.getD j [] = s.bus.banks.getD j []
  bankCount : t.bus.banks.length = s.bus.banks.length
  rest : t.bus = { s.bus with ram := t.bus.ram, banks := t.bus.banks }

/-- The devices and outputs are as they were. -/
structure UnitsKept (s t : State) : Prop where
  ppu : t.ppu = s.ppu
  audio : t.audio = s.audio
  env : t.env = s.env

/-- The audio unit's registers and the instrument table as `ResetApu` leaves them (R362, R411); the
table's values are the model's choice (log entry 10). -/
structure ApuReset (t : State) : Prop where
  channels : ∀ c : Fin 8, t.audio.channels.get c = Channel.reset
  freq : ∀ c, c < 8 → t.ramRead (0xF7A0 + 4 * c) = 0x00 ∧ t.ramRead (0xF7A0 + 4 * c + 1) = 0x00
  volume : ∀ c, c < 8 → t.ramRead (0xF7A0 + 4 * c + 2) = 0xFF
  control : ∀ c, c < 8 → t.ramRead (0xF7A0 + 4 * c + 3) = 0x00
  instruments : ∀ k j, k < 16 → j < 4 →
    t.ramRead (0xF7C0 + 4 * k + j) = instrumentBlank k j

/-- The sprite table and its cursor as `ResetOam` leaves them (R411). -/
structure OamReset (t : State) : Prop where
  bytes : ∀ a, t.ppu.oam.read .oam a = 0xFF
  tags : ∀ a, t.ppu.oamTag.read .tag a = 0x00
  cursor : t.ppu.oamCursor = 0

/-- t is what the fault handler makes of s, the state at the point of the fault (R460). -/
structure FaultTaken (kind : FaultKind) (code : Byte) (s t : State) : Prop where
  halted : t.EndedByFault kind
  /-- Registers, pc, flags, call stack and `awaiting_vblank` stay. -/
  cpu : t.cpu = { s.cpu with run := .halted, haltCause := .fault kind }
  bootMode : t.bus.bootMode = true
  error : t.ramRead 0xFFEA = code
  low : ∀ a, a ≤ 0xDFFF → t.ramRead a = 0x00
  apu : ApuReset t
  oam : OamReset t
  sequencer : t.audio.seqCursor = 0 ∧ t.audio.seqDelay = 0 ∧ t.audio.seqEnabled = false
  seqSamples : t.audio.seqSamples = s.audio.seqSamples
  /-- Work RAM, the BIOS-call region, the other system flag bytes and the palette stay. -/
  kept : ∀ a, 0xDFFF < a → ¬ (0xF7A0 ≤ a ∧ a ≤ 0xF7FF) → a ≠ 0xFFEA → t.ramRead a = s.ramRead a
  bus : t.bus = { s.bus with ram := t.bus.ram, bootMode := true }
  ppu : t.ppu = { s.ppu with oam := t.ppu.oam, oamTag := t.ppu.oamTag, oamCursor := t.ppu.oamCursor }
  /-- One debug event, with the address of the faulting instruction. -/
  env : t.env = { s.env with debugLog := s.env.debugLog ++ [.fault kind s.cpu.pc] }

/-- t is what the boot handoff makes of s, the state after the byte was stored (R416). -/
structure HandoffTaken (s t : State) : Prop where
  regs : ∀ r, t.reg r = 0
  pc : t.cpu.pc = 0x0000
  flags : t.cpu.flags = ⟨false, false, false, false⟩
  stack : t.cpu.stack = []
  run : t.cpu.run = .running ∧ t.cpu.awaitingVblank = false ∧ t.cpu.haltCause = .notHalted
  mode : t.bus.bootMode = false ∧ t.bus.powerOn = false
  palette : ∀ i, i < 16 → t.ramRead (0xFFF0 + i) =
    if s.bus.cartHeader.read .header (48 + i) = 0xFF then BitVec.ofNat 8 i
    else s.bus.cartHeader.read .header (48 + i)
  apu : ApuReset t
  oam : OamReset t
  text : ∀ a, t.ppu.textGrid.read .text a = 0xFF
  fontColour : t.ppu.fontColor = 1
  sequencer : t.audio.seqCursor = 0 ∧ t.audio.seqDelay = 0 ∧ t.audio.seqEnabled = false
  seqSamples : t.audio.seqSamples = s.audio.seqSamples
  /-- Low memory, work RAM, the BIOS-call region and the system flag bytes stay. -/
  kept : ∀ a, a < 0xFFF0 → ¬ (0xF7A0 ≤ a ∧ a ≤ 0xF7FF) → t.ramRead a = s.ramRead a
  bus : t.bus = { s.bus with ram := t.bus.ram, bootMode := false, powerOn := false }
  ppu : t.ppu = { s.ppu with
    oam := t.ppu.oam, oamTag := t.ppu.oamTag, oamCursor := 0, textGrid := t.ppu.textGrid, fontColor := 1 }
  env : t.env = s.env

end Machine

end Sys2Proof
end

