-- ==== Sys2Proof/Certificates/Slice0/Obligations.lean ====
section
/-! DEFINITION. The statements for the provers. A statement about every state that would fail only in
states no run reaches has the part of the invariant it needs as a premise; `StepKeepsInvariant` and
`ResetHasInvariant` say that every reachable state meets it. Where a rule a statement cites is itself
marked as a decision of the spec (D<n> of 92_eei_decisions.md), the statement follows the rule as the spec
numbers it and has basis 'derived'. -/

section

open Sys2Proof Sys2Proof.Machine

/-! ## Encoding (30_encoding.md) -/

/-- R120 to R135, R140, R141: decoding the bytes of any instruction, whatever follows them, gives back that
instruction with every operand, and the bytes that follow. -/
def Obligations.DecodeOfEncode : Prop :=
  ∀ (i : Instr) (rest : List Byte), decode (encode i ++ rest) = .ok (i, rest)

/-- R120, R121, R135: bytes that decode are as long as the instruction, decode alone to it, and are its
encoding but for the nibble the format ignores. -/
def Obligations.DecodedBytesAreTheEncoding : Prop :=
  ∀ (bytes rest : List Byte) (i : Instr), decode bytes = .ok (i, rest) →
    ∃ head, bytes = head ++ rest ∧ head.length = i.length ∧ (encode i).length = i.length ∧
      decode head = .ok (i, []) ∧
      ∀ k, k < i.length → head.getD k 0 = (encode i).getD k 0 ∨
        (i.ignoredNibble = some k ∧ (head.getD k 0).toNat / 16 = ((encode i).getD k 0).toNat / 16)

/-- R142, R145: the decoder refuses exactly the unassigned first bytes and the unassigned bytes after 0xFE,
each by its own name, and gives all other fetched bytes an instruction, whose length the first byte, and
for 0xFE the second, tells; bytes that do not decode count as one. -/
def Obligations.DecoderAcceptsExactlyTheTable : Prop :=
  ∀ (b0 b1 b2 b3 : Byte),
    (decode [b0, b1, b2, b3] = .error (.unassigned b0) ↔ Unassigned b0) ∧
    (decode [b0, b1, b2, b3] = .error (.unassignedAlt b1) ↔ b0 = 0xFE ∧ ¬ AltAssigned b1) ∧
    (¬ Unassigned b0 → ¬ (b0 = 0xFE ∧ ¬ AltAssigned b1) →
      ∃ i rest, decode [b0, b1, b2, b3] = .ok (i, rest) ∧ i.length = lengthByTable b0 b1 ∧
        rest.length + i.length = 4) ∧
    (∀ e, decode [b0, b1, b2, b3] = .error e → lengthByTable b0 b1 = 1)

/-- R162, R164, R132, R133, R127, R125, R126, R232: words written out from the spec's own examples decode to
the instructions they stand for. -/
def Obligations.SpecWordsDecode : Prop :=
  decode [0x31, 0x00, 0xE0] = .ok (.ldm 1 0xE000, []) ∧
  decode [0x40, 0x10, 0xE0] = .ok (.stm 0 0xE010, []) ∧
  decode [0xB2, 0x01] = .ok (.instr 2 0 1, []) ∧
  decode [0xA0, 0x12, 0x30] = .ok (.draw 0 1 2 3, []) ∧
  decode [0xF0, 0x01, 0x82] = .ok (.play 0 1 0x82, []) ∧
  decode [0x1C, 0x47] = .ok (.inc 4, []) ∧
  decode [0xFE, 0x51, 0x01, 0x00] = .ok (.altIadd 1 0x0001, []) ∧
  decode [0x0F, 0x00, 0x03] = .ok (.call 0x0300, []) ∧
  decode [0x83] = .ok (.rnd 3, [])

/-! ## The step (R100, R121, R413) -/

/-- R121, R413: where the loop of the frame step goes on and the bytes at pc decode, the step is that
instruction's execution on the state with one more instruction counted; a host operation still to come
moves one step nearer (log entry 1). -/
def Obligations.StepRunsDecodedInstruction : Prop :=
  ∀ (s : State) (i : Instr) (rest : List Byte),
    s.cpu.run = .running → s.cpu.awaitingVblank = false → s.env.frameCount < 16000 →
    decode (fetchBytes s) = .ok (i, rest) →
    (s.env.schedule = [] → step s = exec i s.countInstruction) ∧
    (∀ n op later, s.env.schedule = (n + 1, op) :: later →
      step s = exec i (s.setSchedule ((n, op) :: later)).countInstruction)

/-- R452, R145: an unassigned code is logged with its byte, halts the CPU, moves pc by 1, and but for the
frame step's count changes nothing else; a host operation still to come moves one step nearer (log entry 1),
and the model's own record tells this halt from a HALT (R146, log entry 4). -/
def Obligations.UnknownOpcodeHalts : Prop :=
  ∀ (s : State) (later : List (Nat × HostOp)),
    s.FrameAgentMoves later → s.cpu.run = .running → s.cpu.awaitingVblank = false →
    s.env.frameCount < 16000 →
    ∀ event : DebugEvent,
    (Unassigned (busRead8 s s.cpu.pc) ∧ event = .unknownOpcode s.cpu.pc (busRead8 s s.cpu.pc)) ∨
      (busRead8 s s.cpu.pc = 0xFE ∧ ¬ AltAssigned (busRead8 s (s.cpu.pc + 1)) ∧
        event = .unknownAltOpcode s.cpu.pc (busRead8 s (s.cpu.pc + 1))) →
    step s = .next
      { s with
        cpu := { s.cpu with pc := s.cpu.pc + 1, run := .halted, haltCause := .unknownOpcode }
        env := { s.env with
          frameCount := s.env.frameCount + 1, debugLog := s.env.debugLog ++ [event], schedule := later } }

/-- R458, R476: every instruction executes in every state and either mode: none faults out of the machine,
none is refused. -/
def Obligations.EveryInstructionAnswersNext : Prop :=
  ∀ (i : Instr) (s : State), ∃ t, exec i s = .next t

/-- R37, R46, R49 to R53, R87, R355, R413: every step, of the frame agent, the audio agent or the host,
keeps the invariant. -/
def Obligations.StepKeepsInvariant : Prop :=
  ∀ s t : State, s.Inv → step s = .next t → t.Inv

/-- The state after reset meets the invariant. -/
def Obligations.ResetHasInvariant : Prop := State.reset.Inv

/-- R62, R412, R491: the power-on state, store by store. The instrument table's values are the model's
choice (log entry 10); the zeros of memory are the spec's decision (log entry 13). -/
def Obligations.PowerOnValues : Prop :=
  (∀ r, State.reset.reg r = 0) ∧ State.reset.cpu.pc = 0x0000 ∧
  State.reset.cpu.flags = ⟨false, false, false, false⟩ ∧ State.reset.cpu.stack = [] ∧
  State.reset.cpu.run = .running ∧ State.reset.cpu.awaitingVblank = false ∧
  State.reset.bus.bootMode = true ∧ State.reset.bus.powerOn = true ∧
  State.reset.bus.banks = [] ∧ State.reset.bus.selectedBank = 0 ∧
  (∀ a, a < 0xF7A0 → State.reset.ramRead a = 0x00) ∧ ApuReset State.reset ∧
  (∀ a, 0xF800 ≤ a → a < 0xFFF0 → State.reset.ramRead a = 0x00) ∧
  (∀ i, i < 16 → State.reset.ramRead (0xFFF0 + i) = BitVec.ofNat 8 i) ∧
  (∀ a, State.reset.bus.bios.read .bios a = 0x00) ∧
  (∀ a, State.reset.bus.cartHeader.read .header a = 0xFF) ∧
  OamReset State.reset ∧ (∀ a, State.reset.ppu.textGrid.read .text a = 0xFF) ∧
  State.reset.ppu.cursorX = 0 ∧ State.reset.ppu.cursorY = 0 ∧ State.reset.ppu.fontColor = 1 ∧
  State.reset.ppu.bgColor = 0 ∧ State.reset.ppu.camX = 0 ∧ State.reset.ppu.camY = 0 ∧
  (∀ a, State.reset.ppu.pixbuf.read .pixbuf a = 0x00) ∧
  (∀ a, State.reset.ppu.frame.read .frame a = 0x00) ∧
  State.reset.audio.seqSamples = 0 ∧ State.reset.audio.seqCursor = 0 ∧
  State.reset.audio.seqDelay = 0 ∧ State.reset.audio.seqEnabled = false ∧
  (∀ i : Fin cfg.nControllers, State.reset.env.inputLatch.get i = 0x00)

/-! ## Rules over all instructions -/

/-- R470, R38: the frame agent's moves leave boot mode only by the handoff, which ends in a CPU reset and
clears `power_on`, and leave cartridge mode only by a fault, which leaves the CPU halted and its code in
SYS_ERROR; they never set `power_on`. -/
def Obligations.ModeChangesOnlyByHandoffAndFault : Prop :=
  ∀ s t : State, s.frameAgentNext = true → step s = .next t →
    (s.bus.bootMode = true → t.bus.bootMode = false →
      t.cpu = Cpu.reset ∧ t.bus.powerOn = false ∧ t.ramRead 0xFFE8 = 0xA5) ∧
    (s.bus.bootMode = false → t.bus.bootMode = true →
      ∃ kind, t.EndedByFault kind ∧ t.ramRead 0xFFEA = kind.code) ∧
    (s.bus.powerOn = false → t.bus.powerOn = false)

/-- R85, R44, R41: in cartridge mode no instruction changes a byte from RESERVED_BASE up, but SWC a
palette byte and a fault the error code. -/
def Obligations.ProtectedRegionHolds : Prop :=
  ∀ (i : Instr) (s t : State), s.bus.bootMode = false → exec i s = .next t →
    ∀ a, 0xF800 ≤ a → a ≤ 0xFFFF →
      t.ramRead a = s.ramRead a ∨
      (0xFFF0 ≤ a ∧ ∃ x y, i = .swc x y) ∨
      (a = 0xFFEA ∧ ∃ kind, t.EndedByFault kind ∧ t.bus.bootMode = true)

/-- R36, R37, R39, R55, R91: no instruction writes the BIOS store, the header latch or the number of
banks; only BANK changes the selection and only a bus store a bank; and an instruction that neither
stores, nor writes internally, nor selects a bank, nor can fault leaves every byte of memory. -/
def Obligations.MemoryWrittenOnlyByWriters : Prop :=
  ∀ (i : Instr) (s t : State), exec i s = .next t →
    t.bus.bios = s.bus.bios ∧ t.bus.cartHeader = s.bus.cartHeader ∧
    t.bus.banks.length = s.bus.banks.length ∧
    ((∀ a, i ≠ .bank a) → t.bus.selectedBank = s.bus.selectedBank) ∧
    (i.storesOverBus = false → t.bus.banks = s.bus.banks) ∧
    (i.touchesBus = false → t.bus = s.bus ∧ ∀ a, busRead8 t a = busRead8 s a)

/-- R29, R30, R31, R32, R260: over all instructions, unless the boot handoff came between: a register that
is not the destination keeps its value, the flags change only for the instructions R29 names, the stack
only by CALL and RET, `awaiting_vblank` only by VBLNK, and the run state only by HALT and a fault. -/
def Obligations.CpuStateWrittenOnlyByWriters : Prop :=
  ∀ (i : Instr) (s t : State), exec i s = .next t → ¬ HandedOff s t →
    (∀ r, i.dest ≠ some r → t.reg r = s.reg r) ∧
    (i.writesFlags = false → t.cpu.flags = s.cpu.flags) ∧
    ((∀ a, i ≠ .call a) → i ≠ .ret → t.cpu.stack = s.cpu.stack) ∧
    (i ≠ .vblnk → t.cpu.awaitingVblank = s.cpu.awaitingVblank) ∧
    (i ≠ .halt →
      (t.cpu.run = s.cpu.run ∧ t.cpu.haltCause = s.cpu.haltCause) ∨ ∃ kind, t.EndedByFault kind)

/-- R29, R510: with the default parameters only the conditional jumps read the flags: two states that
differ in the flags alone are still alike, flags apart, after any other instruction. -/
def Obligations.FlagsReadOnlyByJumps : Prop :=
  ∀ (i : Instr) (s t : State) (f : Flags), i.readsFlags = false → exec i s = .next t →
    ∃ t', exec i (s.setFlags f) = .next t' ∧ ∀ g, t'.setFlags g = t.setFlags g

/-- R300, R327: nothing reads the pixel buffer or the frame: two states that differ in them alone stay
alike but for them through any step, and a VBlank pass makes them equal. -/
def Obligations.PictureIsNeverRead : Prop :=
  ∀ (s t : State) (pixbuf frame : Memory), step s = .next t →
    ∃ t', step (s.withPicture pixbuf frame) = .next t' ∧
      (∃ pixbuf' frame', t' = t.withPicture pixbuf' frame') ∧
      (s.frameAgentNext = true → s.runsInstruction = false → t' = t)

/-! ## The frame step (R413, R414, R475) -/

/-- R413, R414, R300, R475: a CPU that is halted, that awaits VBlank or that has used its budget runs no
instruction: the step polls both controllers (free bytes, log entry 7), runs the VBlank pass, hands the
frame over and clears `awaiting_vblank`; everything else stays, the next frame step counts from 0, and a host
operation still to come moves one step nearer (log entry 1). -/
def Obligations.FrameStepTail : Prop :=
  ∀ (s : State) (later : List (Nat × HostOp)), s.FrameAgentMoves later →
    (s.cpu.run = .halted ∨ s.cpu.awaitingVblank = true ∨ 16000 ≤ s.env.frameCount) →
    ∃ t, step s = .next t ∧
      t.cpu = { s.cpu with awaitingVblank := false } ∧ t.bus = s.bus ∧ t.audio = s.audio ∧
      t.ppu = s.vblankPass.ppu ∧
      t.ppu = { s.ppu with pixbuf := t.ppu.pixbuf, frame := t.ppu.frame } ∧
      t.env = { s.env with
        inputLatch := t.env.inputLatch
        pollIndex := s.env.pollIndex + 1
        frameCount := 0
        framesShown := s.env.framesShown + 1
        schedule := later } ∧
      (∀ i : Fin cfg.nControllers, t.env.inputLatch.get i = Config.controllerByte s.env.pollIndex i.val) ∧
      (∀ a, busRead8 t a = busRead8 s a)

/-- R413, R521: whatever the program does, a frame step ends: with no host operation scheduled, one more
frame is shown after at most 16000 instructions and the tail. -/
def Obligations.FrameStepTerminates : Prop :=
  ∀ s : State, s.env.schedule = [] →
    ∃ n t, n ≤ 16001 ∧ Sys2Proof.core.run n s = .next t ∧
      t.env.framesShown = s.env.framesShown + 1 ∧ t.env.frameCount = 0 ∧
      t.cpu.awaitingVblank = false

/-! ## Data movement (40_data_movement.md) -/

/-- R161 to R163, R165, R166, R88: LDI loads its literal; LDM and LDP load the word whose low byte the bus
reads at the address and whose high byte it reads one above, the address wrapping; ALT LDM and ALT LDP
load one byte, widened with zeros; flags and all else stay. -/
def Obligations.Loads : Prop :=
  ∀ (s : State) (r b : Reg) (w : Word),
    (∃ t, exec (.ldi r w) s = .next t ∧ Computed 3 r w s.cpu.flags s t) ∧
    (∃ t, exec (.ldm r w) s = .next t ∧
      Computed 3 r (wordOf (busRead8 s w) (busRead8 s (w + 1))) s.cpu.flags s t) ∧
    (∃ t, exec (.ldp r b) s = .next t ∧
      Computed 2 r (wordOf (busRead8 s (s.reg b)) (busRead8 s (s.reg b + 1))) s.cpu.flags s t) ∧
    (∃ t, exec (.altLdm r w) s = .next t ∧
      Computed 4 r (BitVec.ofNat 16 (busRead8 s w).toNat) s.cpu.flags s t) ∧
    (∃ t, exec (.altLdp r b) s = .next t ∧
      Computed 3 r (BitVec.ofNat 16 (busRead8 s (s.reg b)).toNat) s.cpu.flags s t)

/-- R164, R167, R84, R89: where the bus accepts the bytes, STM stores the register's two bytes at its
literal address and the one above, low byte first, and ALT STM its low byte; nothing else changes. -/
def Obligations.AcceptedStores : Prop :=
  ∀ (s : State) (r : Reg) (a : Word),
    (s.bus.banks = [] ∨ s.bus.selectedBank < s.bus.banks.length) →
    (s.Accepts a (loByte (s.reg r)) →
      ∃ t, exec (.altStm r a) s = .next t ∧ CpuAdvanced 4 s t ∧ UnitsKept s t ∧
        StoredBytes [(a, BitVec.ofNat 8 (s.reg r).toNat)] s t) ∧
    (s.Accepts a (loByte (s.reg r)) → s.Accepts (a + 1) (hiByte (s.reg r)) →
      ∃ t, exec (.stm r a) s = .next t ∧ CpuAdvanced 3 s t ∧ UnitsKept s t ∧
        StoredBytes [(a, BitVec.ofNat 8 (s.reg r).toNat),
          (a + 1, BitVec.ofNat 8 ((s.reg r).toNat / 256))] s t)

/-- R193, R194: ALT IADD and ALT ISUB add or subtract the literal to the word the register points at,
write the flags, and store the result where the bus accepts it; the register stays. -/
def Obligations.PointerArithmetic : Prop :=
  ∀ (s : State) (r : Reg) (w v : Word) (p m : Word), p = s.reg r →
    m = wordOf (busRead8 s p) (busRead8 s (p + 1)) →
    (s.bus.banks = [] ∨ s.bus.selectedBank < s.bus.banks.length) →
    s.Accepts p (loByte v) → s.Accepts (p + 1) (hiByte v) →
    (v = BitVec.ofNat 16 (m.toNat + w.toNat) →
      ∃ t, exec (.altIadd r w) s = .next t ∧ (∀ q, t.reg q = s.reg q) ∧
        SumFlags m w 0 t.cpu.flags ∧ t.cpu.pc = s.cpu.pc + 4 ∧ ControlKept s t ∧ UnitsKept s t ∧
        StoredBytes [(p, BitVec.ofNat 8 v.toNat), (p + 1, BitVec.ofNat 8 (v.toNat / 256))] s t) ∧
    (v = BitVec.ofNat 16 (m.toNat + 65536 - w.toNat) →
      ∃ t, exec (.altIsub r w) s = .next t ∧ (∀ q, t.reg q = s.reg q) ∧
        DiffFlags m w t.cpu.flags ∧ t.cpu.pc = s.cpu.pc + 4 ∧ ControlKept s t ∧ UnitsKept s t ∧
        StoredBytes [(p, BitVec.ofNat 8 v.toNat), (p + 1, BitVec.ofNat 8 (v.toNat / 256))] s t)

/-- R453, R460, R463, R89, R513: in cartridge mode a store to a protected address takes the ReservedWrite
fault with the byte unwritten and pc at the instruction; ALT IADD and ALT ISUB have written their flags;
a word store, also of ALT IADD and ALT ISUB, whose low byte is the last unprotected address writes that byte
before it faults. The record of the halt's cause and the instrument table's values are the model's choice (log entries 4 and 10). -/
def Obligations.ProtectedStoresFault : Prop :=
  ∀ (s : State) (r : Reg) (a w : Word), s.bus.bootMode = false → s.bus.powerOn = false →
    (0xF800 ≤ a.toNat →
      (∃ t, exec (.stm r a) s = .next t ∧ FaultTaken .reservedWrite 0x01 s t) ∧
      (∃ t, exec (.altStm r a) s = .next t ∧ FaultTaken .reservedWrite 0x01 s t)) ∧
    (∃ t, exec (.stm r 0xF7FF) s = .next t ∧
      FaultTaken .reservedWrite 0x01 (s.ramWrite 0xF7FF (loByte (s.reg r))) t) ∧
    (0xF800 ≤ (s.reg r).toNat →
      (∃ t f, exec (.altIadd r w) s = .next t ∧ FaultTaken .reservedWrite 0x01 (s.setFlags f) t ∧
        SumFlags (wordOf (busRead8 s (s.reg r)) (busRead8 s (s.reg r + 1))) w 0 f) ∧
      (∃ t f, exec (.altIsub r w) s = .next t ∧ FaultTaken .reservedWrite 0x01 (s.setFlags f) t ∧
        DiffFlags (wordOf (busRead8 s (s.reg r)) (busRead8 s (s.reg r + 1))) w f)) ∧
    (∀ m, s.reg r = 0xF7FF → m = wordOf (busRead8 s 0xF7FF) (busRead8 s 0xF800) →
      (∃ t f, exec (.altIadd r w) s = .next t ∧ SumFlags m w 0 f ∧
        FaultTaken .reservedWrite 0x01
          ((s.setFlags f).ramWrite 0xF7FF (BitVec.ofNat 8 (m.toNat + w.toNat))) t) ∧
      (∃ t f, exec (.altIsub r w) s = .next t ∧ DiffFlags m w f ∧
        FaultTaken .reservedWrite 0x01
          ((s.setFlags f).ramWrite 0xF7FF (BitVec.ofNat 8 (m.toNat + 65536 - w.toNat))) t))

/-- R416, R463, R193, R194: in boot mode the store of 0xA5 at 0xFFE8 hands off: by ALT STM, by the low byte
of STM or of the write-back of ALT IADD and ALT ISUB (the high byte is then not written), or by the high
byte of one of them. The instrument table's values are the model's
choice (log entry 10). -/
def Obligations.StoringTheMagicHandsOff : Prop :=
  ∀ (s : State) (r : Reg), s.bus.bootMode = true →
    (loByte (s.reg r) = 0xA5 →
      (∃ t, exec (.altStm r 0xFFE8) s = .next t ∧ HandoffTaken (s.ramWrite 0xFFE8 0xA5) t) ∧
      (∃ t, exec (.stm r 0xFFE8) s = .next t ∧ HandoffTaken (s.ramWrite 0xFFE8 0xA5) t)) ∧
    (hiByte (s.reg r) = 0xA5 →
      ∃ t, exec (.stm r 0xFFE7) s = .next t ∧
        HandoffTaken ((s.ramWrite 0xFFE7 (loByte (s.reg r))).ramWrite 0xFFE8 0xA5) t) ∧
    (∀ (i : Instr) (w m v : Word), m = wordOf (busRead8 s (s.reg r)) (busRead8 s (s.reg r + 1)) →
      (i = .altIadd r w ∧ v.toNat = (m.toNat + w.toNat) % 65536) ∨
        (i = .altIsub r w ∧ v.toNat = (m.toNat + 65536 - w.toNat) % 65536) →
      (s.reg r = 0xFFE8 → v.toNat % 256 = 0xA5 →
        ∃ t, exec i s = .next t ∧ HandoffTaken (s.ramWrite 0xFFE8 0xA5) t) ∧
      (s.reg r = 0xFFE7 → v.toNat / 256 = 0xA5 →
        ∃ t, exec i s = .next t ∧
          HandoffTaken ((s.ramWrite 0xFFE7 (BitVec.ofNat 8 v.toNat)).ramWrite 0xFFE8 0xA5) t))

/-! ## Arithmetic (41_arithmetic.md) -/

/-- R180, R183, R187, R190: ADD, INC and IADD leave the sum modulo 65536 in their register, with the flags
of the exact sum. -/
def Obligations.Additions : Prop :=
  ∀ (s : State) (a b : Reg) (w : Word),
    (∃ t f, exec (.add a b) s = .next t ∧ SumFlags (s.reg a) (s.reg b) 0 f ∧
      Computed 2 a (BitVec.ofNat 16 ((s.reg a).toNat + (s.reg b).toNat)) f s t) ∧
    (∃ t f, exec (.iadd a w) s = .next t ∧ SumFlags (s.reg a) w 0 f ∧
      Computed 3 a (BitVec.ofNat 16 ((s.reg a).toNat + w.toNat)) f s t) ∧
    (∃ t f, exec (.inc a) s = .next t ∧ SumFlags (s.reg a) 1 0 f ∧
      Computed 2 a (BitVec.ofNat 16 ((s.reg a).toNat + 1)) f s t)

/-- R181, R184, R188, R189, R191: SUB, ISUB, DEC and NEG leave the difference modulo 65536, with the flags
of the exact difference; carry is borrow. -/
def Obligations.Subtractions : Prop :=
  ∀ (s : State) (a b : Reg) (w : Word),
    (∃ t f, exec (.sub a b) s = .next t ∧ DiffFlags (s.reg a) (s.reg b) f ∧
      Computed 2 a (BitVec.ofNat 16 ((s.reg a).toNat + 65536 - (s.reg b).toNat)) f s t) ∧
    (∃ t f, exec (.isub a w) s = .next t ∧ DiffFlags (s.reg a) w f ∧
      Computed 3 a (BitVec.ofNat 16 ((s.reg a).toNat + 65536 - w.toNat)) f s t) ∧
    (∃ t f, exec (.dec a) s = .next t ∧ DiffFlags (s.reg a) 1 f ∧
      Computed 2 a (BitVec.ofNat 16 ((s.reg a).toNat + 65535)) f s t) ∧
    (∃ t f, exec (.neg a) s = .next t ∧ DiffFlags 0 (s.reg a) f ∧
      Computed 2 a (BitVec.ofNat 16 (65536 - (s.reg a).toNat)) f s t)

/-- R186, R192, R195: CMP, ICMP and ALT ICMP write the flags of the difference and nothing else. -/
def Obligations.Comparisons : Prop :=
  ∀ (s : State) (a b : Reg) (w : Word),
    (∃ t f, exec (.cmp a b) s = .next t ∧ DiffFlags (s.reg a) (s.reg b) f ∧ Compared 2 f s t) ∧
    (∃ t f, exec (.icmp a w) s = .next t ∧ DiffFlags (s.reg a) w f ∧ Compared 3 f s t) ∧
    (∃ t f, exec (.altIcmp a w) s = .next t ∧ Compared 4 f s t ∧
      DiffFlags (wordOf (busRead8 s (s.reg a)) (busRead8 s (s.reg a + 1))) w f)

/-- R185: by default ADC changes nothing but pc; with `ADC_WRITEBACK` it leaves the sum with the carry in
and writes all four flags. -/
def Obligations.AdcBothWays : Prop :=
  ∀ (s : State) (a b : Reg),
    (∃ t, exec (.adc a b) s = .next t ∧ CpuAdvanced 2 s t ∧ DevicesKept s t) ∧
    adcWith false a b s = exec (.adc a b) s ∧
    (∃ t f, adcWith true a b s = .next t ∧
      SumFlags (s.reg a) (s.reg b) (if s.cpu.flags.c then 1 else 0) f ∧
      Computed 2 a
        (BitVec.ofNat 16 ((s.reg a).toNat + (s.reg b).toNat + if s.cpu.flags.c then 1 else 0)) f s t)

/-- R196, R197: for a divisor that is not 0, DIV and MOD leave the unsigned quotient and remainder, with C
and V clear. -/
def Obligations.Divisions : Prop :=
  ∀ (s : State) (a b : Reg), s.reg b ≠ 0 →
    (∃ t q, exec (.div a b) s = .next t ∧ q = (s.reg a).toNat / (s.reg b).toNat ∧
      Computed 2 a (BitVec.ofNat 16 q) ⟨false, decide (q = 0), false, decide (32768 ≤ q)⟩ s t) ∧
    (∃ t m, exec (.mod a b) s = .next t ∧ m = (s.reg a).toNat % (s.reg b).toNat ∧
      Computed 2 a (BitVec.ofNat 16 m) ⟨false, decide (m = 0), false, decide (32768 ≤ m)⟩ s t)

/-- R198: by a divisor of 0, DIV and MOD leave 0 with Z and V set and C and N clear, whatever the dividend;
the CPU runs on past the two bytes and no fault handler runs. -/
def Obligations.DivisionByZero : Prop :=
  ∀ (s : State) (a b : Reg), s.reg b = 0 →
    (∃ t, exec (.div a b) s = .next t ∧ Computed 2 a 0 ⟨false, true, true, false⟩ s t) ∧
    (∃ t, exec (.mod a b) s = .next t ∧ Computed 2 a 0 ⟨false, true, true, false⟩ s t)

/-- R199: ADD then SUB of the same pair gives the register back, and 0 where the pair is one register. -/
def Obligations.AddThenSubRestores : Prop :=
  ∀ (s t u : State) (a b : Reg), exec (.add a b) s = .next t → exec (.sub a b) t = .next u →
    (a ≠ b → u.reg a = s.reg a) ∧ (a = b → u.reg a = 0)

/-! ## Logic and shifts (42_logic_shift.md) -/

/-- R210 to R214: AND, OR, XOR and NOT compute bit by bit, set Z and N, clear V, and keep C by default; with
`LOGIC_KEEPS_CARRY` off the same law clears it. -/
def Obligations.LogicOperations : Prop :=
  ∀ (s : State) (a b : Reg) (v : Word) (f : Flags),
    f = ⟨s.cpu.flags.c, decide (v.toNat = 0), false, decide (32768 ≤ v.toNat)⟩ →
    ((∀ k, k < 16 → v.getLsbD k = ((s.reg a).getLsbD k && (s.reg b).getLsbD k)) →
      ∃ t, exec (.and a b) s = .next t ∧ Computed 2 a v f s t) ∧
    ((∀ k, k < 16 → v.getLsbD k = ((s.reg a).getLsbD k || (s.reg b).getLsbD k)) →
      ∃ t, exec (.or a b) s = .next t ∧ Computed 2 a v f s t) ∧
    ((∀ k, k < 16 → v.getLsbD k = ((s.reg a).getLsbD k ^^ (s.reg b).getLsbD k)) →
      ∃ t, exec (.xor a b) s = .next t ∧ Computed 2 a v f s t) ∧
    ((∀ k, k < 16 → v.getLsbD k = !(s.reg a).getLsbD k) →
      ∃ t, exec (.not a) s = .next t ∧ Computed 2 a v f s t) ∧
    logicFlags false s.cpu.flags v = { f with c := false }

/-- R215, R216: SHL and SHR shift by the whole 16-bit count; C is the last bit shifted out, 0 for a count
of 0 or above 16; Z and N come from the result and V is clear. -/
def Obligations.Shifts : Prop :=
  ∀ (s : State) (a b : Reg) (x n : Nat), x = (s.reg a).toNat → n = (s.reg b).toNat →
    (∃ t, exec (.shl a b) s = .next t ∧
      Computed 2 a (BitVec.ofNat 16 (x * 2 ^ n))
        ⟨decide (x * 2 ^ n / 65536 % 2 = 1), decide (x * 2 ^ n % 65536 = 0), false,
          decide (32768 ≤ x * 2 ^ n % 65536)⟩ s t) ∧
    (∃ t, exec (.shr a b) s = .next t ∧
      Computed 2 a (BitVec.ofNat 16 (x / 2 ^ n))
        ⟨decide (2 * x / 2 ^ n % 2 = 1), decide (x / 2 ^ n = 0), false,
          decide (32768 ≤ x / 2 ^ n)⟩ s t)

/-! ## Control transfer (43_control.md) -/

/-- R230, R231, R238 to R243: JMP goes to its target; each conditional jump goes there exactly when its
condition on the flags holds, and else three bytes on; nothing else changes. -/
def Obligations.Jumps : Prop :=
  ∀ (s : State) (a : Word) (go : Bool → Word), go = (fun taken => if taken then a else s.cpu.pc + 3) →
    (∃ t, exec (.jmp a) s = .next t ∧ Transferred a s.cpu.stack s t) ∧
    (∃ t, exec (.jeq a) s = .next t ∧ Transferred (go s.cpu.flags.z) s.cpu.stack s t) ∧
    (∃ t, exec (.jne a) s = .next t ∧ Transferred (go (!s.cpu.flags.z)) s.cpu.stack s t) ∧
    (∃ t, exec (.jgt a) s = .next t ∧
      Transferred (go (decide (s.cpu.flags.z = false ∧ s.cpu.flags.n = s.cpu.flags.v)))
        s.cpu.stack s t) ∧
    (∃ t, exec (.jlt a) s = .next t ∧
      Transferred (go (decide (s.cpu.flags.n ≠ s.cpu.flags.v))) s.cpu.stack s t) ∧
    (∃ t, exec (.jge a) s = .next t ∧
      Transferred (go (decide (s.cpu.flags.n = s.cpu.flags.v))) s.cpu.stack s t) ∧
    (∃ t, exec (.jle a) s = .next t ∧
      Transferred (go (decide (s.cpu.flags.z = true ∨ s.cpu.flags.n ≠ s.cpu.flags.v)))
        s.cpu.stack s t)

/-- R231, R186, R192: after a comparison each conditional jump is taken exactly when the signed values
compare as its name says, by CMP and by ICMP. -/
def Obligations.JumpsAfterComparison : Prop :=
  ∀ (s t : State) (a b : Reg) (w target : Word) (x y : Word),
    (x = s.reg a ∧ y = s.reg b ∧ exec (.cmp a b) s = .next t) ∨
      (x = s.reg a ∧ y = w ∧ exec (.icmp a w) s = .next t) →
    exec (.jeq target) t = .next (t.setPc (if x = y then target else t.cpu.pc + 3)) ∧
    exec (.jne target) t = .next (t.setPc (if x ≠ y then target else t.cpu.pc + 3)) ∧
    exec (.jgt target) t = .next (t.setPc (if y.toInt < x.toInt then target else t.cpu.pc + 3)) ∧
    exec (.jlt target) t = .next (t.setPc (if x.toInt < y.toInt then target else t.cpu.pc + 3)) ∧
    exec (.jge target) t = .next (t.setPc (if y.toInt ≤ x.toInt then target else t.cpu.pc + 3)) ∧
    exec (.jle target) t = .next (t.setPc (if x.toInt ≤ y.toInt then target else t.cpu.pc + 3))

/-- R30, R232, R234, R455, R461: CALL pushes the address after it and jumps; RET with entries pops and
jumps, so a RET that finds the stack a CALL left comes back after the CALL; RET on an empty stack takes the
StackUnderflow fault with pc at the RET, or, while `power_on` is 1, only advances. The record of the halt's
cause and the instrument table's values are the model's choice (log entries 4 and 10). -/
def Obligations.CallAndReturn : Prop :=
  ∀ (s : State) (a : Word),
    (∃ t, exec (.call a) s = .next t ∧ Transferred a ((s.cpu.pc + 3) :: s.cpu.stack) s t ∧
      ∀ u : State, u.cpu.stack = t.cpu.stack →
        ∃ v, exec .ret u = .next v ∧ Transferred (s.cpu.pc + 3) s.cpu.stack u v) ∧
    (∀ top rest, s.cpu.stack = top :: rest →
      ∃ t, exec .ret s = .next t ∧ Transferred top rest s t) ∧
    (s.cpu.stack = [] → s.bus.powerOn = false →
      ∃ t, exec .ret s = .next t ∧ FaultTaken .stackUnderflow 0x03 s t) ∧
    (s.cpu.stack = [] → s.bus.powerOn = true →
      ∃ t, exec .ret s = .next t ∧ CpuAdvanced 1 s t ∧ DevicesKept s t)

/-- R235, R236: HALT halts the CPU, VBLNK sets `awaiting_vblank`; each advances by 1 and changes nothing
else. That the halt's cause is recorded is the model's own (R146, log entry 4). -/
def Obligations.HaltAndVblnk : Prop :=
  ∀ s : State,
    (∃ t, exec .halt s = .next t ∧ t.EndedNormally ∧ DevicesKept s t ∧
      t.cpu = { s.cpu with pc := s.cpu.pc + 1, run := .halted, haltCause := .haltInstruction }) ∧
    (∃ t, exec .vblnk s = .next t ∧ DevicesKept s t ∧
      t.cpu = { s.cpu with pc := s.cpu.pc + 1, awaitingVblank := true })

/-! ## Device instructions (44_device_ops.md) -/

/-- R262: RND writes the environment's next draw, whatever it is, and the draw is used up. The counter is
the model's own (log entry 5): the value is a free one, and no law holds of it. -/
def Obligations.RandomDraw : Prop :=
  ∀ (s : State) (r : Reg),
    ∃ t, exec (.rnd r) s = .next t ∧ t.reg r = Config.draw16 s.env.drawIndex ∧
      (∀ q, q ≠ r → t.reg q = s.reg q) ∧ t.cpu.flags = s.cpu.flags ∧ t.cpu.pc = s.cpu.pc + 1 ∧
      ControlKept s t ∧ MemoryKept s t ∧ t.ppu = s.ppu ∧ t.audio = s.audio ∧
      t.env = { s.env with drawIndex := s.env.drawIndex + 1 }

/-- R263, R269, R270, R425: SONG sets the sequencer's cursor and starts it; MUTE stops it and clears every
channel's gate and priority; ALT MUTE also makes every channel Idle and silent. -/
def Obligations.SongAndMute : Prop :=
  ∀ (s : State) (r : Reg),
    (∃ t, exec (.song r) s = .next t ∧ CpuAdvanced 1 s t ∧ MemoryKept s t ∧ t.ppu = s.ppu ∧
      t.env = s.env ∧
      t.audio = { s.audio with seqCursor := s.reg r, seqDelay := 0, seqEnabled := true }) ∧
    (∀ quiet : Bool, ∃ t, exec (if quiet then .altMute else .mute) s = .next t ∧
      CpuAdvanced (if quiet then 2 else 1) s t ∧ t.ppu = s.ppu ∧ t.env = s.env ∧
      RamKeptBut (fun a => ∃ c, c < 8 ∧ a = 0xF7A3 + 4 * c) s t ∧
      (∀ c, c < 8 → t.ramRead (0xF7A3 + 4 * c) = s.ramRead (0xF7A3 + 4 * c) &&& 0xF0) ∧
      t.audio = { s.audio with channels := t.audio.channels, seqEnabled := false } ∧
      (∀ c : Fin 8, t.audio.channels.get c =
        if quiet then
          { s.audio.channels.get c with priority := false, stage := .idle, volume := 0, retrig := false }
        else { s.audio.channels.get c with priority := false }))

/-- R267, R418, R361: a PLAY on a channel below 8 that is not held, or with override, sets priority and
retrigger and writes the note's frequency word and the gate with the instrument; on another channel
number, or a held channel without override, it changes nothing but pc. -/
def Obligations.PlayStartsANote : Prop :=
  ∀ (s : State) (a b : Reg) (imm : Byte),
    (∀ c : Fin 8, (s.reg a).toNat = c.val →
      ((s.audio.channels.get c).priority = false ∨ 128 ≤ imm.toNat) →
      ∃ t, exec (.play a b imm) s = .next t ∧ CpuAdvanced 3 s t ∧ t.ppu = s.ppu ∧ t.env = s.env ∧
        RamKeptBut (fun x => x = 0xF7A0 + 4 * c.val ∨ x = 0xF7A1 + 4 * c.val ∨ x = 0xF7A3 + 4 * c.val)
          s t ∧
        wordOf (t.ramRead (0xF7A0 + 4 * c.val)) (t.ramRead (0xF7A1 + 4 * c.val)) =
          noteFreq (BitVec.ofNat 8 (s.reg b).toNat) ∧
        (t.ramRead (0xF7A3 + 4 * c.val)).toNat = 16 * (imm.toNat % 16) + 1 ∧
        t.audio = { s.audio with channels := t.audio.channels } ∧
        t.audio.channels.get c =
          { s.audio.channels.get c with priority := decide (128 ≤ imm.toNat), retrig := true } ∧
        (∀ d, d ≠ c → t.audio.channels.get d = s.audio.channels.get d)) ∧
    ((8 ≤ (s.reg a).toNat ∨
        (imm.toNat < 128 ∧ ∃ c : Fin 8, (s.reg a).toNat = c.val ∧
          (s.audio.channels.get c).priority = true)) →
      ∃ t, exec (.play a b imm) s = .next t ∧ CpuAdvanced 3 s t ∧ DevicesKept s t)

/-- R268, R419: STOP on a channel below 8 clears the low half of its control byte and its priority, and on
another channel number does nothing. -/
def Obligations.StopReleasesAChannel : Prop :=
  ∀ (s : State) (a : Reg),
    (∀ c : Fin 8, (s.reg a).toNat = c.val →
      ∃ t, exec (.stop a) s = .next t ∧ CpuAdvanced 2 s t ∧ t.ppu = s.ppu ∧ t.env = s.env ∧
        RamKeptBut (fun x => x = 0xF7A3 + 4 * c.val) s t ∧
        (t.ramRead (0xF7A3 + 4 * c.val)).toNat = 16 * ((s.ramRead (0xF7A3 + 4 * c.val)).toNat / 16) ∧
        t.audio = { s.audio with channels := t.audio.channels } ∧
        t.audio.channels.get c = { s.audio.channels.get c with priority := false } ∧
        (∀ d, d ≠ c → t.audio.channels.get d = s.audio.channels.get d)) ∧
    (8 ≤ (s.reg a).toNat → ∃ t, exec (.stop a) s = .next t ∧ CpuAdvanced 2 s t ∧ DevicesKept s t)

/-- R275, R428, R271, R424, R91: INSTR below 16 writes the four bytes of its instrument, and from 16 up
nothing; SWC writes one palette byte; both by internal writes, in either mode without a fault. -/
def Obligations.InstrumentAndPaletteWrites : Prop :=
  ∀ (s : State) (r a b : Reg),
    ((s.reg r).toNat < 16 →
      ∃ t, exec (.instr r a b) s = .next t ∧ CpuAdvanced 2 s t ∧ UnitsKept s t ∧
        RamKeptBut (fun x => 0xF7C0 + 4 * (s.reg r).toNat ≤ x ∧ x < 0xF7C0 + 4 * (s.reg r).toNat + 4)
          s t ∧
        t.ramRead (0xF7C0 + 4 * (s.reg r).toNat) = BitVec.ofNat 8 (s.reg a).toNat ∧
        t.ramRead (0xF7C0 + 4 * (s.reg r).toNat + 1) = BitVec.ofNat 8 ((s.reg a).toNat / 256) ∧
        t.ramRead (0xF7C0 + 4 * (s.reg r).toNat + 2) = BitVec.ofNat 8 (s.reg b).toNat ∧
        t.ramRead (0xF7C0 + 4 * (s.reg r).toNat + 3) = BitVec.ofNat 8 ((s.reg b).toNat / 256)) ∧
    (16 ≤ (s.reg r).toNat →
      ∃ t, exec (.instr r a b) s = .next t ∧ CpuAdvanced 2 s t ∧ DevicesKept s t) ∧
    (∃ t, exec (.swc a b) s = .next t ∧ CpuAdvanced 2 s t ∧ UnitsKept s t ∧
      RamKeptBut (fun x => x = 0xFFF0 + (s.reg a).toNat % 16) s t ∧
      t.ramRead (0xFFF0 + (s.reg a).toNat % 16) = BitVec.ofNat 8 (s.reg b).toNat)

/-- R264, R423, R45: DRAW writes the seven bytes of the entry at the cursor, clears its tag, and moves the
cursor on, from the last entry to the first; every other entry and all else stay. -/
def Obligations.DrawWritesAnEntry : Prop :=
  ∀ (s : State) (r y t a : Reg), s.ppu.oamCursor < 512 →
    ∃ u, exec (.draw r y t a) s = .next u ∧ CpuAdvanced 3 s u ∧ MemoryKept s u ∧ u.audio = s.audio ∧
      u.env = s.env ∧
      (∀ i k, i < 512 → k < 7 → i ≠ s.ppu.oamCursor → entryByte u i k = entryByte s i k) ∧
      entryX u s.ppu.oamCursor = (s.reg r).toNat ∧ entryY u s.ppu.oamCursor = (s.reg y).toNat ∧
      (entryByte u s.ppu.oamCursor 4).toNat = (s.reg t).toNat % 256 ∧
      (entryByte u s.ppu.oamCursor 5).toNat = (s.reg a).toNat % 256 ∧
      (entryByte u s.ppu.oamCursor 6).toNat = (s.reg a).toNat / 256 ∧
      (∀ i, u.ppu.oamTag.read .tag i = if i = s.ppu.oamCursor then 0 else s.ppu.oamTag.read .tag i) ∧
      u.ppu.oamCursor = (if s.ppu.oamCursor = 511 then 0 else s.ppu.oamCursor + 1) ∧
      u.ppu = { s.ppu with oam := u.ppu.oam, oamTag := u.ppu.oamTag, oamCursor := u.ppu.oamCursor }

/-- R265, R266, R420: CLS empties the text grid and sets the default background; ALT CLS also resets the
sprite table and its cursor; the text cursor, the colours of text, the camera and the picture stay. -/
def Obligations.ClearScreens : Prop :=
  ∀ (s : State) (alt : Bool),
    ∃ t, exec (if alt then .altCls else .cls) s = .next t ∧
      CpuAdvanced (if alt then 2 else 1) s t ∧ MemoryKept s t ∧ t.audio = s.audio ∧ t.env = s.env ∧
      (∀ a, t.ppu.textGrid.read .text a = 0xFF) ∧ t.ppu.bgColor = 0 ∧
      (if alt then OamReset t
        else t.ppu.oam = s.ppu.oam ∧ t.ppu.oamTag = s.ppu.oamTag ∧ t.ppu.oamCursor = s.ppu.oamCursor) ∧
      t.ppu = { s.ppu with
        oam := t.ppu.oam, oamTag := t.ppu.oamTag, oamCursor := t.ppu.oamCursor
        textGrid := t.ppu.textGrid, bgColor := 0 }

/-- R273, R274, R277, R278, R421, R422: TEXT writes its character at the cursor and moves it one cell on,
row by row and around; SETCRS takes each coordinate modulo 32; ALT SETCRS moves along the 1024 cells by
its signed deltas; ATTR sets the text colour from five bits. -/
def Obligations.TextAndCursor : Prop :=
  ∀ (s : State) (a b : Reg) (place : State → Int),
    place = (fun u => 32 * (u.ppu.cursorY.val : Int) + (u.ppu.cursorX.val : Int)) →
    (∃ t, exec (.text a) s = .next t ∧ CpuAdvanced 2 s t ∧ MemoryKept s t ∧ t.audio = s.audio ∧
      t.env = s.env ∧
      (∀ i : Nat, t.ppu.textGrid.read .text i =
        if (i : Int) = place s then BitVec.ofNat 8 (s.reg a).toNat else s.ppu.textGrid.read .text i) ∧
      place t = (place s + 1).emod 1024 ∧
      t.ppu = { s.ppu with
        textGrid := t.ppu.textGrid, cursorX := t.ppu.cursorX, cursorY := t.ppu.cursorY }) ∧
    (∃ t, exec (.setcrs a b) s = .next t ∧ CpuAdvanced 2 s t ∧ MemoryKept s t ∧ t.audio = s.audio ∧
      t.env = s.env ∧ t.ppu.cursorX.val = (s.reg a).toNat % 32 ∧
      t.ppu.cursorY.val = (s.reg b).toNat % 32 ∧
      t.ppu = { s.ppu with cursorX := t.ppu.cursorX, cursorY := t.ppu.cursorY }) ∧
    (∃ t, exec (.altSetcrs a b) s = .next t ∧ CpuAdvanced 3 s t ∧ MemoryKept s t ∧
      t.audio = s.audio ∧ t.env = s.env ∧
      place t = (place s + (s.reg a).toInt + 32 * (s.reg b).toInt).emod 1024 ∧
      t.ppu = { s.ppu with cursorX := t.ppu.cursorX, cursorY := t.ppu.cursorY }) ∧
    (∃ t, exec (.attr a) s = .next t ∧ CpuAdvanced 2 s t ∧ MemoryKept s t ∧ t.audio = s.audio ∧
      t.env = s.env ∧ t.ppu.fontColor.toNat = (s.reg a).toNat % 32 ∧
      t.ppu = { s.ppu with fontColor := t.ppu.fontColor })

/-- R276, R427: COL gives the lowest entry that collides with the sprite its operand names, or 0xFFFF
where there is none; nothing but the register and pc changes. -/
def Obligations.CollisionCheck : Prop :=
  ∀ (s : State) (a b : Reg),
    ∃ u v, exec (.col a b) s = .next u ∧ Computed 2 a v s.cpu.flags s u ∧
      ((v = 0xFFFF ∧ ∀ t, ¬ Collision s (s.reg b).toNat t) ∨
        (Collision s (s.reg b).toNat v.toNat ∧
          ∀ t, t < v.toNat → ¬ Collision s (s.reg b).toNat t))

/-- R279, R280, R426, R49: CAM sets each camera coordinate to the lesser of its operand and 65280; CAMMV
adds the signed deltas and saturates at 0 and 65280. -/
def Obligations.CameraMoves : Prop :=
  ∀ (s : State) (a b : Reg) (clamped : Int → Nat),
    clamped = (fun x => if x < 0 then 0 else if 65280 < x then 65280 else x.toNat) →
    (∃ t, exec (.cam a b) s = .next t ∧ CpuAdvanced 2 s t ∧ MemoryKept s t ∧ t.audio = s.audio ∧
      t.env = s.env ∧
      t.ppu = { s.ppu with camX := clamped (s.reg a).toNat, camY := clamped (s.reg b).toNat }) ∧
    (∃ t, exec (.cammv a b) s = .next t ∧ CpuAdvanced 2 s t ∧ MemoryKept s t ∧ t.audio = s.audio ∧
      t.env = s.env ∧
      t.ppu = { s.ppu with
        camX := clamped (s.ppu.camX + (s.reg a).toInt)
        camY := clamped (s.ppu.camY + (s.reg b).toInt) })

/-- R281, R423, R454, R461: SETOAM sets the cursor for a value below 512; from 512 up it takes the
OamCursor fault in either mode, or, while `power_on` is 1, only advances. The record of the halt's cause and
the instrument table's values are the model's choice (log entries 4 and 10). -/
def Obligations.SetOamCursor : Prop :=
  ∀ (s : State) (a : Reg),
    ((s.reg a).toNat < 512 →
      ∃ t, exec (.setoam a) s = .next t ∧ CpuAdvanced 2 s t ∧ MemoryKept s t ∧ t.audio = s.audio ∧
        t.env = s.env ∧ t.ppu = { s.ppu with oamCursor := (s.reg a).toNat }) ∧
    (512 ≤ (s.reg a).toNat → s.bus.powerOn = false →
      ∃ t, exec (.setoam a) s = .next t ∧ FaultTaken .oamCursor 0x02 s t) ∧
    (512 ≤ (s.reg a).toNat → s.bus.powerOn = true →
      ∃ t, exec (.setoam a) s = .next t ∧ CpuAdvanced 2 s t ∧ DevicesKept s t)

/-- R272, R428, R282, R429, R82, R83: INPUT reads the latch of a controller below 2, and 0 for another;
BANK selects a bank that exists, which changes what the window reads in cartridge mode and nothing else,
and ignores any other number. -/
def Obligations.InputAndBank : Prop :=
  ∀ (s : State) (a b : Reg),
    (∃ t v, exec (.input a b) s = .next t ∧ Computed 2 a v s.cpu.flags s t ∧
      (∀ i : Fin cfg.nControllers, (s.reg b).toNat = i.val → v.toNat = (s.env.inputLatch.get i).toNat) ∧
      (2 ≤ (s.reg b).toNat → v = 0)) ∧
    ((s.reg a).toNat < s.bus.banks.length →
      ∃ t, exec (.bank a) s = .next t ∧ CpuAdvanced 2 s t ∧ UnitsKept s t ∧
        t.bus = { s.bus with selectedBank := (s.reg a).toNat } ∧
        (∀ x : Word, ¬ (0x8000 ≤ x.toNat ∧ x.toNat ≤ 0xBFFF) → busRead8 t x = busRead8 s x) ∧
        (s.bus.bootMode = true → ∀ x, busRead8 t x = busRead8 s x) ∧
        (s.bus.bootMode = false → ∀ x : Word, 0x8000 ≤ x.toNat → x.toNat ≤ 0xBFFF →
          busRead8 t x = Memory.read .bank (s.bus.banks.getD (s.reg a).toNat []) (x.toNat - 0x8000))) ∧
    (s.bus.banks.length ≤ (s.reg a).toNat →
      ∃ t, exec (.bank a) s = .next t ∧ CpuAdvanced 2 s t ∧ DevicesKept s t)

/-- R283, R284, R440: OUT_R sends the register's number and value, OUT_S the bytes the bus reads from its
address on, up to a zero byte and at most 256 of them; the event is the only change but pc. -/
def Obligations.DebugOutput : Prop :=
  ∀ (s : State) (a : Reg),
    (∃ t, exec (.outR a) s = .next t ∧ CpuAdvanced 2 s t ∧ MemoryKept s t ∧ t.ppu = s.ppu ∧
      t.audio = s.audio ∧
      t.env = { s.env with debugLog := s.env.debugLog ++ [.reg a (s.reg a)] }) ∧
    (∃ t bytes, exec (.outS a) s = .next t ∧ CpuAdvanced 2 s t ∧ MemoryKept s t ∧ t.ppu = s.ppu ∧
      t.audio = s.audio ∧
      t.env = { s.env with debugLog := s.env.debugLog ++ [.str bytes] } ∧
      bytes.length ≤ 256 ∧
      (∀ k, k < bytes.length → bytes.getD k 0 = busRead8 s (s.reg a + BitVec.ofNat 16 k) ∧
        busRead8 s (s.reg a + BitVec.ofNat 16 k) ≠ 0x00) ∧
      (bytes.length < 256 → busRead8 s (s.reg a + BitVec.ofNat 16 bytes.length) = 0x00))

/-! ## Devices and host (50_ppu.md, 51_apu.md, 52_sequencer.md, 53_arbiter.md) -/

/-- R325, R311: a VBlank pass exports every pixel through the palette: the slot of its palette byte, 16
further for an alternate colour, gives its red, green and blue bytes (open values, log entry 8), and alpha
0 exactly for the slots 0 and 16; with no sprite and no character every pixel is the background colour. -/
def Obligations.FrameExport : Prop :=
  ∀ (s t : State), t = s.vblankPass →
    (∀ i p m, i < 65536 → p = (t.ppu.pixbuf.read .pixbuf i).toNat →
      m = ((busRead8 s (BitVec.ofNat 16 (0xFFF0 + p % 16))).toNat % 32 + 16 * (p / 16 % 2)) % 32 →
      t.ppu.frame.read .frame (4 * i) = (Config.masterPalette m).1 ∧
      t.ppu.frame.read .frame (4 * i + 1) = (Config.masterPalette m).2.1 ∧
      t.ppu.frame.read .frame (4 * i + 2) = (Config.masterPalette m).2.2 ∧
      t.ppu.frame.read .frame (4 * i + 3) = (if m = 0 ∨ m = 16 then 0x00 else 0xFF)) ∧
    ((∀ i, i < 512 → EntryEmpty s i) → (∀ a, a < 1024 → s.ppu.textGrid.read .text a = 0xFF) →
      ∀ i, i < 65536 → (t.ppu.pixbuf.read .pixbuf i).toNat = s.ppu.bgColor.toNat)

/-- R311 to R315: after a VBlank pass over a screen without text each pixel has the colour value of the
sprite in front of all others that draw there, clipped to the screen, and the background colour where none
does; `TextIsInFront` says what text puts over it. -/
def Obligations.SpritesAreComposited : Prop :=
  ∀ (s : State) (x y : Nat), x < 256 → y < 256 →
    (∀ i v, SpriteShows s i x y v →
      (∀ j w, SpriteShows s j x y w → j ≠ i → InFront s i j) →
      (s.clearText.vblankPass.ppu.pixbuf.read .pixbuf (256 * y + x)).toNat = v) ∧
    ((∀ i v, ¬ SpriteShows s i x y v) →
      (s.clearText.vblankPass.ppu.pixbuf.read .pixbuf (256 * y + x)).toNat = s.ppu.bgColor.toNat)

/-- R316: after a VBlank pass every set bit of a glyph shows the text colour at its place, whatever sprite
lies under it; every other pixel of the cell is as it would be with no text on the screen (the glyphs are
open values, log entry 8). -/
def Obligations.TextIsInFront : Prop :=
  ∀ (s : State) (row col r c : Nat) (ch : Byte), row < 32 → col < 32 → r < 8 → c < 8 →
    ch = s.ppu.textGrid.read .text (32 * row + col) →
    (s.vblankPass.ppu.pixbuf.read .pixbuf (256 * (8 * row + r) + (8 * col + c))).toNat =
      if ch ≠ 0xFF ∧ (Config.font ch r).getLsbD (7 - c) = true then s.ppu.fontColor.toNat
      else (s.clearText.vblankPass.ppu.pixbuf.read .pixbuf (256 * (8 * row + r) + (8 * col + c))).toNat

/-- R348, R261: the note table is the twelve-tone formula, rounded to the nearest whole number of hertz,
as an inequality over whole numbers, and 65535 from note 156 up. It is the default of a parameter (log
entry 28). -/
def Obligations.NoteTable : Prop :=
  ∀ note : Byte,
    (note.toNat < 156 →
      (2 * (noteFreq note).toNat - 1) ^ 12 * 2 ^ 69 ≤ 880 ^ 12 * 2 ^ note.toNat ∧
      880 ^ 12 * 2 ^ note.toNat < (2 * (noteFreq note).toNat + 1) ^ 12 * 2 ^ 69) ∧
    (156 ≤ note.toNat → noteFreq note = 0xFFFF)

/-- R391, R393 to R399, R53: a tick of a stopped sequencer does nothing, one with a delay counts it down,
and another reads records from the cursor on, up to the limit, past which it is refused. END stops the
sequence and clears every gate and priority. A JUMP reads on at its target, little-endian, in the same tick.
Any other record moves the cursor on; it starts its note with override, or stops its channel for note 0, or
plays nothing for a channel byte from 8 up; then it arms the delay, or, for a duration of 0, the next record
is read in the same tick. -/
def Obligations.SequencerTick : Prop :=
  ∀ (s : State) (p : Word) (ch note dur ins : Byte), p = s.audio.seqCursor →
    ch = busRead8 s p → note = busRead8 s (p + 1) → dur = busRead8 s (p + 2) →
    ins = busRead8 s (p + 3) →
    (s.audio.seqEnabled = false → sequencerTick s = .ok s) ∧
    (s.audio.seqEnabled = true → 0 < s.audio.seqDelay →
      sequencerTick s = .ok (s.setSeqDelay (s.audio.seqDelay - 1))) ∧
    (s.audio.seqEnabled = true → s.audio.seqDelay = 0 → sequencerTick s = seqLoop 65536 s) ∧
    seqLoop 0 s = .error .sequencerLoop ∧
    ∀ n,
      (ch = 0xFF → ∃ t, seqLoop (n + 1) s = .ok t ∧ t.cpu = s.cpu ∧ t.ppu = s.ppu ∧ t.env = s.env ∧
        RamKeptBut (fun a => ∃ c, c < 8 ∧ a = 0xF7A3 + 4 * c) s t ∧
        (∀ c, c < 8 → t.ramRead (0xF7A3 + 4 * c) = s.ramRead (0xF7A3 + 4 * c) &&& 0xF0) ∧
        t.audio = { s.audio with channels := t.audio.channels, seqEnabled := false } ∧
        (∀ c : Fin 8, t.audio.channels.get c = { s.audio.channels.get c with priority := false })) ∧
      (ch = 0xFE → seqLoop (n + 1) s = seqLoop n (s.setSeqCursor (wordOf dur ins))) ∧
      (ch.toNat ≤ 0xFD → ∃ u,
        seqLoop (n + 1) s = (if dur = 0 then seqLoop n u else .ok (u.setSeqDelay dur.toNat)) ∧
        u.cpu = s.cpu ∧ u.ppu = s.ppu ∧ u.env = s.env ∧
        u.audio = { s.audio with channels := u.audio.channels, seqCursor := p + 4 } ∧
        (8 ≤ ch.toNat → u = s.setSeqCursor (p + 4)) ∧
        ∀ c : Fin 8, ch.toNat = c.val →
          (∀ d, d ≠ c → u.audio.channels.get d = s.audio.channels.get d) ∧
          (note = 0 →
            u.audio.channels.get c = { s.audio.channels.get c with priority := false } ∧
            RamKeptBut (fun a => a = 0xF7A3 + 4 * c.val) s u ∧
            (u.ramRead (0xF7A3 + 4 * c.val)).toNat =
              16 * ((s.ramRead (0xF7A3 + 4 * c.val)).toNat / 16)) ∧
          (note ≠ 0 →
            u.audio.channels.get c = { s.audio.channels.get c with priority := true, retrig := true } ∧
            RamKeptBut
              (fun a => a = 0xF7A0 + 4 * c.val ∨ a = 0xF7A1 + 4 * c.val ∨ a = 0xF7A3 + 4 * c.val) s u ∧
            wordOf (u.ramRead (0xF7A0 + 4 * c.val)) (u.ramRead (0xF7A1 + 4 * c.val)) = noteFreq note ∧
            (u.ramRead (0xF7A3 + 4 * c.val)).toNat = 16 * (ins.toNat % 16) + 1))

/-- R350, R410, R437, R91: generating n samples hands exactly n samples to the sink, and changes no CPU
state, no picture state, no bank, no mode and no byte of `ram` outside the channel registers; of inputs,
outputs and counters only the samples and the noise draws (log entry 6), whatever the open audio parameters
are. -/
def Obligations.AudioLeavesTheRest : Prop :=
  ∀ (p : ApuParams) (n : Nat) (s t : State), generateSamples p n s = .ok t →
    t.env.audioOut.length = s.env.audioOut.length + n ∧ t.cpu = s.cpu ∧ t.ppu = s.ppu ∧
    t.bus = { s.bus with ram := t.bus.ram } ∧
    (∀ a, ¬ (0xF7A0 ≤ a ∧ a < 0xF7C0) → t.ramRead a = s.ramRead a) ∧
    (∀ c, c < 8 → t.ramRead (0xF7A2 + 4 * c) = s.ramRead (0xF7A2 + 4 * c)) ∧
    t.env = { s.env with audioOut := t.env.audioOut, noiseIndex := t.env.noiseIndex }

/-- R352 to R356: one sample of a channel moves its stage only along the edges of the envelope's relation,
whatever the open parameters are, and remembers the registers it saw; a released channel reaches Idle
within as many samples as positive steps cover its volume. -/
def Obligations.EnvelopeTransitions : Prop :=
  ∀ (p : ApuParams) (vmax : Rat) (e : Envelope) (f : Word) (ctrl : Byte) (ch u : Channel) (gate : Bool),
    u = envelopeStep p vmax e (edgeDetect p f ctrl ch) → gate = decide (ctrl.toNat % 2 = 1) →
    (u.lastFreq = f ∧ u.lastCtrl = ctrl ∧ u.retrig = false ∧ u.priority = ch.priority ∧
      u.phase = ch.phase) ∧
    (u.stage = .idle → u.volume = 0) ∧
    (gate = true →
      (ch.lastCtrl.toNat % 2 = 0 ∨ f ≠ ch.lastFreq ∨ ctrl ≠ ch.lastCtrl ∨ ch.retrig = true) →
      (u.stage = .attack ∧ u.volume < vmax) ∨ (u.stage = .decay ∧ u.volume = vmax)) ∧
    (gate = true → ch.lastCtrl = ctrl → f = ch.lastFreq → ch.retrig = false →
      (ch.stage = .idle → u.stage = .idle) ∧
      (ch.stage = .attack → u.stage = .attack ∨ u.stage = .decay) ∧
      (ch.stage = .decay → u.stage = .decay ∨ u.stage = .sustain) ∧
      (ch.stage = .sustain → u.stage = .sustain) ∧
      (ch.stage = .release → u.stage = .release ∨ u.stage = .idle)) ∧
    (gate = false →
      (ch.stage = .idle → u.stage = .idle) ∧
      (ch.stage ≠ .idle → u.stage = .release ∨ u.stage = .idle)) ∧
    (∀ n : Nat, 0 < n → ch.stage = .release → 0 < p.releaseStep e.release →
      ch.volume ≤ n * p.releaseStep e.release →
      ((envelopeStep p vmax e)^[n] ch).stage = .idle ∧ ((envelopeStep p vmax e)^[n] ch).volume = 0)

/-- R435, R61, R493: a host Reset that is due clears the registers, pc, flags and stack, makes the CPU run
and not wait, and keeps memory, the mode, `power_on` and every device; a host Halt only halts. That the operation is due
by the schedule, that the frame step's count stays, and the record of the halt's cause are the model's
choice (log entries 1, 24 and 4). -/
def Obligations.HostResetAndHalt : Prop :=
  ∀ (s : State) (rest : List (Nat × HostOp)),
    (s.env.schedule = (0, .reset) :: rest →
      ∃ t, step s = .next t ∧ (∀ r, t.reg r = 0) ∧ t.cpu.pc = 0x0000 ∧
        t.cpu.flags = ⟨false, false, false, false⟩ ∧ t.cpu.stack = [] ∧ t.cpu.run = .running ∧
        t.cpu.awaitingVblank = false ∧ t.bus = s.bus ∧ t.ppu = s.ppu ∧ t.audio = s.audio ∧
        t.env = { s.env with schedule := rest }) ∧
    (s.env.schedule = (0, .halt) :: rest →
      ∃ t, step s = .next t ∧ t.cpu = { s.cpu with run := .halted, haltCause := .host } ∧
        t.bus = s.bus ∧ t.ppu = s.ppu ∧ t.audio = s.audio ∧ t.env = { s.env with schedule := rest })

/-- R432, R433, R457, R434, R438: a cartridge image with a whole header and the magic is latched and
copied, and marked loaded; any other only marks 0xFF; banks are cut or padded to their size and the first
is selected; a save buffer of the window's length goes there, and SaveView gives it back and changes nothing
(that the bytes are kept in a field is the model's choice, log entry 19). -/
def Obligations.HostLoads : Prop :=
  ∀ (s : State) (img : List Byte) (images : List (List Byte)) (buf : List Byte),
    (64 ≤ img.length → img.take 4 = [0x53, 0x48, 0x52, 0x50] →
      ∃ t, hostStep (.loadCartridge img) s = .next t ∧
        (∀ a, a < 64 → t.bus.cartHeader.read .header a = img.getD a 0) ∧
        (∀ a, a < min (img.length - 64) 0xE000 → t.ramRead a = img.getD (64 + a) 0) ∧
        (∀ a, a < 4 → t.ramRead (0xFFE0 + a) = img.getD a 0) ∧
        t.ramRead 0xFFE6 = img.getD 44 0 ∧ t.ramRead 0xFFE7 = img.getD 45 0 ∧
        t.ramRead 0xFFE9 = 0x01 ∧
        (∀ a, min (img.length - 64) 0xE000 ≤ a → ¬ (0xFFE0 ≤ a ∧ a ≤ 0xFFE3) → a ≠ 0xFFE6 →
          a ≠ 0xFFE7 → a ≠ 0xFFE9 → t.ramRead a = s.ramRead a) ∧
        t.bus = { s.bus with ram := t.bus.ram, cartHeader := t.bus.cartHeader } ∧ t.cpu = s.cpu ∧
        UnitsKept s t) ∧
    (img.length < 64 ∨ img.take 4 ≠ [0x53, 0x48, 0x52, 0x50] →
      hostStep (.loadCartridge img) s = .next (s.ramWrite 0xFFE9 0xFF)) ∧
    (∃ t, hostStep (.loadBanks images) s = .next t ∧ t.bus.banks.length = images.length ∧
      t.bus.selectedBank = 0 ∧
      (∀ j a, j < images.length → a < 0x4000 →
        Memory.read .bank (t.bus.banks.getD j []) a = (images.getD j []).getD a 0x00) ∧
      t.bus = { s.bus with banks := t.bus.banks, selectedBank := 0 } ∧ t.cpu = s.cpu ∧ UnitsKept s t) ∧
    (buf.length = 2048 →
      ∃ t u, hostStep (.saveLoad buf) s = .next t ∧ hostStep .saveView t = .next u ∧
        u = { t with env := { t.env with saveOut := buf } } ∧
        (∀ a, ¬ (0xF000 ≤ a ∧ a ≤ 0xF7FF) → t.ramRead a = s.ramRead a) ∧
        t.bus = { s.bus with ram := t.bus.ram } ∧ t.cpu = s.cpu ∧ UnitsKept s t) ∧
    (buf.length ≠ 2048 → hostStep (.saveLoad buf) s = .next s)

/-- R431: a BIOS image replaces the whole BIOS store, its BIOS-call part is copied to `ram` and no byte of
the flags or the palette is, the version word is written, and the cartridge-loaded byte cleared (the
version's value is the model's choice, log entry 11). -/
def Obligations.BiosLoad : Prop :=
  ∀ (s : State) (img : List Byte) (n : Nat), n = min img.length 65536 →
    ∃ t, hostStep (.loadBios img) s = .next t ∧
      (∀ a, t.bus.bios.read .bios a = if a < n then img.getD a 0 else 0x00) ∧
      (∀ a, 0xF800 ≤ a → a < min n 0xFFE0 → t.ramRead a = img.getD a 0) ∧
      wordOf (t.ramRead 0xFFE4) (t.ramRead 0xFFE5) = cfg.biosVersion ∧ t.ramRead 0xFFE9 = 0x00 ∧
      (∀ a, ¬ (0xF800 ≤ a ∧ a < min n 0xFFE0) → a ≠ 0xFFE4 → a ≠ 0xFFE5 → a ≠ 0xFFE9 →
        t.ramRead a = s.ramRead a) ∧
      t.bus = { s.bus with ram := t.bus.ram, bios := t.bus.bios } ∧ t.cpu = s.cpu ∧ UnitsKept s t

/-- R80 to R83: a byte read in boot mode comes from the BIOS store up to the atlas's top and from `ram`
above; in cartridge mode the window reads the selected bank where banks exist, and all else is `ram`. -/
def Obligations.BusReadPaths : Prop :=
  ∀ (s : State) (a : Word),
    (s.bus.bootMode = true → a.toNat ≤ 0xDFFF → busRead8 s a = s.bus.bios.read .bios a.toNat) ∧
    (s.bus.bootMode = true → 0xDFFF < a.toNat → busRead8 s a = s.ramRead a.toNat) ∧
    (s.bus.bootMode = false → s.bus.banks ≠ [] → 0x8000 ≤ a.toNat → a.toNat ≤ 0xBFFF →
      busRead8 s a =
        Memory.read .bank (s.bus.banks.getD s.bus.selectedBank []) (a.toNat - 0x8000)) ∧
    (s.bus.bootMode = false → s.bus.banks = [] ∨ ¬ (0x8000 ≤ a.toNat ∧ a.toNat ≤ 0xBFFF) →
      busRead8 s a = s.ramRead a.toNat)

end
end

