-- ==== Sys2Proof/Laws/Config.lean ====
section
/-! SUPPORT. The parameters' values as simp lemmas, and the constraints the open ones keep. -/

namespace Sys2Proof

@[simp] theorem cfg_nRegs : cfg.nRegs = 16 := rfl
@[simp] theorem cfg_xlen : cfg.xlen = 16 := rfl
@[simp] theorem cfg_pcBits : cfg.pcBits = 16 := rfl
@[simp] theorem cfg_addrBits : cfg.addrBits = 16 := rfl
@[simp] theorem cfg_flagCBit : cfg.flagCBit = 0 := rfl
@[simp] theorem cfg_flagZBit : cfg.flagZBit = 1 := rfl
@[simp] theorem cfg_flagVBit : cfg.flagVBit = 2 := rfl
@[simp] theorem cfg_flagNBit : cfg.flagNBit = 3 := rfl
@[simp] theorem cfg_callStackDepth : cfg.callStackDepth = none := rfl
@[simp] theorem cfg_altByte : cfg.altByte = 0xFE := rfl
@[simp] theorem cfg_maxInstrLen : cfg.maxInstrLen = 4 := rfl
@[simp] theorem cfg_cycleBudget : cfg.cycleBudget = 16000 := rfl
@[simp] theorem cfg_adcWriteback : cfg.adcWriteback = false := rfl
@[simp] theorem cfg_logicKeepsCarry : cfg.logicKeepsCarry = true := rfl
@[simp] theorem cfg_romOrigin : cfg.romOrigin = 0x0000 := rfl
@[simp] theorem cfg_fixedRomEnd : cfg.fixedRomEnd = 0x7FFF := rfl
@[simp] theorem cfg_bankBase : cfg.bankBase = 0x8000 := rfl
@[simp] theorem cfg_bankEnd : cfg.bankEnd = 0xBFFF := rfl
@[simp] theorem cfg_atlasBase : cfg.atlasBase = 0xC000 := rfl
@[simp] theorem cfg_atlasTop : cfg.atlasTop = 0xDFFF := rfl
@[simp] theorem cfg_tileBytes : cfg.tileBytes = 32 := rfl
@[simp] theorem cfg_nTiles : cfg.nTiles = 256 := rfl
@[simp] theorem cfg_wramBase : cfg.wramBase = 0xE000 := rfl
@[simp] theorem cfg_wramEnd : cfg.wramEnd = 0xF79F := rfl
@[simp] theorem cfg_audioBase : cfg.audioBase = 0xF7A0 := rfl
@[simp] theorem cfg_instrBase : cfg.instrBase = 0xF7C0 := rfl
@[simp] theorem cfg_nInstr : cfg.nInstr = 16 := rfl
@[simp] theorem cfg_audioEnd : cfg.audioEnd = 0xF7FF := rfl
@[simp] theorem cfg_reservedBase : cfg.reservedBase = 0xF800 := rfl
@[simp] theorem cfg_biosCallBase : cfg.biosCallBase = 0xF800 := rfl
@[simp] theorem cfg_biosCallEnd : cfg.biosCallEnd = 0xFFDF := rfl
@[simp] theorem cfg_sysFlagsBase : cfg.sysFlagsBase = 0xFFE0 := rfl
@[simp] theorem cfg_paletteBase : cfg.paletteBase = 0xFFF0 := rfl
@[simp] theorem cfg_paletteEnd : cfg.paletteEnd = 0xFFFF := rfl
@[simp] theorem cfg_verifyAddr : cfg.verifyAddr = 0xFFE8 := rfl
@[simp] theorem cfg_verifyMagic : cfg.verifyMagic = 0xA5 := rfl
@[simp] theorem cfg_errNone : cfg.errNone = 0x00 := rfl
@[simp] theorem cfg_errReservedWrite : cfg.errReservedWrite = 0x01 := rfl
@[simp] theorem cfg_errOamCursor : cfg.errOamCursor = 0x02 := rfl
@[simp] theorem cfg_errStackUnderflow : cfg.errStackUnderflow = 0x03 := rfl
@[simp] theorem cfg_biosVersion : cfg.biosVersion = 0x0001 := rfl
@[simp] theorem cfg_lowmemClearEnd : cfg.lowmemClearEnd = 0xDFFF := rfl
@[simp] theorem cfg_saveBase : cfg.saveBase = 0xF000 := rfl
@[simp] theorem cfg_saveSize : cfg.saveSize = 0x0800 := rfl
@[simp] theorem cfg_screenW : cfg.screenW = 256 := rfl
@[simp] theorem cfg_screenH : cfg.screenH = 256 := rfl
@[simp] theorem cfg_textCols : cfg.textCols = 32 := rfl
@[simp] theorem cfg_textRows : cfg.textRows = 32 := rfl
@[simp] theorem cfg_oamEntries : cfg.oamEntries = 512 := rfl
@[simp] theorem cfg_oamEntryBytes : cfg.oamEntryBytes = 7 := rfl
@[simp] theorem cfg_attrHflipBit : cfg.attrHflipBit = 0 := rfl
@[simp] theorem cfg_attrVflipBit : cfg.attrVflipBit = 1 := rfl
@[simp] theorem cfg_attrAltpalBit : cfg.attrAltpalBit = 2 := rfl
@[simp] theorem cfg_typeHudBit : cfg.typeHudBit = 0 := rfl
@[simp] theorem cfg_typeBgBit : cfg.typeBgBit = 1 := rfl
@[simp] theorem cfg_colNone : cfg.colNone = 0xFFFF := rfl
@[simp] theorem cfg_camMax : cfg.camMax = 65280 := rfl
@[simp] theorem cfg_bgDefault : cfg.bgDefault = 0 := rfl
@[simp] theorem cfg_fontColorDefault : cfg.fontColorDefault = 1 := rfl
@[simp] theorem cfg_nControllers : cfg.nControllers = 2 := rfl
@[simp] theorem cfg_sampleRate : cfg.sampleRate = 44100 := rfl
@[simp] theorem cfg_seqTickSamples : cfg.seqTickSamples = 1024 := rfl
@[simp] theorem cfg_tempo : cfg.tempo = 1 := rfl
@[simp] theorem cfg_seqLoopLimit : cfg.seqLoopLimit = 65536 := rfl
@[simp] theorem cfg_cartHeaderBytes : cfg.cartHeaderBytes = 64 := rfl
@[simp] theorem cfg_cartMagic : cfg.cartMagic = [0x53, 0x48, 0x52, 0x50] := rfl
@[simp] theorem cfg_noteFreq : cfg.noteFreq = noteFreqDefault := rfl
@[simp] theorem cfg_defaultInstruments : cfg.defaultInstruments = List.replicate 16 ⟨1, 8, 192, 8⟩ := rfl
@[simp] theorem cfg_bankSize : cfg.bankSize = 0x4000 := rfl

theorem positive_pos (q : Rat) : 0 < positive q := by
  unfold positive
  split
  · assumption
  · exact one_pos

theorem positive_of_pos {q : Rat} (h : 0 < q) : positive q = q := if_pos h

theorem clampTo_mem {lo hi : Rat} (h : lo ≤ hi) (q : Rat) : lo ≤ clampTo lo hi q ∧ clampTo lo hi q ≤ hi :=
  ⟨le_max_left _ _, max_le h (min_le_left _ _)⟩

theorem clampTo_of_mem {lo hi q : Rat} (h : lo ≤ q ∧ q ≤ hi) : clampTo lo hi q = q := by
  simp [clampTo, h.1, h.2]

theorem one_le_descending (f : Nat → Rat) (n : Nat) : 1 ≤ descending f n := by
  cases n <;> exact le_max_left _ _

theorem descending_succ_le (f : Nat → Rat) (n : Nat) : descending f (n + 1) ≤ descending f n :=
  max_le (one_le_descending f n) (min_le_left _ _)

theorem descending_antitone (f : Nat → Rat) : Antitone (descending f) :=
  antitone_nat_of_succ_le (descending_succ_le f)

/-- Every rational function from 1 up that never rises is reached by `descending`. -/
theorem descending_of_antitone {f : Nat → Rat} (h1 : ∀ n, 1 ≤ f n) (ha : Antitone f) (n : Nat) :
    descending f n = f n := by
  induction n with
  | zero => simp [descending, h1]
  | succ n ih => simp [descending, ih, h1, ha (Nat.le_succ n)]

theorem fracPart_mem (x : Rat) : 0 ≤ fracPart x ∧ fracPart x < 1 := by
  unfold fracPart
  have h1 : (x.floor : Rat) ≤ x := Int.floor_le x
  have h2 : x < (x.floor : Rat) + 1 := Int.lt_floor_add_one x
  constructor <;> linarith

/-- A value between two levels, part of the way from the one to the other. -/
theorem between_levels {low high q : Rat} (h : low < high) (hq : 0 ≤ q ∧ q ≤ 1) :
    0 ≤ (high - low) * q ∧ (high - low) * q ≤ high - low :=
  ⟨mul_nonneg (by linarith) hq.1, mul_le_of_le_one_right (by linarith) hq.2⟩

/-- A lawful triangle stays between its two levels at every phase. -/
theorem Triangle.wave_levels {w : Triangle} (h : w.Lawful) (t : Rat) : w.low ≤ w.wave t ∧ w.wave t ≤ w.high := by
  obtain ⟨hr, hr1, -, hlh, -⟩ := h
  obtain ⟨hu, hu1⟩ := fracPart_mem (t - w.start)
  unfold Triangle.wave
  dsimp only
  split
  · next hlt =>
    have := between_levels hlh ⟨div_nonneg hu hr.le, (div_le_one hr).2 hlt.le⟩
    constructor <;> linarith
  · next hge =>
    have h1 : 0 < 1 - w.rise := by linarith
    have := between_levels hlh (q := (fracPart (t - w.start) - w.rise) / (1 - w.rise))
      ⟨div_nonneg (by linarith) h1.le, (div_le_one h1).2 (by linarith)⟩
    constructor <;> linarith

theorem Triangle.wave_mem {w : Triangle} (h : w.Lawful) (t : Rat) : -1 ≤ w.wave t ∧ w.wave t ≤ 1 :=
  ⟨h.2.2.1.trans (wave_levels h t).1, (wave_levels h t).2.trans h.2.2.2.2⟩

theorem fracPart_of_mem {x : Rat} (h : 0 ≤ x ∧ x < 1) : fracPart x = x := by
  have : x.floor = 0 := Int.floor_eq_zero_iff.2 h
  simp [fracPart, this]

/-- A lawful triangle is at its low level where its rising edge starts. -/
theorem Triangle.wave_start {w : Triangle} (h : w.Lawful) : w.wave w.start = w.low := by
  simp [Triangle.wave, fracPart_of_mem (x := 0), h.1]

/-- A lawful triangle is at its high level where its rising edge ends, so it is no constant. -/
theorem Triangle.wave_peak {w : Triangle} (h : w.Lawful) : w.wave (w.start + w.rise) = w.high := by
  simp [Triangle.wave, fracPart_of_mem ⟨h.1.le, h.2.1⟩]

theorem Triangle.suggested_lawful : Triangle.suggested.Lawful := by decide +kernel

theorem Triangle.kept_lawful (w : Triangle) : w.kept.Lawful := by
  unfold Triangle.kept
  split
  · assumption
  · exact Triangle.suggested_lawful

/-- Every lawful triangle is reached by `Triangle.kept`. -/
theorem Triangle.kept_of_lawful {w : Triangle} (h : w.Lawful) : w.kept = w := if_pos h

/-- The formula of the suggested instance is one of the triangles, at every phase. -/
theorem Triangle.suggested_wave {t : Rat} (h : 0 ≤ t ∧ t < 1) :
    ApuParams.suggested.waveTri t = Triangle.suggested.wave t := by
  obtain ⟨h0, h1⟩ := h
  have hu : fracPart (t - 1 / 2) = if t < 1 / 2 then t + 1 / 2 else t - 1 / 2 := by
    split
    · have : ⌊t - 1 / 2⌋ = -1 := Int.floor_eq_iff.2 ⟨by push_cast; linarith, by push_cast; linarith⟩
      change (t - 1 / 2).floor = -1 at this
      simp only [fracPart, this]
      push_cast
      ring
    · exact fracPart_of_mem ⟨by linarith, by linarith⟩
  simp only [ApuParams.suggested, Triangle.suggested, Triangle.wave, hu]
  split
  · rw [if_neg (by linarith), abs_of_neg (by linarith)]
    ring
  · rw [if_pos (by linarith), abs_of_nonneg (by linarith)]
    ring

/-- The constraints R346 states of the parameters the machine runs. -/
structure ApuParams.Lawful (p : ApuParams) : Prop where
  attack : ∀ b, 0 < p.attackStep b
  decay : ∀ b, 0 < p.decayStep b
  release : ∀ b, 0 < p.releaseStep b
  gain : 0 < p.preGain
  keep : 0 ≤ p.retriggerKeep ∧ p.retriggerKeep ≤ 1
  period : ∀ f, 1 ≤ p.noisePeriod f
  faster : ∀ f g : Word, f.toNat ≤ g.toNat → p.noisePeriod g ≤ p.noisePeriod f
  triangle : ∃ w : Triangle, w.Lawful ∧ ∀ t, p.waveTri t = w.wave t
  limited : ∃ e, 0 ≤ e ∧ ∀ t dt,
    (-1 - e ≤ p.waveSquare t dt ∧ p.waveSquare t dt ≤ 1 + e) ∧
    (-1 - e ≤ p.waveSaw t dt ∧ p.waveSaw t dt ≤ 1 + e)
  noise : ∀ n, -1 ≤ p.noise n ∧ p.noise n ≤ 1

theorem ApuParams.Lawful.triangle_mem {p : ApuParams} (h : p.Lawful) (t : Rat) :
    -1 ≤ p.waveTri t ∧ p.waveTri t ≤ 1 := by
  obtain ⟨w, hw, he⟩ := h.triangle
  exact he t ▸ Triangle.wave_mem hw t

theorem Config.waveExcess_nonneg : 0 ≤ Config.waveExcess := le_max_left _ _

theorem Config.wave_range : -1 - Config.waveExcess ≤ 1 + Config.waveExcess := by
  have := Config.waveExcess_nonneg
  linarith

theorem Config.apu_lawful : Config.apu.Lawful where
  attack _ := positive_pos _
  decay _ := positive_pos _
  release _ := positive_pos _
  gain := positive_pos _
  keep := clampTo_mem zero_le_one _
  period _ := one_le_descending _ _
  faster _ _ h := descending_antitone _ h
  triangle := ⟨Config.triangle, Triangle.kept_lawful _, fun _ => rfl⟩
  limited :=
    ⟨Config.waveExcess, Config.waveExcess_nonneg, fun _ _ =>
      ⟨clampTo_mem Config.wave_range _, clampTo_mem Config.wave_range _⟩⟩
  noise _ := clampTo_mem (by norm_num) _

@[simp] theorem Config.apu_tempo : Config.apu.tempo = 1 := rfl

end Sys2Proof
end

