-- ==== Sys2Proof/Laws/Decode.lean ====
section
/-! SUPPORT. Lemmas about the bit fields, the decoder and the encoder, by which a proof about decoding
never unfolds the tables but on one row. -/

namespace Sys2Proof

@[simp] theorem hiNibble_nibbles (a b : BitVec 4) : hiNibble (nibbles a b) = a := by revert a b; decide

@[simp] theorem loNibble_nibbles (a b : BitVec 4) : loNibble (nibbles a b) = b := by revert a b; decide

theorem nibbles_split (b : Byte) : nibbles (hiNibble b) (loNibble b) = b := by revert b; decide

theorem nibbles_toNat (a b : BitVec 4) : (nibbles a b).toNat = 16 * a.toNat + b.toNat := by
  revert a b; decide

theorem hiNibble_toNat (b : Byte) : (hiNibble b).toNat = b.toNat / 16 := by revert b; decide

theorem loNibble_toNat (b : Byte) : (loNibble b).toNat = b.toNat % 16 := by revert b; decide

/-- A first byte of a family other than 0xF is not the ALT byte. -/
theorem nibbles_ne_alt (h r : BitVec 4) (hne : h ≠ 0xF) : nibbles h r ≠ (0xFE : Byte) := by
  revert h r; decide

/-- What the decoder does with a first byte other than 0xFE (R121, R140). -/
theorem decode_primary {op : Byte} (h : op ≠ 0xFE) (rest : List Byte) :
    decode (op :: rest) = match primaryTable op with
      | some f => f.read rest
      | none => .error (.unassigned op) := if_neg h

/-- What the decoder does with the bytes after 0xFE (R121, R141). -/
theorem decode_alt (op2 : Byte) (rest : List Byte) :
    decode (0xFE :: op2 :: rest) = match altTable op2 with
      | some f => f.read rest
      | none => .error (.unassignedAlt op2) := rfl

/-! A format reads its operand bytes and leaves the rest (R122 to R133). -/

@[simp] theorem Format.read_n (i : Instr) (l : List Byte) : (Format.n i).read l = .ok (i, l) := by
  cases l <;> rfl

@[simp] theorem Format.read_a (mk : Word → Instr) (lo hi : Byte) (l : List Byte) :
    (Format.a mk).read (lo :: hi :: l) = .ok (mk (joinBytes hi lo), l) := rfl

@[simp] theorem Format.read_rr (mk : Reg → Reg → Instr) (b : Byte) (l : List Byte) :
    (Format.rr mk).read (b :: l) = .ok (mk (hiNibble b) (loNibble b), l) := rfl

@[simp] theorem Format.read_r (mk : Reg → Instr) (b : Byte) (l : List Byte) :
    (Format.r mk).read (b :: l) = .ok (mk (hiNibble b), l) := rfl

@[simp] theorem Format.read_rri (mk : Reg → Reg → Byte → Instr) (b imm : Byte) (l : List Byte) :
    (Format.rri mk).read (b :: imm :: l) = .ok (mk (hiNibble b) (loNibble b) imm, l) := rfl

@[simp] theorem Format.read_fd (mk : Reg → Reg → Reg → Instr) (b c : Byte) (l : List Byte) :
    (Format.fd mk).read (b :: c :: l) = .ok (mk (hiNibble b) (loNibble b) (hiNibble c), l) := rfl

end Sys2Proof
end

