-- ==== Sys2Proof/Laws/Memory.lean ====
section
/-! SUPPORT. The laws of memory: what a read gives after each operation, that every operation keeps the
canonical form, and that equal readings of canonical stores are equal data. -/

namespace Sys2Proof.Machine

variable (st : Store)

/-! ## Readings -/

@[simp] theorem Memory.read_nil (a : Nat) : Memory.read st [] a = st.blank a := rfl

theorem Memory.read_cons (k : Nat) (b : Byte) (m : Memory) (a : Nat) :
    Memory.read st ((k, b) :: m) a = if k = a then b else Memory.read st m a := rfl

/-- A store that lists an address nowhere in its first part is read in its second. -/
theorem Memory.read_append_of_not_mem {m₁ m₂ : Memory} {a : Nat} (h : ∀ c ∈ m₁, c.1 ≠ a) :
    Memory.read st (m₁ ++ m₂) a = Memory.read st m₂ a := by
  induction m₁ with
  | nil => rfl
  | cons c m ih =>
    obtain ⟨k, b⟩ := c
    have hk : k ≠ a := h (k, b) (by simp)
    simp only [List.cons_append, Memory.read_cons, if_neg hk]
    exact ih fun c hc => h c (by simp [hc])

/-- A store that lists an address nowhere reads as blank there. -/
theorem Memory.read_of_not_mem {m : Memory} {a : Nat} (h : ∀ c ∈ m, c.1 ≠ a) :
    Memory.read st m a = st.blank a := by
  simpa using Memory.read_append_of_not_mem st (m₂ := []) h

/-- Dropping cells of other addresses does not change a reading. -/
theorem Memory.read_filter {m : Memory} {a : Nat} {p : Host.Cell → Bool}
    (h : ∀ b, p (a, b) = true) : Memory.read st (m.filter p) a = Memory.read st m a := by
  induction m with
  | nil => rfl
  | cons c m ih =>
    obtain ⟨k, b⟩ := c
    by_cases hp : p (k, b) = true
    · rw [List.filter_cons_of_pos hp, Memory.read_cons, Memory.read_cons, ih]
    · have hk : k ≠ a := by rintro rfl; exact hp (h b)
      rw [List.filter_cons_of_neg (by simpa using hp), Memory.read_cons, if_neg hk, ih]

/-- Dropping every cell of an address makes it read as blank. -/
theorem Memory.read_filter_out {m : Memory} {a : Nat} {p : Host.Cell → Bool}
    (h : ∀ b, p (a, b) = false) : Memory.read st (m.filter p) a = st.blank a :=
  Memory.read_of_not_mem st fun c hc hca => by
    have := List.of_mem_filter hc
    obtain ⟨k, b⟩ := c
    obtain rfl : k = a := hca
    simp [h b] at this

theorem Memory.cells_mem {base : Nat} {bs : List Byte} {c : Host.Cell}
    (h : c ∈ Memory.cells st base bs) : base ≤ c.1 ∧ c.1 < base + bs.length := by
  induction bs generalizing base with
  | nil => simp [Memory.cells] at h
  | cons b bs ih =>
    simp only [Memory.cells] at h
    split at h
    · have := ih h; simp only [List.length_cons]; omega
    · rcases List.mem_cons.mp h with rfl | h
      · simp
      · have := ih h; simp only [List.length_cons]; omega

/-- The reading of bytes laid out as cells. -/
theorem Memory.read_cells (base : Nat) (bs : List Byte) (a : Nat) :
    Memory.read st (Memory.cells st base bs) a =
      if base ≤ a then bs.getD (a - base) (st.blank a) else st.blank a := by
  induction bs generalizing base with
  | nil => simp [Memory.cells]
  | cons b bs ih =>
    have hne : base ≠ a → (if base ≤ a then (b :: bs).getD (a - base) (st.blank a) else st.blank a) =
        if base + 1 ≤ a then bs.getD (a - (base + 1)) (st.blank a) else st.blank a := by
      intro h
      by_cases hle : base + 1 ≤ a
      · rw [if_pos (by omega), if_pos hle, show a - base = (a - (base + 1)) + 1 by omega]
        rfl
      · rw [if_neg (by omega), if_neg hle]
    simp only [Memory.cells]
    split
    · rename_i hb
      rw [ih]
      by_cases h : base = a
      · subst h; simp [hb]
      · rw [hne h]
    · rw [Memory.read_cons, ih]
      by_cases h : base = a
      · subst h; simp
      · rw [if_neg h, hne h]

/-- The reading after bytes are stored: the new byte in their range, the old reading elsewhere. -/
theorem Memory.read_load (m : Memory) (base : Nat) (bs : List Byte) (a : Nat) :
    Memory.read st (Memory.load st m base bs) a =
      if base ≤ a ∧ a < base + bs.length then bs.getD (a - base) (st.blank a) else Memory.read st m a := by
  unfold Memory.load
  by_cases h1 : a < base
  · rw [if_neg (by omega)]
    by_cases hm : ∃ c ∈ m, c.1 = a
    · have key : ∀ m' : Memory, (∃ c ∈ m', c.1 = a) →
          ∀ t, Memory.read st (m'.filter (fun c => decide (c.1 < base)) ++ t) a = Memory.read st m' a := by
        intro m' hm' t
        induction m' with
        | nil => simp at hm'
        | cons c m' ih =>
          obtain ⟨k, b⟩ := c
          by_cases hk : k = a
          · subst hk; simp [Memory.read_cons, h1]
          · have hm'' : ∃ c ∈ m', c.1 = a := by
              obtain ⟨c, hc, hca⟩ := hm'
              rcases List.mem_cons.mp hc with rfl | hc
              · exact absurd hca hk
              · exact ⟨c, hc, hca⟩
            by_cases hp : k < base
            · rw [List.filter_cons_of_pos (by simpa using hp), List.cons_append, Memory.read_cons,
                Memory.read_cons, ih hm'']
            · rw [List.filter_cons_of_neg (by simpa using hp), Memory.read_cons, if_neg hk, ih hm'']
      exact key m hm _
    · have hm' : ∀ c ∈ m, c.1 ≠ a := fun c hc h => hm ⟨c, hc, h⟩
      rw [Memory.read_of_not_mem st hm', Memory.read_of_not_mem]
      intro c hc
      simp only [List.mem_append, List.mem_filter] at hc
      rcases hc with hc | hc | hc
      · exact hm' c hc.1
      · have := Memory.cells_mem st hc; omega
      · exact hm' c hc.1
  · rw [Memory.read_append_of_not_mem st (by
      intro c hc; have := List.of_mem_filter hc; simp at this; omega)]
    by_cases h2 : a < base + bs.length
    · rw [if_pos ⟨by omega, h2⟩]
      have hrest : ∀ c ∈ m.filter (fun c => decide (base + bs.length ≤ c.1)), c.1 ≠ a := by
        intro c hc; have := List.of_mem_filter hc; simp at this; omega
      have key : ∀ l t : Memory, (∀ c ∈ t, c.1 ≠ a) →
          Memory.read st (l ++ t) a = Memory.read st l a := by
        intro l t ht
        induction l with
        | nil => simpa using Memory.read_of_not_mem st ht
        | cons c l ih => obtain ⟨k, b⟩ := c; simp only [List.cons_append, Memory.read_cons, ih]
      rw [key _ _ hrest, Memory.read_cells, if_pos (by omega)]
    · rw [if_neg (by omega), Memory.read_append_of_not_mem st (by
        intro c hc; have := Memory.cells_mem st hc; omega)]
      exact Memory.read_filter st (by intro b; simp; omega)

/-- The reading after one byte is stored. -/
theorem Memory.read_write (m : Memory) (a x : Nat) (b : Byte) :
    Memory.read st (Memory.write st m a b) x = if x = a then b else Memory.read st m x := by
  rw [Memory.write, Memory.read_load]
  by_cases h : x = a
  · subst h; simp
  · rw [if_neg (by simp only [List.length_singleton]; omega), if_neg h]

@[simp] theorem Memory.read_write_same (m : Memory) (a : Nat) (b : Byte) :
    Memory.read st (Memory.write st m a b) a = b := by simp [Memory.read_write]

theorem Memory.read_write_ne (m : Memory) {a x : Nat} (b : Byte) (h : x ≠ a) :
    Memory.read st (Memory.write st m a b) x = Memory.read st m x := by simp [Memory.read_write, h]

/-- The reading after a range has its power-on contents back. -/
theorem Memory.read_restore (m : Memory) (lo hi a : Nat) :
    Memory.read st (Memory.restore m lo hi) a =
      if lo ≤ a ∧ a ≤ hi then st.blank a else Memory.read st m a := by
  unfold Memory.restore
  by_cases h : lo ≤ a ∧ a ≤ hi
  · rw [if_pos h]; exact Memory.read_filter_out st (by intro b; simp [h.1, h.2])
  · rw [if_neg h]
    refine Memory.read_filter st ?_
    intro b
    simp only [Bool.not_eq_true', Bool.and_eq_false_iff, decide_eq_false_iff_not]
    omega

/-! ## The canonical form -/

@[simp] theorem Memory.wfFrom_nil (lo : Nat) : Memory.wfFrom st lo [] = true := rfl

theorem Memory.wfFrom_cons (lo k : Nat) (b : Byte) (m : Memory) :
    Memory.wfFrom st lo ((k, b) :: m) = true ↔
      lo ≤ k ∧ k < st.size ∧ b ≠ st.blank k ∧ Memory.wfFrom st (k + 1) m = true := by
  simp [Memory.wfFrom, and_assoc]

theorem Memory.wfFrom_mono {lo lo' : Nat} {m : Memory} (h : Memory.wfFrom st lo m = true) (hl : lo' ≤ lo) :
    Memory.wfFrom st lo' m = true := by
  cases m with
  | nil => rfl
  | cons c m =>
    obtain ⟨k, b⟩ := c
    rw [Memory.wfFrom_cons] at h ⊢
    exact ⟨by omega, h.2⟩

theorem Memory.wfFrom_le {lo : Nat} {m : Memory} (h : Memory.wfFrom st lo m = true) :
    ∀ c ∈ m, lo ≤ c.1 ∧ c.1 < st.size := by
  induction m generalizing lo with
  | nil => simp
  | cons c m ih =>
    obtain ⟨k, b⟩ := c
    rw [Memory.wfFrom_cons] at h
    intro c hc
    rcases List.mem_cons.mp hc with rfl | hc
    · exact ⟨h.1, h.2.1⟩
    · have := ih h.2.2.2 c hc; omega

theorem Memory.wfFrom_filter {lo : Nat} {m : Memory} (p : Host.Cell → Bool)
    (h : Memory.wfFrom st lo m = true) : Memory.wfFrom st lo (m.filter p) = true := by
  induction m generalizing lo with
  | nil => rfl
  | cons c m ih =>
    obtain ⟨k, b⟩ := c
    rw [Memory.wfFrom_cons] at h
    by_cases hp : p (k, b) = true
    · rw [List.filter_cons_of_pos hp, Memory.wfFrom_cons]
      exact ⟨h.1, h.2.1, h.2.2.1, ih h.2.2.2⟩
    · rw [List.filter_cons_of_neg (by simpa using hp)]
      exact ih (Memory.wfFrom_mono st h.2.2.2 (by omega))

/-- Two canonical parts, the first below a bound and the second from it up, join canonically. -/
theorem Memory.wfFrom_append {lo mid : Nat} {m₁ m₂ : Memory} (h1 : Memory.wfFrom st lo m₁ = true)
    (hb : ∀ c ∈ m₁, c.1 < mid) (h2 : Memory.wfFrom st mid m₂ = true) (hl : lo ≤ mid) :
    Memory.wfFrom st lo (m₁ ++ m₂) = true := by
  induction m₁ generalizing lo with
  | nil => exact Memory.wfFrom_mono st h2 hl
  | cons c m ih =>
    obtain ⟨k, b⟩ := c
    rw [Memory.wfFrom_cons] at h1
    rw [List.cons_append, Memory.wfFrom_cons]
    have hk : k < mid := hb (k, b) (by simp)
    exact ⟨h1.1, h1.2.1, h1.2.2.1, ih h1.2.2.2 (fun c hc => hb c (by simp [hc])) (by omega)⟩

theorem Memory.wfFrom_cells {base : Nat} {bs : List Byte} (h : base + bs.length ≤ st.size) :
    Memory.wfFrom st base (Memory.cells st base bs) = true := by
  induction bs generalizing base with
  | nil => rfl
  | cons b bs ih =>
    simp only [List.length_cons] at h
    have ih' := ih (base := base + 1) (by omega)
    simp only [Memory.cells]
    split
    · exact Memory.wfFrom_mono st ih' (by omega)
    · rename_i hb
      rw [Memory.wfFrom_cons]
      exact ⟨le_refl _, by omega, hb, ih'⟩

/-- The cells of a canonical store from a bound up are canonical from that bound. -/
theorem Memory.wfFrom_filter_ge {lo mid : Nat} {m : Memory} (h : Memory.wfFrom st lo m = true) :
    Memory.wfFrom st mid (m.filter fun c => decide (mid ≤ c.1)) = true := by
  induction m generalizing lo with
  | nil => rfl
  | cons c m ih =>
    obtain ⟨k, b⟩ := c
    rw [Memory.wfFrom_cons] at h
    by_cases hp : mid ≤ k
    · rw [List.filter_cons_of_pos (by simpa using hp), Memory.wfFrom_cons]
      exact ⟨hp, h.2.1, h.2.2.1, Memory.wfFrom_filter st _ h.2.2.2⟩
    · rw [List.filter_cons_of_neg (by simpa using hp)]
      exact ih h.2.2.2

/-- Storing bytes inside a store keeps the canonical form. -/
theorem Memory.wf_load {m : Memory} {base : Nat} {bs : List Byte} (h : Memory.wf st m = true)
    (hs : base + bs.length ≤ st.size) : Memory.wf st (Memory.load st m base bs) = true := by
  unfold Memory.wf Memory.load at *
  refine Memory.wfFrom_append st (mid := base) (Memory.wfFrom_filter st _ h) ?_ ?_ (by omega)
  · intro c hc; simpa using List.of_mem_filter hc
  · refine Memory.wfFrom_append st (mid := base + bs.length) (Memory.wfFrom_cells st hs) ?_
      (Memory.wfFrom_filter_ge st h) (by omega)
    intro c hc; exact (Memory.cells_mem st hc).2

/-- Storing a byte inside a store keeps the canonical form. -/
theorem Memory.wf_write {m : Memory} {a : Nat} {b : Byte} (h : Memory.wf st m = true)
    (hs : a < st.size) : Memory.wf st (Memory.write st m a b) = true :=
  Memory.wf_load st h (by simpa using hs)

/-- Giving a range its power-on contents back keeps the canonical form. -/
theorem Memory.wf_restore {m : Memory} {lo hi : Nat} (h : Memory.wf st m = true) :
    Memory.wf st (Memory.restore m lo hi) = true :=
  Memory.wfFrom_filter st _ h

@[simp] theorem Memory.wf_nil : Memory.wf st [] = true := rfl

/-- Canonical stores that read alike are equal data. -/
theorem Memory.ext_of_read {m₁ m₂ : Memory} (h1 : Memory.wf st m₁ = true) (h2 : Memory.wf st m₂ = true)
    (h : ∀ a, Memory.read st m₁ a = Memory.read st m₂ a) : m₁ = m₂ := by
  unfold Memory.wf at h1 h2
  generalize 0 = lo at h1 h2
  induction m₁ generalizing lo m₂ with
  | nil =>
    cases m₂ with
    | nil => rfl
    | cons c m₂ =>
      obtain ⟨k, b⟩ := c
      rw [Memory.wfFrom_cons] at h2
      have := h k
      simp only [Memory.read_nil, Memory.read_cons, if_true] at this
      exact absurd this.symm h2.2.2.1
  | cons c m₁ ih =>
    obtain ⟨k, b⟩ := c
    rw [Memory.wfFrom_cons] at h1
    cases m₂ with
    | nil =>
      have := h k
      simp only [Memory.read_nil, Memory.read_cons, if_true] at this
      exact absurd this h1.2.2.1
    | cons c' m₂ =>
      obtain ⟨k', b'⟩ := c'
      rw [Memory.wfFrom_cons] at h2
      have blank_of_lt : ∀ {m : Memory} {x y : Nat}, Memory.wfFrom st (y + 1) m = true → x ≤ y →
          Memory.read st m x = st.blank x := fun hm hxy =>
        Memory.read_of_not_mem st fun c hc => by have := Memory.wfFrom_le st hm c hc; omega
      rcases Nat.lt_trichotomy k k' with hlt | heq | hgt
      · have := h k
        rw [Memory.read_cons, if_pos rfl, Memory.read_cons, if_neg (by omega),
          blank_of_lt h2.2.2.2 (by omega)] at this
        exact absurd this h1.2.2.1
      · subst heq
        have hb : b = b' := by simpa [Memory.read_cons] using h k
        subst hb
        congr 1
        refine ih (lo := k + 1) ?_ h1.2.2.2 h2.2.2.2
        intro a
        by_cases ha : k = a
        · subst ha
          rw [blank_of_lt h1.2.2.2 (le_refl _), blank_of_lt h2.2.2.2 (le_refl _)]
        · simpa [Memory.read_cons, ha] using h a
      · have := h k'
        rw [Memory.read_cons, if_neg (by omega), blank_of_lt h1.2.2.2 (by omega),
          Memory.read_cons, if_pos rfl] at this
        exact absurd this.symm h2.2.2.1

/-! ## What the stores read as unlisted (R62, R411) -/

@[simp] theorem Store.size_ram : Store.ram.size = 65536 := rfl
@[simp] theorem Store.size_bios : Store.bios.size = 65536 := rfl
@[simp] theorem Store.size_bank : Store.bank.size = 0x4000 := rfl
@[simp] theorem Store.size_header : Store.header.size = 64 := rfl
@[simp] theorem Store.size_oam : Store.oam.size = 3584 := rfl
@[simp] theorem Store.size_tag : Store.tag.size = 512 := rfl
@[simp] theorem Store.size_text : Store.text.size = 1024 := rfl
@[simp] theorem Store.size_pixbuf : Store.pixbuf.size = 65536 := rfl
@[simp] theorem Store.size_frame : Store.frame.size = 262144 := rfl
@[simp] theorem Store.blank_ram (a : Nat) : Store.ram.blank a = ramBlank a := rfl
@[simp] theorem Store.blank_bios (a : Nat) : Store.bios.blank a = 0 := rfl
@[simp] theorem Store.blank_bank (a : Nat) : Store.bank.blank a = 0 := rfl
@[simp] theorem Store.blank_header (a : Nat) : Store.header.blank a = 0xFF := rfl
@[simp] theorem Store.blank_oam (a : Nat) : Store.oam.blank a = 0xFF := rfl
@[simp] theorem Store.blank_tag (a : Nat) : Store.tag.blank a = 0 := rfl
@[simp] theorem Store.blank_text (a : Nat) : Store.text.blank a = 0xFF := rfl
@[simp] theorem Store.blank_pixbuf (a : Nat) : Store.pixbuf.blank a = 0 := rfl
@[simp] theorem Store.blank_frame (a : Nat) : Store.frame.blank a = 0 := rfl

/-- Below audio RAM everything reads 0 after power-on. -/
theorem ramBlank_low {a : Nat} (h : a < 0xF7A0) : ramBlank a = 0 := by
  unfold ramBlank
  rw [cfg_audioBase, cfg_instrBase, cfg_audioEnd, cfg_paletteBase, cfg_paletteEnd,
    if_neg (by omega), if_neg (by omega), if_neg (by omega)]

/-- A channel's register bytes after power-on and after every APU reset: FREQ 0, VOLUME 0xFF, CONTROL 0. -/
theorem ramBlank_channel {c k : Nat} (hc : c < 8) (hk : k < 4) :
    ramBlank (0xF7A0 + 4 * c + k) = if k = 2 then 0xFF else 0x00 := by
  unfold ramBlank
  rw [cfg_audioBase, cfg_instrBase, if_pos (by omega), show (0xF7A0 + 4 * c + k - 0xF7A0) % 4 = k by omega]

/-- The palette after power-on: entry i holds i. -/
theorem ramBlank_palette {i : Nat} (h : i < 16) : ramBlank (0xFFF0 + i) = BitVec.ofNat 8 i := by
  unfold ramBlank
  rw [cfg_audioBase, cfg_instrBase, cfg_audioEnd, cfg_paletteBase, cfg_paletteEnd,
    if_neg (by omega), if_neg (by omega), if_pos (by omega), show 0xFFF0 + i - 0xFFF0 = i by omega]

end Sys2Proof.Machine
end

