-- ==== Sys2Proof/Laws/State.lean ====
section
/-! SUPPORT. What each named update leaves in each part of the state: true by unfolding, stated once, so
that no later proof unfolds a record update. -/

namespace Sys2Proof.Machine

variable (s : State)

@[simp] theorem State.setReg_bus (r : Reg) (v : Word) : (s.setReg r v).bus = s.bus := rfl
@[simp] theorem State.setReg_ppu (r : Reg) (v : Word) : (s.setReg r v).ppu = s.ppu := rfl
@[simp] theorem State.setReg_audio (r : Reg) (v : Word) : (s.setReg r v).audio = s.audio := rfl
@[simp] theorem State.setReg_env (r : Reg) (v : Word) : (s.setReg r v).env = s.env := rfl
@[simp] theorem State.setReg_pc (r : Reg) (v : Word) : (s.setReg r v).cpu.pc = s.cpu.pc := rfl
@[simp] theorem State.setReg_flags (r : Reg) (v : Word) : (s.setReg r v).cpu.flags = s.cpu.flags := rfl
@[simp] theorem State.setReg_stack (r : Reg) (v : Word) : (s.setReg r v).cpu.stack = s.cpu.stack := rfl
@[simp] theorem State.setReg_run (r : Reg) (v : Word) : (s.setReg r v).cpu.run = s.cpu.run := rfl
@[simp] theorem State.setReg_awaitingVblank (r : Reg) (v : Word) :
    (s.setReg r v).cpu.awaitingVblank = s.cpu.awaitingVblank := rfl
@[simp] theorem State.setReg_haltCause (r : Reg) (v : Word) :
    (s.setReg r v).cpu.haltCause = s.cpu.haltCause := rfl

@[simp] theorem State.setFlags_bus (f : Flags) : (s.setFlags f).bus = s.bus := rfl
@[simp] theorem State.setFlags_ppu (f : Flags) : (s.setFlags f).ppu = s.ppu := rfl
@[simp] theorem State.setFlags_audio (f : Flags) : (s.setFlags f).audio = s.audio := rfl
@[simp] theorem State.setFlags_env (f : Flags) : (s.setFlags f).env = s.env := rfl
@[simp] theorem State.setFlags_regs (f : Flags) : (s.setFlags f).cpu.regs = s.cpu.regs := rfl
@[simp] theorem State.setFlags_pc (f : Flags) : (s.setFlags f).cpu.pc = s.cpu.pc := rfl
@[simp] theorem State.setFlags_flags (f : Flags) : (s.setFlags f).cpu.flags = f := rfl
@[simp] theorem State.setFlags_stack (f : Flags) : (s.setFlags f).cpu.stack = s.cpu.stack := rfl
@[simp] theorem State.setFlags_run (f : Flags) : (s.setFlags f).cpu.run = s.cpu.run := rfl
@[simp] theorem State.setFlags_awaitingVblank (f : Flags) :
    (s.setFlags f).cpu.awaitingVblank = s.cpu.awaitingVblank := rfl
@[simp] theorem State.setFlags_haltCause (f : Flags) : (s.setFlags f).cpu.haltCause = s.cpu.haltCause := rfl

@[simp] theorem State.setPc_bus (a : Word) : (s.setPc a).bus = s.bus := rfl
@[simp] theorem State.setPc_ppu (a : Word) : (s.setPc a).ppu = s.ppu := rfl
@[simp] theorem State.setPc_audio (a : Word) : (s.setPc a).audio = s.audio := rfl
@[simp] theorem State.setPc_env (a : Word) : (s.setPc a).env = s.env := rfl
@[simp] theorem State.setPc_regs (a : Word) : (s.setPc a).cpu.regs = s.cpu.regs := rfl
@[simp] theorem State.setPc_pc (a : Word) : (s.setPc a).cpu.pc = a := rfl
@[simp] theorem State.setPc_flags (a : Word) : (s.setPc a).cpu.flags = s.cpu.flags := rfl
@[simp] theorem State.setPc_stack (a : Word) : (s.setPc a).cpu.stack = s.cpu.stack := rfl
@[simp] theorem State.setPc_run (a : Word) : (s.setPc a).cpu.run = s.cpu.run := rfl
@[simp] theorem State.setPc_awaitingVblank (a : Word) :
    (s.setPc a).cpu.awaitingVblank = s.cpu.awaitingVblank := rfl
@[simp] theorem State.setPc_haltCause (a : Word) : (s.setPc a).cpu.haltCause = s.cpu.haltCause := rfl

@[simp] theorem State.advance_bus (n : Nat) : (s.advance n).bus = s.bus := rfl
@[simp] theorem State.advance_ppu (n : Nat) : (s.advance n).ppu = s.ppu := rfl
@[simp] theorem State.advance_audio (n : Nat) : (s.advance n).audio = s.audio := rfl
@[simp] theorem State.advance_env (n : Nat) : (s.advance n).env = s.env := rfl
@[simp] theorem State.advance_regs (n : Nat) : (s.advance n).cpu.regs = s.cpu.regs := rfl
@[simp] theorem State.advance_pc (n : Nat) : (s.advance n).cpu.pc = s.cpu.pc + BitVec.ofNat 16 n := rfl
@[simp] theorem State.advance_flags (n : Nat) : (s.advance n).cpu.flags = s.cpu.flags := rfl
@[simp] theorem State.advance_stack (n : Nat) : (s.advance n).cpu.stack = s.cpu.stack := rfl
@[simp] theorem State.advance_run (n : Nat) : (s.advance n).cpu.run = s.cpu.run := rfl
@[simp] theorem State.advance_awaitingVblank (n : Nat) :
    (s.advance n).cpu.awaitingVblank = s.cpu.awaitingVblank := rfl
@[simp] theorem State.advance_haltCause (n : Nat) : (s.advance n).cpu.haltCause = s.cpu.haltCause := rfl

@[simp] theorem State.setStack_bus (l : List Word) : (s.setStack l).bus = s.bus := rfl
@[simp] theorem State.setStack_ppu (l : List Word) : (s.setStack l).ppu = s.ppu := rfl
@[simp] theorem State.setStack_audio (l : List Word) : (s.setStack l).audio = s.audio := rfl
@[simp] theorem State.setStack_env (l : List Word) : (s.setStack l).env = s.env := rfl
@[simp] theorem State.setStack_regs (l : List Word) : (s.setStack l).cpu.regs = s.cpu.regs := rfl
@[simp] theorem State.setStack_pc (l : List Word) : (s.setStack l).cpu.pc = s.cpu.pc := rfl
@[simp] theorem State.setStack_flags (l : List Word) : (s.setStack l).cpu.flags = s.cpu.flags := rfl
@[simp] theorem State.setStack_stack (l : List Word) : (s.setStack l).cpu.stack = l := rfl
@[simp] theorem State.setStack_run (l : List Word) : (s.setStack l).cpu.run = s.cpu.run := rfl
@[simp] theorem State.setStack_awaitingVblank (l : List Word) :
    (s.setStack l).cpu.awaitingVblank = s.cpu.awaitingVblank := rfl
@[simp] theorem State.setStack_haltCause (l : List Word) :
    (s.setStack l).cpu.haltCause = s.cpu.haltCause := rfl

@[simp] theorem State.halt_bus (why : HaltCause) : (s.halt why).bus = s.bus := rfl
@[simp] theorem State.halt_ppu (why : HaltCause) : (s.halt why).ppu = s.ppu := rfl
@[simp] theorem State.halt_audio (why : HaltCause) : (s.halt why).audio = s.audio := rfl
@[simp] theorem State.halt_env (why : HaltCause) : (s.halt why).env = s.env := rfl
@[simp] theorem State.halt_regs (why : HaltCause) : (s.halt why).cpu.regs = s.cpu.regs := rfl
@[simp] theorem State.halt_pc (why : HaltCause) : (s.halt why).cpu.pc = s.cpu.pc := rfl
@[simp] theorem State.halt_flags (why : HaltCause) : (s.halt why).cpu.flags = s.cpu.flags := rfl
@[simp] theorem State.halt_stack (why : HaltCause) : (s.halt why).cpu.stack = s.cpu.stack := rfl
@[simp] theorem State.halt_run (why : HaltCause) : (s.halt why).cpu.run = .halted := rfl
@[simp] theorem State.halt_awaitingVblank (why : HaltCause) :
    (s.halt why).cpu.awaitingVblank = s.cpu.awaitingVblank := rfl
@[simp] theorem State.halt_haltCause (why : HaltCause) : (s.halt why).cpu.haltCause = why := rfl

@[simp] theorem State.setAwaiting_bus (b : Bool) : (s.setAwaiting b).bus = s.bus := rfl
@[simp] theorem State.setAwaiting_ppu (b : Bool) : (s.setAwaiting b).ppu = s.ppu := rfl
@[simp] theorem State.setAwaiting_audio (b : Bool) : (s.setAwaiting b).audio = s.audio := rfl
@[simp] theorem State.setAwaiting_env (b : Bool) : (s.setAwaiting b).env = s.env := rfl
@[simp] theorem State.setAwaiting_regs (b : Bool) : (s.setAwaiting b).cpu.regs = s.cpu.regs := rfl
@[simp] theorem State.setAwaiting_pc (b : Bool) : (s.setAwaiting b).cpu.pc = s.cpu.pc := rfl
@[simp] theorem State.setAwaiting_flags (b : Bool) : (s.setAwaiting b).cpu.flags = s.cpu.flags := rfl
@[simp] theorem State.setAwaiting_stack (b : Bool) : (s.setAwaiting b).cpu.stack = s.cpu.stack := rfl
@[simp] theorem State.setAwaiting_run (b : Bool) : (s.setAwaiting b).cpu.run = s.cpu.run := rfl
@[simp] theorem State.setAwaiting_awaitingVblank (b : Bool) : (s.setAwaiting b).cpu.awaitingVblank = b := rfl
@[simp] theorem State.setAwaiting_haltCause (b : Bool) :
    (s.setAwaiting b).cpu.haltCause = s.cpu.haltCause := rfl

@[simp] theorem State.cpuReset_bus : s.cpuReset.bus = s.bus := rfl
@[simp] theorem State.cpuReset_ppu : s.cpuReset.ppu = s.ppu := rfl
@[simp] theorem State.cpuReset_audio : s.cpuReset.audio = s.audio := rfl
@[simp] theorem State.cpuReset_env : s.cpuReset.env = s.env := rfl
@[simp] theorem State.cpuReset_cpu : s.cpuReset.cpu = Cpu.reset := rfl

@[simp] theorem State.ramWrite_cpu (a : Nat) (b : Byte) : (s.ramWrite a b).cpu = s.cpu := rfl
@[simp] theorem State.ramWrite_ppu (a : Nat) (b : Byte) : (s.ramWrite a b).ppu = s.ppu := rfl
@[simp] theorem State.ramWrite_audio (a : Nat) (b : Byte) : (s.ramWrite a b).audio = s.audio := rfl
@[simp] theorem State.ramWrite_env (a : Nat) (b : Byte) : (s.ramWrite a b).env = s.env := rfl
@[simp] theorem State.ramWrite_ram (a : Nat) (b : Byte) :
    (s.ramWrite a b).bus.ram = s.bus.ram.write .ram a b := rfl
@[simp] theorem State.ramWrite_bios (a : Nat) (b : Byte) : (s.ramWrite a b).bus.bios = s.bus.bios := rfl
@[simp] theorem State.ramWrite_banks (a : Nat) (b : Byte) : (s.ramWrite a b).bus.banks = s.bus.banks := rfl
@[simp] theorem State.ramWrite_selectedBank (a : Nat) (b : Byte) :
    (s.ramWrite a b).bus.selectedBank = s.bus.selectedBank := rfl
@[simp] theorem State.ramWrite_bootMode (a : Nat) (b : Byte) :
    (s.ramWrite a b).bus.bootMode = s.bus.bootMode := rfl
@[simp] theorem State.ramWrite_powerOn (a : Nat) (b : Byte) :
    (s.ramWrite a b).bus.powerOn = s.bus.powerOn := rfl
@[simp] theorem State.ramWrite_cartHeader (a : Nat) (b : Byte) :
    (s.ramWrite a b).bus.cartHeader = s.bus.cartHeader := rfl

@[simp] theorem State.ramLoad_cpu (a : Nat) (bs : List Byte) : (s.ramLoad a bs).cpu = s.cpu := rfl
@[simp] theorem State.ramLoad_ppu (a : Nat) (bs : List Byte) : (s.ramLoad a bs).ppu = s.ppu := rfl
@[simp] theorem State.ramLoad_audio (a : Nat) (bs : List Byte) : (s.ramLoad a bs).audio = s.audio := rfl
@[simp] theorem State.ramLoad_env (a : Nat) (bs : List Byte) : (s.ramLoad a bs).env = s.env := rfl
@[simp] theorem State.ramLoad_ram (a : Nat) (bs : List Byte) :
    (s.ramLoad a bs).bus.ram = s.bus.ram.load .ram a bs := rfl
@[simp] theorem State.ramLoad_bios (a : Nat) (bs : List Byte) : (s.ramLoad a bs).bus.bios = s.bus.bios := rfl
@[simp] theorem State.ramLoad_banks (a : Nat) (bs : List Byte) :
    (s.ramLoad a bs).bus.banks = s.bus.banks := rfl
@[simp] theorem State.ramLoad_selectedBank (a : Nat) (bs : List Byte) :
    (s.ramLoad a bs).bus.selectedBank = s.bus.selectedBank := rfl
@[simp] theorem State.ramLoad_bootMode (a : Nat) (bs : List Byte) :
    (s.ramLoad a bs).bus.bootMode = s.bus.bootMode := rfl
@[simp] theorem State.ramLoad_powerOn (a : Nat) (bs : List Byte) :
    (s.ramLoad a bs).bus.powerOn = s.bus.powerOn := rfl
@[simp] theorem State.ramLoad_cartHeader (a : Nat) (bs : List Byte) :
    (s.ramLoad a bs).bus.cartHeader = s.bus.cartHeader := rfl

@[simp] theorem State.bankWrite_cpu (a : Nat) (b : Byte) : (s.bankWrite a b).cpu = s.cpu := rfl
@[simp] theorem State.bankWrite_ppu (a : Nat) (b : Byte) : (s.bankWrite a b).ppu = s.ppu := rfl
@[simp] theorem State.bankWrite_audio (a : Nat) (b : Byte) : (s.bankWrite a b).audio = s.audio := rfl
@[simp] theorem State.bankWrite_env (a : Nat) (b : Byte) : (s.bankWrite a b).env = s.env := rfl
@[simp] theorem State.bankWrite_ram (a : Nat) (b : Byte) : (s.bankWrite a b).bus.ram = s.bus.ram := rfl
@[simp] theorem State.bankWrite_bios (a : Nat) (b : Byte) : (s.bankWrite a b).bus.bios = s.bus.bios := rfl
@[simp] theorem State.bankWrite_selectedBank (a : Nat) (b : Byte) :
    (s.bankWrite a b).bus.selectedBank = s.bus.selectedBank := rfl
@[simp] theorem State.bankWrite_bootMode (a : Nat) (b : Byte) :
    (s.bankWrite a b).bus.bootMode = s.bus.bootMode := rfl
@[simp] theorem State.bankWrite_powerOn (a : Nat) (b : Byte) :
    (s.bankWrite a b).bus.powerOn = s.bus.powerOn := rfl
@[simp] theorem State.bankWrite_cartHeader (a : Nat) (b : Byte) :
    (s.bankWrite a b).bus.cartHeader = s.bus.cartHeader := rfl

@[simp] theorem State.setBootMode_cpu (b : Bool) : (s.setBootMode b).cpu = s.cpu := rfl
@[simp] theorem State.setBootMode_ppu (b : Bool) : (s.setBootMode b).ppu = s.ppu := rfl
@[simp] theorem State.setBootMode_audio (b : Bool) : (s.setBootMode b).audio = s.audio := rfl
@[simp] theorem State.setBootMode_env (b : Bool) : (s.setBootMode b).env = s.env := rfl
@[simp] theorem State.setBootMode_ram (b : Bool) : (s.setBootMode b).bus.ram = s.bus.ram := rfl
@[simp] theorem State.setBootMode_bios (b : Bool) : (s.setBootMode b).bus.bios = s.bus.bios := rfl
@[simp] theorem State.setBootMode_banks (b : Bool) : (s.setBootMode b).bus.banks = s.bus.banks := rfl
@[simp] theorem State.setBootMode_selectedBank (b : Bool) :
    (s.setBootMode b).bus.selectedBank = s.bus.selectedBank := rfl
@[simp] theorem State.setBootMode_bootMode (b : Bool) : (s.setBootMode b).bus.bootMode = b := rfl
@[simp] theorem State.setBootMode_powerOn (b : Bool) : (s.setBootMode b).bus.powerOn = s.bus.powerOn := rfl
@[simp] theorem State.setBootMode_cartHeader (b : Bool) :
    (s.setBootMode b).bus.cartHeader = s.bus.cartHeader := rfl

@[simp] theorem State.clearLowMemory_cpu : s.clearLowMemory.cpu = s.cpu := rfl
@[simp] theorem State.clearLowMemory_ppu : s.clearLowMemory.ppu = s.ppu := rfl
@[simp] theorem State.clearLowMemory_audio : s.clearLowMemory.audio = s.audio := rfl
@[simp] theorem State.clearLowMemory_env : s.clearLowMemory.env = s.env := rfl
@[simp] theorem State.clearLowMemory_ram :
    s.clearLowMemory.bus.ram = s.bus.ram.restore 0 cfg.lowmemClearEnd := rfl
@[simp] theorem State.clearLowMemory_bios : s.clearLowMemory.bus.bios = s.bus.bios := rfl
@[simp] theorem State.clearLowMemory_banks : s.clearLowMemory.bus.banks = s.bus.banks := rfl
@[simp] theorem State.clearLowMemory_selectedBank :
    s.clearLowMemory.bus.selectedBank = s.bus.selectedBank := rfl
@[simp] theorem State.clearLowMemory_bootMode : s.clearLowMemory.bus.bootMode = s.bus.bootMode := rfl
@[simp] theorem State.clearLowMemory_powerOn : s.clearLowMemory.bus.powerOn = s.bus.powerOn := rfl
@[simp] theorem State.clearLowMemory_cartHeader : s.clearLowMemory.bus.cartHeader = s.bus.cartHeader := rfl

@[simp] theorem State.resetApu_cpu : s.resetApu.cpu = s.cpu := rfl
@[simp] theorem State.resetApu_ppu : s.resetApu.ppu = s.ppu := rfl
@[simp] theorem State.resetApu_env : s.resetApu.env = s.env := rfl
@[simp] theorem State.resetApu_ram : s.resetApu.bus.ram = s.bus.ram.restore cfg.audioBase cfg.audioEnd := rfl
@[simp] theorem State.resetApu_bios : s.resetApu.bus.bios = s.bus.bios := rfl
@[simp] theorem State.resetApu_banks : s.resetApu.bus.banks = s.bus.banks := rfl
@[simp] theorem State.resetApu_selectedBank : s.resetApu.bus.selectedBank = s.bus.selectedBank := rfl
@[simp] theorem State.resetApu_bootMode : s.resetApu.bus.bootMode = s.bus.bootMode := rfl
@[simp] theorem State.resetApu_powerOn : s.resetApu.bus.powerOn = s.bus.powerOn := rfl
@[simp] theorem State.resetApu_cartHeader : s.resetApu.bus.cartHeader = s.bus.cartHeader := rfl
@[simp] theorem State.resetApu_channels : s.resetApu.audio.channels = Vector.replicate 8 Channel.reset := rfl
@[simp] theorem State.resetApu_seqSamples : s.resetApu.audio.seqSamples = s.audio.seqSamples := rfl
@[simp] theorem State.resetApu_seqCursor : s.resetApu.audio.seqCursor = s.audio.seqCursor := rfl
@[simp] theorem State.resetApu_seqDelay : s.resetApu.audio.seqDelay = s.audio.seqDelay := rfl
@[simp] theorem State.resetApu_seqEnabled : s.resetApu.audio.seqEnabled = s.audio.seqEnabled := rfl

@[simp] theorem State.resetOam_cpu : s.resetOam.cpu = s.cpu := rfl
@[simp] theorem State.resetOam_bus : s.resetOam.bus = s.bus := rfl
@[simp] theorem State.resetOam_audio : s.resetOam.audio = s.audio := rfl
@[simp] theorem State.resetOam_env : s.resetOam.env = s.env := rfl
@[simp] theorem State.resetOam_oam : s.resetOam.ppu.oam = [] := rfl
@[simp] theorem State.resetOam_oamCursor : s.resetOam.ppu.oamCursor = 0 := rfl
@[simp] theorem State.resetOam_oamTag : s.resetOam.ppu.oamTag = [] := rfl
@[simp] theorem State.resetOam_textGrid : s.resetOam.ppu.textGrid = s.ppu.textGrid := rfl
@[simp] theorem State.resetOam_cursorX : s.resetOam.ppu.cursorX = s.ppu.cursorX := rfl
@[simp] theorem State.resetOam_cursorY : s.resetOam.ppu.cursorY = s.ppu.cursorY := rfl
@[simp] theorem State.resetOam_fontColor : s.resetOam.ppu.fontColor = s.ppu.fontColor := rfl
@[simp] theorem State.resetOam_bgColor : s.resetOam.ppu.bgColor = s.ppu.bgColor := rfl
@[simp] theorem State.resetOam_camX : s.resetOam.ppu.camX = s.ppu.camX := rfl
@[simp] theorem State.resetOam_camY : s.resetOam.ppu.camY = s.ppu.camY := rfl
@[simp] theorem State.resetOam_pixbuf : s.resetOam.ppu.pixbuf = s.ppu.pixbuf := rfl
@[simp] theorem State.resetOam_frame : s.resetOam.ppu.frame = s.ppu.frame := rfl

@[simp] theorem State.clearText_cpu : s.clearText.cpu = s.cpu := rfl
@[simp] theorem State.clearText_bus : s.clearText.bus = s.bus := rfl
@[simp] theorem State.clearText_audio : s.clearText.audio = s.audio := rfl
@[simp] theorem State.clearText_env : s.clearText.env = s.env := rfl
@[simp] theorem State.clearText_oam : s.clearText.ppu.oam = s.ppu.oam := rfl
@[simp] theorem State.clearText_oamCursor : s.clearText.ppu.oamCursor = s.ppu.oamCursor := rfl
@[simp] theorem State.clearText_oamTag : s.clearText.ppu.oamTag = s.ppu.oamTag := rfl
@[simp] theorem State.clearText_textGrid : s.clearText.ppu.textGrid = [] := rfl
@[simp] theorem State.clearText_cursorX : s.clearText.ppu.cursorX = s.ppu.cursorX := rfl
@[simp] theorem State.clearText_cursorY : s.clearText.ppu.cursorY = s.ppu.cursorY := rfl
@[simp] theorem State.clearText_fontColor : s.clearText.ppu.fontColor = s.ppu.fontColor := rfl
@[simp] theorem State.clearText_bgColor : s.clearText.ppu.bgColor = s.ppu.bgColor := rfl
@[simp] theorem State.clearText_camX : s.clearText.ppu.camX = s.ppu.camX := rfl
@[simp] theorem State.clearText_camY : s.clearText.ppu.camY = s.ppu.camY := rfl
@[simp] theorem State.clearText_pixbuf : s.clearText.ppu.pixbuf = s.ppu.pixbuf := rfl
@[simp] theorem State.clearText_frame : s.clearText.ppu.frame = s.ppu.frame := rfl

@[simp] theorem State.setFontColor_cpu (v : BitVec 5) : (s.setFontColor v).cpu = s.cpu := rfl
@[simp] theorem State.setFontColor_bus (v : BitVec 5) : (s.setFontColor v).bus = s.bus := rfl
@[simp] theorem State.setFontColor_audio (v : BitVec 5) : (s.setFontColor v).audio = s.audio := rfl
@[simp] theorem State.setFontColor_env (v : BitVec 5) : (s.setFontColor v).env = s.env := rfl
@[simp] theorem State.setFontColor_oam (v : BitVec 5) : (s.setFontColor v).ppu.oam = s.ppu.oam := rfl
@[simp] theorem State.setFontColor_oamCursor (v : BitVec 5) :
    (s.setFontColor v).ppu.oamCursor = s.ppu.oamCursor := rfl
@[simp] theorem State.setFontColor_oamTag (v : BitVec 5) : (s.setFontColor v).ppu.oamTag = s.ppu.oamTag := rfl
@[simp] theorem State.setFontColor_textGrid (v : BitVec 5) :
    (s.setFontColor v).ppu.textGrid = s.ppu.textGrid := rfl
@[simp] theorem State.setFontColor_cursorX (v : BitVec 5) :
    (s.setFontColor v).ppu.cursorX = s.ppu.cursorX := rfl
@[simp] theorem State.setFontColor_cursorY (v : BitVec 5) :
    (s.setFontColor v).ppu.cursorY = s.ppu.cursorY := rfl
@[simp] theorem State.setFontColor_fontColor (v : BitVec 5) : (s.setFontColor v).ppu.fontColor = v := rfl
@[simp] theorem State.setFontColor_bgColor (v : BitVec 5) :
    (s.setFontColor v).ppu.bgColor = s.ppu.bgColor := rfl
@[simp] theorem State.setFontColor_camX (v : BitVec 5) : (s.setFontColor v).ppu.camX = s.ppu.camX := rfl
@[simp] theorem State.setFontColor_camY (v : BitVec 5) : (s.setFontColor v).ppu.camY = s.ppu.camY := rfl
@[simp] theorem State.setFontColor_pixbuf (v : BitVec 5) : (s.setFontColor v).ppu.pixbuf = s.ppu.pixbuf := rfl
@[simp] theorem State.setFontColor_frame (v : BitVec 5) : (s.setFontColor v).ppu.frame = s.ppu.frame := rfl

@[simp] theorem State.resetSequencer_cpu : s.resetSequencer.cpu = s.cpu := rfl
@[simp] theorem State.resetSequencer_bus : s.resetSequencer.bus = s.bus := rfl
@[simp] theorem State.resetSequencer_ppu : s.resetSequencer.ppu = s.ppu := rfl
@[simp] theorem State.resetSequencer_env : s.resetSequencer.env = s.env := rfl
@[simp] theorem State.resetSequencer_channels : s.resetSequencer.audio.channels = s.audio.channels := rfl
@[simp] theorem State.resetSequencer_seqSamples :
    s.resetSequencer.audio.seqSamples = s.audio.seqSamples := rfl
@[simp] theorem State.resetSequencer_seqCursor : s.resetSequencer.audio.seqCursor = 0 := rfl
@[simp] theorem State.resetSequencer_seqDelay : s.resetSequencer.audio.seqDelay = 0 := rfl
@[simp] theorem State.resetSequencer_seqEnabled : s.resetSequencer.audio.seqEnabled = false := rfl

@[simp] theorem State.startSong_cpu (a : Word) : (s.startSong a).cpu = s.cpu := rfl
@[simp] theorem State.startSong_bus (a : Word) : (s.startSong a).bus = s.bus := rfl
@[simp] theorem State.startSong_ppu (a : Word) : (s.startSong a).ppu = s.ppu := rfl
@[simp] theorem State.startSong_env (a : Word) : (s.startSong a).env = s.env := rfl
@[simp] theorem State.startSong_channels (a : Word) : (s.startSong a).audio.channels = s.audio.channels := rfl
@[simp] theorem State.startSong_seqSamples (a : Word) :
    (s.startSong a).audio.seqSamples = s.audio.seqSamples := rfl
@[simp] theorem State.startSong_seqCursor (a : Word) : (s.startSong a).audio.seqCursor = a := rfl
@[simp] theorem State.startSong_seqDelay (a : Word) : (s.startSong a).audio.seqDelay = 0 := rfl
@[simp] theorem State.startSong_seqEnabled (a : Word) : (s.startSong a).audio.seqEnabled = true := rfl

@[simp] theorem State.setSeqCursor_cpu (p : Word) : (s.setSeqCursor p).cpu = s.cpu := rfl
@[simp] theorem State.setSeqCursor_bus (p : Word) : (s.setSeqCursor p).bus = s.bus := rfl
@[simp] theorem State.setSeqCursor_ppu (p : Word) : (s.setSeqCursor p).ppu = s.ppu := rfl
@[simp] theorem State.setSeqCursor_env (p : Word) : (s.setSeqCursor p).env = s.env := rfl
@[simp] theorem State.setSeqCursor_channels (p : Word) :
    (s.setSeqCursor p).audio.channels = s.audio.channels := rfl
@[simp] theorem State.setSeqCursor_seqSamples (p : Word) :
    (s.setSeqCursor p).audio.seqSamples = s.audio.seqSamples := rfl
@[simp] theorem State.setSeqCursor_seqCursor (p : Word) : (s.setSeqCursor p).audio.seqCursor = p := rfl
@[simp] theorem State.setSeqCursor_seqDelay (p : Word) :
    (s.setSeqCursor p).audio.seqDelay = s.audio.seqDelay := rfl
@[simp] theorem State.setSeqCursor_seqEnabled (p : Word) :
    (s.setSeqCursor p).audio.seqEnabled = s.audio.seqEnabled := rfl

@[simp] theorem State.setSeqDelay_cpu (d : Nat) : (s.setSeqDelay d).cpu = s.cpu := rfl
@[simp] theorem State.setSeqDelay_bus (d : Nat) : (s.setSeqDelay d).bus = s.bus := rfl
@[simp] theorem State.setSeqDelay_ppu (d : Nat) : (s.setSeqDelay d).ppu = s.ppu := rfl
@[simp] theorem State.setSeqDelay_env (d : Nat) : (s.setSeqDelay d).env = s.env := rfl
@[simp] theorem State.setSeqDelay_channels (d : Nat) :
    (s.setSeqDelay d).audio.channels = s.audio.channels := rfl
@[simp] theorem State.setSeqDelay_seqSamples (d : Nat) :
    (s.setSeqDelay d).audio.seqSamples = s.audio.seqSamples := rfl
@[simp] theorem State.setSeqDelay_seqCursor (d : Nat) :
    (s.setSeqDelay d).audio.seqCursor = s.audio.seqCursor := rfl
@[simp] theorem State.setSeqDelay_seqDelay (d : Nat) : (s.setSeqDelay d).audio.seqDelay = d := rfl
@[simp] theorem State.setSeqDelay_seqEnabled (d : Nat) :
    (s.setSeqDelay d).audio.seqEnabled = s.audio.seqEnabled := rfl

@[simp] theorem State.modifyChannel_cpu (c : Fin 8) (f : Channel → Channel) :
    (s.modifyChannel c f).cpu = s.cpu := rfl
@[simp] theorem State.modifyChannel_bus (c : Fin 8) (f : Channel → Channel) :
    (s.modifyChannel c f).bus = s.bus := rfl
@[simp] theorem State.modifyChannel_ppu (c : Fin 8) (f : Channel → Channel) :
    (s.modifyChannel c f).ppu = s.ppu := rfl
@[simp] theorem State.modifyChannel_env (c : Fin 8) (f : Channel → Channel) :
    (s.modifyChannel c f).env = s.env := rfl
@[simp] theorem State.modifyChannel_seqSamples (c : Fin 8) (f : Channel → Channel) :
    (s.modifyChannel c f).audio.seqSamples = s.audio.seqSamples := rfl
@[simp] theorem State.modifyChannel_seqCursor (c : Fin 8) (f : Channel → Channel) :
    (s.modifyChannel c f).audio.seqCursor = s.audio.seqCursor := rfl
@[simp] theorem State.modifyChannel_seqDelay (c : Fin 8) (f : Channel → Channel) :
    (s.modifyChannel c f).audio.seqDelay = s.audio.seqDelay := rfl
@[simp] theorem State.modifyChannel_seqEnabled (c : Fin 8) (f : Channel → Channel) :
    (s.modifyChannel c f).audio.seqEnabled = s.audio.seqEnabled := rfl

@[simp] theorem State.logEvent_cpu (e : DebugEvent) : (s.logEvent e).cpu = s.cpu := rfl
@[simp] theorem State.logEvent_bus (e : DebugEvent) : (s.logEvent e).bus = s.bus := rfl
@[simp] theorem State.logEvent_ppu (e : DebugEvent) : (s.logEvent e).ppu = s.ppu := rfl
@[simp] theorem State.logEvent_audio (e : DebugEvent) : (s.logEvent e).audio = s.audio := rfl
@[simp] theorem State.logEvent_inputLatch (e : DebugEvent) :
    (s.logEvent e).env.inputLatch = s.env.inputLatch := rfl
@[simp] theorem State.logEvent_frameCount (e : DebugEvent) :
    (s.logEvent e).env.frameCount = s.env.frameCount := rfl
@[simp] theorem State.logEvent_debugLog (e : DebugEvent) :
    (s.logEvent e).env.debugLog = s.env.debugLog ++ [e] := rfl
@[simp] theorem State.logEvent_audioOut (e : DebugEvent) : (s.logEvent e).env.audioOut = s.env.audioOut := rfl
@[simp] theorem State.logEvent_saveOut (e : DebugEvent) : (s.logEvent e).env.saveOut = s.env.saveOut := rfl
@[simp] theorem State.logEvent_framesShown (e : DebugEvent) :
    (s.logEvent e).env.framesShown = s.env.framesShown := rfl
@[simp] theorem State.logEvent_schedule (e : DebugEvent) : (s.logEvent e).env.schedule = s.env.schedule := rfl
@[simp] theorem State.logEvent_drawIndex (e : DebugEvent) :
    (s.logEvent e).env.drawIndex = s.env.drawIndex := rfl
@[simp] theorem State.logEvent_noiseIndex (e : DebugEvent) :
    (s.logEvent e).env.noiseIndex = s.env.noiseIndex := rfl
@[simp] theorem State.logEvent_pollIndex (e : DebugEvent) :
    (s.logEvent e).env.pollIndex = s.env.pollIndex := rfl

@[simp] theorem State.countInstruction_cpu : s.countInstruction.cpu = s.cpu := rfl
@[simp] theorem State.countInstruction_bus : s.countInstruction.bus = s.bus := rfl
@[simp] theorem State.countInstruction_ppu : s.countInstruction.ppu = s.ppu := rfl
@[simp] theorem State.countInstruction_audio : s.countInstruction.audio = s.audio := rfl
@[simp] theorem State.countInstruction_inputLatch :
    s.countInstruction.env.inputLatch = s.env.inputLatch := rfl
@[simp] theorem State.countInstruction_frameCount :
    s.countInstruction.env.frameCount = s.env.frameCount + 1 := rfl
@[simp] theorem State.countInstruction_debugLog : s.countInstruction.env.debugLog = s.env.debugLog := rfl
@[simp] theorem State.countInstruction_audioOut : s.countInstruction.env.audioOut = s.env.audioOut := rfl
@[simp] theorem State.countInstruction_saveOut : s.countInstruction.env.saveOut = s.env.saveOut := rfl
@[simp] theorem State.countInstruction_framesShown :
    s.countInstruction.env.framesShown = s.env.framesShown := rfl
@[simp] theorem State.countInstruction_schedule : s.countInstruction.env.schedule = s.env.schedule := rfl
@[simp] theorem State.countInstruction_drawIndex : s.countInstruction.env.drawIndex = s.env.drawIndex := rfl
@[simp] theorem State.countInstruction_noiseIndex :
    s.countInstruction.env.noiseIndex = s.env.noiseIndex := rfl
@[simp] theorem State.countInstruction_pollIndex : s.countInstruction.env.pollIndex = s.env.pollIndex := rfl

@[simp] theorem State.setSchedule_cpu (l : List (Nat × HostOp)) : (s.setSchedule l).cpu = s.cpu := rfl
@[simp] theorem State.setSchedule_bus (l : List (Nat × HostOp)) : (s.setSchedule l).bus = s.bus := rfl
@[simp] theorem State.setSchedule_ppu (l : List (Nat × HostOp)) : (s.setSchedule l).ppu = s.ppu := rfl
@[simp] theorem State.setSchedule_audio (l : List (Nat × HostOp)) : (s.setSchedule l).audio = s.audio := rfl
@[simp] theorem State.setSchedule_inputLatch (l : List (Nat × HostOp)) :
    (s.setSchedule l).env.inputLatch = s.env.inputLatch := rfl
@[simp] theorem State.setSchedule_frameCount (l : List (Nat × HostOp)) :
    (s.setSchedule l).env.frameCount = s.env.frameCount := rfl
@[simp] theorem State.setSchedule_debugLog (l : List (Nat × HostOp)) :
    (s.setSchedule l).env.debugLog = s.env.debugLog := rfl
@[simp] theorem State.setSchedule_audioOut (l : List (Nat × HostOp)) :
    (s.setSchedule l).env.audioOut = s.env.audioOut := rfl
@[simp] theorem State.setSchedule_saveOut (l : List (Nat × HostOp)) :
    (s.setSchedule l).env.saveOut = s.env.saveOut := rfl
@[simp] theorem State.setSchedule_framesShown (l : List (Nat × HostOp)) :
    (s.setSchedule l).env.framesShown = s.env.framesShown := rfl
@[simp] theorem State.setSchedule_schedule (l : List (Nat × HostOp)) :
    (s.setSchedule l).env.schedule = l := rfl
@[simp] theorem State.setSchedule_drawIndex (l : List (Nat × HostOp)) :
    (s.setSchedule l).env.drawIndex = s.env.drawIndex := rfl
@[simp] theorem State.setSchedule_noiseIndex (l : List (Nat × HostOp)) :
    (s.setSchedule l).env.noiseIndex = s.env.noiseIndex := rfl
@[simp] theorem State.setSchedule_pollIndex (l : List (Nat × HostOp)) :
    (s.setSchedule l).env.pollIndex = s.env.pollIndex := rfl

end Sys2Proof.Machine
end

