-- ==== Sys2Proof/Laws/Ops.lean ====
section
/-! SUPPORT. For each shared operation, what it can do, said once: register access, bus reads and writes,
taking a fault, the boot handoff. -/

namespace Sys2Proof.Machine

/-! ## Registers -/

theorem State.reg_congr {s t : State} (h : t.cpu.regs = s.cpu.regs) (q : Reg) : t.reg q = s.reg q := by
  simp only [State.reg, h]

theorem State.reg_setReg (s : State) (r q : Reg) (v : Word) :
    (s.setReg r v).reg q = if q = r then v else s.reg q := by
  simp only [State.reg, State.setReg, Vector.getElem_set]
  by_cases h : q = r
  · simp [h]
  · rw [if_neg h, if_neg (fun e => h (BitVec.eq_of_toNat_eq e.symm))]

@[simp] theorem State.reg_setReg_same (s : State) (r : Reg) (v : Word) : (s.setReg r v).reg r = v := by
  simp [State.reg_setReg]

theorem State.reg_setReg_ne (s : State) {r q : Reg} (v : Word) (h : q ≠ r) :
    (s.setReg r v).reg q = s.reg q := by simp [State.reg_setReg, h]

@[simp] theorem State.reg_setFlags (s : State) (f : Flags) (q : Reg) : (s.setFlags f).reg q = s.reg q := rfl
@[simp] theorem State.reg_setPc (s : State) (a : Word) (q : Reg) : (s.setPc a).reg q = s.reg q := rfl
@[simp] theorem State.reg_advance (s : State) (n : Nat) (q : Reg) : (s.advance n).reg q = s.reg q := rfl
@[simp] theorem State.reg_setStack (s : State) (l : List Word) (q : Reg) : (s.setStack l).reg q = s.reg q := rfl
@[simp] theorem State.reg_halt (s : State) (w : HaltCause) (q : Reg) : (s.halt w).reg q = s.reg q := rfl
@[simp] theorem State.reg_setAwaiting (s : State) (b : Bool) (q : Reg) : (s.setAwaiting b).reg q = s.reg q := rfl

@[simp] theorem Cpu.reset_reg (s : State) (q : Reg) : s.cpuReset.reg q = 0 := by
  simp [State.reg, Cpu.reset]

/-! ## Reading the bus -/

/-- A bus read depends on what is behind the bus alone. -/
theorem busRead8_congr {s t : State} (h : t.bus = s.bus) (a : Word) : busRead8 t a = busRead8 s a := by
  obtain ⟨c, b, p, u, e⟩ := s
  obtain ⟨c', b', p', u', e'⟩ := t
  obtain rfl : b' = b := h
  rfl

theorem ramRead_congr {s t : State} (h : t.bus = s.bus) (a : Nat) : t.ramRead a = s.ramRead a := by
  simp only [State.ramRead, h]

@[simp] theorem busRead8_setReg (s : State) (r : Reg) (v : Word) (a : Word) :
    busRead8 (s.setReg r v) a = busRead8 s a := rfl
@[simp] theorem busRead8_setFlags (s : State) (f : Flags) (a : Word) :
    busRead8 (s.setFlags f) a = busRead8 s a := rfl
@[simp] theorem busRead8_setPc (s : State) (p a : Word) : busRead8 (s.setPc p) a = busRead8 s a := rfl
@[simp] theorem busRead8_advance (s : State) (n : Nat) (a : Word) :
    busRead8 (s.advance n) a = busRead8 s a := rfl
@[simp] theorem busRead8_halt (s : State) (w : HaltCause) (a : Word) :
    busRead8 (s.halt w) a = busRead8 s a := rfl
@[simp] theorem ramRead_advance (s : State) (n a : Nat) : (s.advance n).ramRead a = s.ramRead a := rfl
@[simp] theorem ramRead_setFlags (s : State) (f : Flags) (a : Nat) :
    (s.setFlags f).ramRead a = s.ramRead a := rfl

/-- A bus read sees a change of `ram` only at the address itself. -/
theorem busRead8_of_ram {s t : State} {a : Word} (hb : t.bus = { s.bus with ram := t.bus.ram })
    (h : t.ramRead a.toNat = s.ramRead a.toNat) : busRead8 t a = busRead8 s a := by
  simp only [State.ramRead] at h
  unfold busRead8 State.banked State.bank State.ramRead
  rw [hb]
  simp only [h]

/-- Above the boot overlay and outside the bank window a bus read is `ram` in either mode. -/
theorem busRead8_ram (s : State) {a : Word} (h : 0xE000 ≤ a.toNat) : busRead8 s a = s.ramRead a.toNat := by
  unfold busRead8 State.banked inBankWindow
  rw [cfg_atlasTop, cfg_bankBase, cfg_bankEnd, if_neg (by simp; omega), if_neg (by simp; omega)]

@[simp] theorem loByte_toNat (w : Word) : (loByte w).toNat = w.toNat % 256 := by
  simp [loByte]

@[simp] theorem hiByte_toNat (w : Word) : (hiByte w).toNat = w.toNat / 256 := by
  have := w.isLt
  simp only [hiByte, BitVec.extractLsb'_toNat, Nat.shiftRight_eq_div_pow]
  omega

theorem loByte_eq (w : Word) : loByte w = BitVec.ofNat 8 w.toNat := by
  apply BitVec.eq_of_toNat_eq; simp

theorem hiByte_eq (w : Word) : hiByte w = BitVec.ofNat 8 (w.toNat / 256) := by
  have := w.isLt
  apply BitVec.eq_of_toNat_eq; simp; omega

theorem joinBytes_toNat (hi lo : Byte) : (joinBytes hi lo).toNat = lo.toNat + 256 * hi.toNat := by
  have := lo.isLt
  simp only [joinBytes, BitVec.toNat_append]
  rw [Nat.shiftLeft_eq, Nat.mul_comm, ← Nat.two_pow_add_eq_or_of_lt lo.isLt]
  omega

theorem joinBytes_eq (hi lo : Byte) : joinBytes hi lo = wordOf lo hi := by
  have := lo.isLt
  have := hi.isLt
  apply BitVec.eq_of_toNat_eq
  simp only [joinBytes_toNat, wordOf, BitVec.toNat_ofNat]
  omega

@[simp] theorem joinBytes_split (w : Word) : joinBytes (hiByte w) (loByte w) = w := by
  apply BitVec.eq_of_toNat_eq
  simp only [joinBytes_toNat, loByte_toNat, hiByte_toNat]
  omega

/-- A word read is its two byte reads, the low address first (R88). -/
theorem memRead16_eq (s : State) (a : Word) : memRead16 s a = wordOf (busRead8 s a) (busRead8 s (a + 1)) :=
  joinBytes_eq _ _

/-! ## Internal writes -/

theorem ramRead_ramWrite (s : State) (a x : Nat) (b : Byte) :
    (s.ramWrite a b).ramRead x = if x = a then b else s.ramRead x := Memory.read_write .ram _ a x b

theorem ramRead_ramLoad (s : State) (base x : Nat) (bs : List Byte) :
    (s.ramLoad base bs).ramRead x =
      if base ≤ x ∧ x < base + bs.length then bs.getD (x - base) (ramBlank x) else s.ramRead x :=
  Memory.read_load .ram _ base bs x

theorem ramRead_ramLoad_out (s : State) {base x : Nat} {bs : List Byte}
    (h : ¬ (base ≤ x ∧ x < base + bs.length)) : (s.ramLoad base bs).ramRead x = s.ramRead x := by
  rw [ramRead_ramLoad, if_neg h]

/-! ## Resetting the audio unit, and a fault -/

theorem ramRead_resetApu (s : State) (x : Nat) :
    s.resetApu.ramRead x = if 0xF7A0 ≤ x ∧ x ≤ 0xF7FF then ramBlank x else s.ramRead x :=
  Memory.read_restore .ram _ _ _ x

theorem ramRead_clearLowMemory (s : State) (x : Nat) :
    s.clearLowMemory.ramRead x = if x ≤ 0xDFFF then 0 else s.ramRead x := by
  have h : s.clearLowMemory.ramRead x =
      if 0 ≤ x ∧ x ≤ cfg.lowmemClearEnd then ramBlank x else s.ramRead x :=
    Memory.read_restore .ram _ _ _ x
  rw [h, cfg_lowmemClearEnd]
  by_cases hx : x ≤ 0xDFFF
  · rw [if_pos ⟨by omega, hx⟩, if_pos hx, ramBlank_low (by omega)]
  · rw [if_neg (by omega), if_neg hx]

/-- The instrument table after power-on and after every APU reset. -/
theorem ramBlank_instrument {k j : Nat} (hk : k < 16) (hj : j < 4) :
    ramBlank (0xF7C0 + 4 * k + j) = instrumentBlank k j := by
  unfold ramBlank
  rw [cfg_audioBase, cfg_instrBase, cfg_audioEnd, if_neg (by omega), if_pos (by omega),
    show (0xF7C0 + 4 * k + j - 0xF7C0) / 4 = k by omega, show (0xF7C0 + 4 * k + j - 0xF7C0) % 4 = j by omega]

/-- Where audio RAM reads as unlisted and the channels are reset, the audio unit is as `ResetApu` says. -/
theorem apuReset_of {t : State} (hc : t.audio.channels = Vector.replicate 8 Channel.reset)
    (hr : ∀ x, 0xF7A0 ≤ x → x ≤ 0xF7FF → t.ramRead x = ramBlank x) : ApuReset t where
  channels c := by
    rw [hc]; simp [Vector.get]
  freq c h := by
    have h0 := ramBlank_channel (c := c) (k := 0) h (by omega)
    have h1 := ramBlank_channel (c := c) (k := 1) h (by omega)
    refine ⟨?_, ?_⟩
    · rw [hr _ (by omega) (by omega)]; simpa using h0
    · rw [hr _ (by omega) (by omega)]; simpa using h1
  volume c h := by
    rw [hr _ (by omega) (by omega), ramBlank_channel h (by omega)]; simp
  control c h := by
    rw [hr _ (by omega) (by omega), ramBlank_channel h (by omega)]; simp
  instruments k j hk hj := by
    rw [hr _ (by omega) (by omega), ramBlank_instrument hk hj]

theorem oamReset_of {t : State} (h1 : t.ppu.oam = []) (h2 : t.ppu.oamTag = []) (h3 : t.ppu.oamCursor = 0) :
    OamReset t where
  bytes a := by rw [h1]; rfl
  tags a := by rw [h2]; rfl
  cursor := h3

/-- All that the fault handler does (R460). -/
theorem faultHandler_taken (kind : FaultKind) (s : State) :
    FaultTaken kind kind.code s (s.faultHandler kind) := by
  have hr : ∀ x, (s.faultHandler kind).ramRead x =
      if 0xF7A0 ≤ x ∧ x ≤ 0xF7FF then ramBlank x
      else if x ≤ 0xDFFF then 0 else if x = 0xFFEA then kind.code else s.ramRead x := by
    intro x
    have h1 : (s.faultHandler kind).ramRead x =
        ((((s.logEvent (.fault kind s.cpu.pc)).ramWrite sysErrorAddr kind.code).halt
          (.fault kind)).clearLowMemory.resetApu).ramRead x := rfl
    rw [h1, ramRead_resetApu, ramRead_clearLowMemory]
    have h2 : (((s.logEvent (.fault kind s.cpu.pc)).ramWrite sysErrorAddr kind.code).halt
        (.fault kind)).ramRead x = (s.ramWrite 0xFFEA kind.code).ramRead x := rfl
    rw [h2, ramRead_ramWrite]
  exact
    { halted := ⟨rfl, rfl⟩
      cpu := rfl
      bootMode := rfl
      error := by rw [hr]; simp
      low := by
        intro a ha
        rw [hr, if_neg (by omega), if_pos ha]
      apu := apuReset_of rfl (fun x h1 h2 => by rw [hr, if_pos ⟨h1, h2⟩])
      oam := oamReset_of rfl rfl rfl
      sequencer := ⟨rfl, rfl, rfl⟩
      seqSamples := rfl
      kept := by
        intro a h1 h2 h3
        rw [hr, if_neg h2, if_neg (by omega), if_neg h3]
      bus := rfl
      ppu := rfl
      env := rfl }

/-- A fault is suppressed while `power_on` is 1 (R461). -/
theorem takeFault_suppressed {kind : FaultKind} {s : State} (h : s.bus.powerOn = true) :
    takeFault kind s = .goOn s := by simp [takeFault, h]

theorem takeFault_taken {kind : FaultKind} {s : State} (h : s.bus.powerOn = false) :
    takeFault kind s = .ended (s.faultHandler kind) := by simp [takeFault, h]

/-! ## The boot handoff -/

theorem length_handoffPalette (s : State) : (handoffPalette s).length = 16 := by simp [handoffPalette]

/-- All that the boot handoff does (R416). -/
theorem bootHandoff_taken (s : State) : HandoffTaken s s.bootHandoff := by
  have hr : ∀ x, s.bootHandoff.ramRead x =
      if 0xFFF0 ≤ x ∧ x < 0xFFF0 + 16 then (handoffPalette s).getD (x - 0xFFF0) (ramBlank x)
      else if 0xF7A0 ≤ x ∧ x ≤ 0xF7FF then ramBlank x else s.ramRead x := by
    intro x
    have h1 : s.bootHandoff.ramRead x = (s.resetApu.ramLoad 0xFFF0 (handoffPalette s)).ramRead x := rfl
    rw [h1, ramRead_ramLoad, length_handoffPalette, ramRead_resetApu]
  exact
    { regs := fun r => Cpu.reset_reg s r
      pc := rfl
      flags := rfl
      stack := rfl
      run := ⟨rfl, rfl, rfl⟩
      mode := ⟨rfl, rfl⟩
      palette := by
        intro i hi
        rw [hr, if_pos (by omega), show 0xFFF0 + i - 0xFFF0 = i by omega]
        unfold handoffPalette
        rw [List.getD_eq_getElem?_getD, List.getElem?_map, List.getElem?_range hi]
        rfl
      apu := apuReset_of rfl (fun x h1 h2 => by rw [hr, if_neg (by omega), if_pos ⟨h1, h2⟩])
      oam := oamReset_of rfl rfl rfl
      text := fun a => rfl
      fontColour := rfl
      sequencer := ⟨rfl, rfl, rfl⟩
      seqSamples := rfl
      kept := by
        intro a h1 h2
        rw [hr, if_neg (by omega), if_neg h2]
      bus := rfl
      ppu := rfl
      env := rfl }

/-! ## Writing the bus -/

theorem protects_iff (s : State) (a : Word) : s.protects a = true ↔ s.Protected a := by
  unfold State.protects State.Protected
  rw [Bool.and_eq_true, decide_eq_true_eq, Bool.not_eq_true']
  exact Iff.rfl

theorem handsOff_iff (s : State) (a : Word) (b : Byte) : s.handsOff a b = true ↔ s.Triggers a b := by
  have h : a.toNat = 0xFFE8 ↔ a = 0xFFE8 :=
    ⟨fun e => BitVec.eq_of_toNat_eq (by simpa using e), fun e => by rw [e]; rfl⟩
  unfold State.handsOff State.Triggers
  rw [Bool.and_eq_true, Bool.and_eq_true, decide_eq_true_eq, decide_eq_true_eq, and_assoc]
  exact and_congr Iff.rfl (and_congr h Iff.rfl)

/-- A byte write the bus accepts (R84). -/
theorem busWrite8_accepted {s : State} {a : Word} {b : Byte} (h : s.Accepts a b) :
    busWrite8 a b s = .goOn (s.place a b) := by
  unfold busWrite8
  rw [if_neg (by rw [protects_iff]; exact h.1), if_neg (by rw [handsOff_iff]; exact h.2)]

/-- A byte write the bus rejects (R85). -/
theorem busWrite8_protected {s : State} {a : Word} {b : Byte} (h : s.Protected a) :
    busWrite8 a b s = takeFault .reservedWrite s := by
  unfold busWrite8
  rw [if_pos ((protects_iff s a).mpr h)]

/-- A byte write in boot mode lands in `ram` (R84). -/
theorem place_boot {s : State} (h : s.bus.bootMode = true) (a : Word) (b : Byte) :
    s.place a b = s.ramWrite a.toNat b := by
  simp [State.place, State.banked, h]

/-- The byte write that hands off (R416). -/
theorem busWrite8_handoff {s : State} {a : Word} {b : Byte} (h : s.Triggers a b) :
    busWrite8 a b s = .ended (s.ramWrite a.toNat b).bootHandoff := by
  unfold busWrite8
  rw [if_neg (by rw [protects_iff]; exact fun hp => absurd (h.1.symm.trans hp.1) (by decide)), if_pos ((handsOff_iff s a b).mpr h), place_boot h.1]

/-- Every outcome of a byte write: it lands, it is suppressed, it faults, or it hands off. -/
theorem busWrite8_cases (a : Word) (b : Byte) (s : State) :
    (s.Accepts a b ∧ busWrite8 a b s = .goOn (s.place a b)) ∨
    (s.Protected a ∧ s.bus.powerOn = true ∧ busWrite8 a b s = .goOn s) ∨
    (s.Protected a ∧ s.bus.powerOn = false ∧ busWrite8 a b s = .ended (s.faultHandler .reservedWrite)) ∨
    (s.Triggers a b ∧ busWrite8 a b s = .ended (s.ramWrite a.toNat b).bootHandoff) := by
  by_cases hp : s.Protected a
  · by_cases hpo : s.bus.powerOn = true
    · exact .inr (.inl ⟨hp, hpo, by rw [busWrite8_protected hp, takeFault_suppressed hpo]⟩)
    · have hpo : s.bus.powerOn = false := by simpa using hpo
      exact .inr (.inr (.inl ⟨hp, hpo, by rw [busWrite8_protected hp, takeFault_taken hpo]⟩))
  · by_cases ht : s.Triggers a b
    · exact .inr (.inr (.inr ⟨ht, busWrite8_handoff ht⟩))
    · exact .inl ⟨⟨hp, ht⟩, busWrite8_accepted ⟨hp, ht⟩⟩

@[simp] theorem place_cpu (s : State) (a : Word) (b : Byte) : (s.place a b).cpu = s.cpu := by
  unfold State.place; split <;> rfl
@[simp] theorem place_ppu (s : State) (a : Word) (b : Byte) : (s.place a b).ppu = s.ppu := by
  unfold State.place; split <;> rfl
@[simp] theorem place_audio (s : State) (a : Word) (b : Byte) : (s.place a b).audio = s.audio := by
  unfold State.place; split <;> rfl
@[simp] theorem place_env (s : State) (a : Word) (b : Byte) : (s.place a b).env = s.env := by
  unfold State.place; split <;> rfl
@[simp] theorem place_bootMode (s : State) (a : Word) (b : Byte) :
    (s.place a b).bus.bootMode = s.bus.bootMode := by
  unfold State.place; split <;> rfl
@[simp] theorem place_powerOn (s : State) (a : Word) (b : Byte) :
    (s.place a b).bus.powerOn = s.bus.powerOn := by
  unfold State.place; split <;> rfl
@[simp] theorem place_selectedBank (s : State) (a : Word) (b : Byte) :
    (s.place a b).bus.selectedBank = s.bus.selectedBank := by
  unfold State.place; split <;> rfl
@[simp] theorem place_bankCount (s : State) (a : Word) (b : Byte) :
    (s.place a b).bus.banks.length = s.bus.banks.length := by
  unfold State.place; split <;> simp
  simp [State.bankWrite]

theorem place_bus (s : State) (a : Word) (b : Byte) :
    (s.place a b).bus = { s.bus with ram := (s.place a b).bus.ram, banks := (s.place a b).bus.banks } := by
  unfold State.place; split <;> rfl

@[simp] theorem place_banked (s : State) (a x : Word) (b : Byte) :
    (s.place a b).banked x = s.banked x := by
  simp [State.banked]

/-- A banked address lies in the window. -/
theorem banked_window {s : State} {a : Word} (h : s.banked a = true) :
    0x8000 ≤ a.toNat ∧ a.toNat ≤ 0xBFFF ∧ s.bus.bootMode = false ∧ 0 < s.bus.banks.length := by
  unfold State.banked inBankWindow at h
  rw [Bool.and_eq_true, Bool.and_eq_true, Bool.and_eq_true, decide_eq_true_eq, decide_eq_true_eq,
    decide_eq_true_eq, Bool.not_eq_true'] at h
  exact ⟨h.2.1, h.2.2, h.1.1, h.1.2⟩

/-- The store a write lands in, and nothing else, holds the byte: read where writes land. -/
theorem storedByte_place {s : State} (hs : s.bus.banks = [] ∨ s.bus.selectedBank < s.bus.banks.length)
    (a x : Word) (b : Byte) : storedByte (s.place a b) x = if x = a then b else storedByte s x := by
  unfold storedByte
  rw [place_banked]
  by_cases ha : s.banked a = true
  · have hlt : s.bus.selectedBank < s.bus.banks.length := by
      rcases hs with h | h
      · simp [State.banked, h] at ha
      · exact h
    have hp : s.place a b = s.bankWrite (a.toNat - 0x8000) b := by
      unfold State.place; rw [if_pos ha, cfg_bankBase]
    have hbank : (s.place a b).bank = s.bank.write .bank (a.toNat - 0x8000) b := by
      rw [hp]
      simp [State.bank, State.bankWrite, hlt]
    rw [hbank, hp]
    by_cases hx : s.banked x = true
    · rw [if_pos hx, if_pos hx, Memory.read_write]
      have w1 := (banked_window ha).1
      have w2 := (banked_window hx).1
      by_cases hxa : x = a
      · simp [hxa]
      · have : x.toNat ≠ a.toNat := fun e => hxa (BitVec.eq_of_toNat_eq e)
        rw [if_neg hxa, if_neg (by omega)]
    · rw [if_neg hx, if_neg hx, if_neg (fun e : x = a => hx (e ▸ ha))]
      rfl
  · have hp : s.place a b = s.ramWrite a.toNat b := by
      unfold State.place; rw [if_neg ha]
    rw [hp]
    by_cases hx : s.banked x = true
    · rw [if_pos hx, if_pos hx, if_neg (fun e : x = a => ha (e ▸ hx))]
      rfl
    · rw [if_neg hx, if_neg hx, ramRead_ramWrite]
      by_cases hxa : x = a
      · simp [hxa]
      · rw [if_neg hxa, if_neg (fun e => hxa (BitVec.eq_of_toNat_eq e))]

/-- What the bus reads is the BIOS below the overlay and what was stored elsewhere. -/
theorem busRead8_stored (s : State) (a : Word) :
    busRead8 s a = if s.bus.bootMode = true ∧ a.toNat ≤ 0xDFFF then s.bus.bios.read .bios a.toNat
      else storedByte s a := by
  unfold busRead8 storedByte
  by_cases h : s.bus.bootMode = true ∧ a.toNat ≤ 0xDFFF
  · rw [if_pos h, if_pos (by rw [Bool.and_eq_true, decide_eq_true_eq]; exact h)]
  · rw [if_neg h, if_neg (by rw [Bool.and_eq_true, decide_eq_true_eq]; exact h)]
    rfl

/-- All that an accepted byte write does to what is behind the bus. -/
theorem place_stores {s : State} (hs : s.bus.banks = [] ∨ s.bus.selectedBank < s.bus.banks.length)
    (a : Word) (b : Byte) : StoredBytes [(a, b)] s (s.place a b) where
  written p hp := by
    obtain rfl := List.mem_singleton.mp hp
    rw [storedByte_place hs, if_pos rfl]
  kept x hx := by
    rw [storedByte_place hs, if_neg (fun e => hx (a, b) (by simp) e.symm)]
  readBack p hp := by
    obtain rfl := List.mem_singleton.mp hp
    rw [busRead8_stored, busRead8_stored, place_bootMode]
    by_cases hb : s.bus.bootMode = true ∧ a.toNat ≤ 0xDFFF
    · rw [if_pos hb, if_pos hb, if_pos hb, place_bus]
    · rw [if_neg hb, if_neg hb, storedByte_place hs, if_pos rfl]
  bytes x hx := by
    rw [busRead8_stored, busRead8_stored, place_bootMode, storedByte_place hs,
      if_neg (fun e : x = a => hx (a, b) (by simp) e.symm), place_bus]
  underBank x hx := by
    unfold State.place
    split
    · rfl
    · rename_i h
      rw [ramRead_ramWrite, if_neg]
      intro e
      exact h ((BitVec.eq_of_toNat_eq e) ▸ hx)
  boot hb := by
    have hn : s.banked a = false := by simp [State.banked, hb]
    rw [State.place, if_neg (by simp [hn])]
    refine ⟨rfl, fun p hp => ?_⟩
    obtain rfl := List.mem_singleton.mp hp
    rw [ramRead_ramWrite, if_pos rfl]
  otherBanks j hj := by
    unfold State.place
    split
    · simp [State.bankWrite, Ne.symm hj]
    · rfl
  bankCount := place_bankCount s a b
  rest := place_bus s a b

/-- In boot mode a write lands in `ram`, whatever banks there are (R84). -/
theorem storedByte_boot {s : State} {a : Word} (h : s.bus.bootMode = true) :
    storedByte s a = s.ramRead a.toNat := by simp [storedByte, State.banked, h]

/-- Two bytes stored one after the other, at different addresses. -/
theorem StoredBytes.andThen {s t u : State} {a b : Word} {x y : Byte} (h1 : StoredBytes [(a, x)] s t)
    (h2 : StoredBytes [(b, y)] t u) (hab : a ≠ b) : StoredBytes [(a, x), (b, y)] s u where
  written p hp := by
    rcases List.mem_cons.mp hp with rfl | hp
    · rw [h2.kept _ (by simpa using Ne.symm hab)]
      exact h1.written _ (by simp)
    · exact h2.written _ hp
  kept z hz := by
    rw [h2.kept z (fun p hp => hz p (by simp_all)), h1.kept z (fun p hp => hz p (by simp_all))]
  readBack p hp := by
    have hm : t.bus.bootMode = s.bus.bootMode := by rw [h1.rest]
    rcases List.mem_cons.mp hp with rfl | hp
    · rw [h2.bytes _ (by simpa using Ne.symm hab)]
      exact h1.readBack _ (by simp)
    · have h := h2.readBack p hp
      obtain rfl := List.mem_singleton.mp hp
      rw [hm, h1.bytes b (by simpa using hab)] at h
      exact h
  bytes z hz := by
    rw [h2.bytes z (fun p hp => hz p (by simp_all)), h1.bytes z (fun p hp => hz p (by simp_all))]
  underBank z hz := by
    have hb : t.banked z = s.banked z := by
      have hn := h1.bankCount
      have hm : t.bus.bootMode = s.bus.bootMode := by rw [h1.rest]
      unfold State.banked
      rw [hn, hm]
    rw [h2.underBank z (hb ▸ hz), h1.underBank z hz]
  boot hb := by
    have hm : t.bus.bootMode = true := by rw [h1.rest]; exact hb
    have hmu : u.bus.bootMode = true := by rw [h2.rest]; exact hm
    obtain ⟨hb1, hx⟩ := h1.boot hb
    obtain ⟨hb2, hy⟩ := h2.boot hm
    refine ⟨hb2.trans hb1, fun p hp => ?_⟩
    rcases List.mem_cons.mp hp with rfl | hp
    · have hk := h2.kept a (by simpa using Ne.symm hab)
      rw [storedByte_boot hm, storedByte_boot hmu] at hk
      exact hk.trans (hx (a, x) List.mem_cons_self)
    · exact hy p hp
  otherBanks j hj := by
    have hsel : t.bus.selectedBank = s.bus.selectedBank := by rw [h1.rest]
    rw [h2.otherBanks j (hsel ▸ hj), h1.otherBanks j hj]
  bankCount := h2.bankCount.trans h1.bankCount
  rest := by rw [h2.rest, h1.rest]

theorem Accepts_place {s : State} {a x : Word} {b y : Byte} :
    (s.place a b).Accepts x y ↔ s.Accepts x y := by
  simp only [State.Accepts, State.Protected, State.Triggers, place_bootMode]

theorem word_ne_succ (a : Word) : a ≠ a + 1 := by
  intro h
  have := congrArg BitVec.toNat h
  simp at this
  omega

/-- A word write whose two bytes the bus accepts (R89). -/
theorem memWrite16_accepted {s : State} {a v : Word} (h1 : s.Accepts a (loByte v))
    (h2 : s.Accepts (a + 1) (hiByte v)) :
    memWrite16 a v s = .goOn ((s.place a (loByte v)).place (a + 1) (hiByte v)) := by
  rw [memWrite16, busWrite8_accepted h1, Flow.andThen, busWrite8_accepted (Accepts_place.mpr h2)]

/-- What an accepted word write stores. -/
theorem memWrite16_stores {s : State} (hs : s.bus.banks = [] ∨ s.bus.selectedBank < s.bus.banks.length)
    (a v : Word) :
    StoredBytes [(a, loByte v), (a + 1, hiByte v)] s ((s.place a (loByte v)).place (a + 1) (hiByte v)) := by
  refine (place_stores hs a _).andThen (place_stores ?_ (a + 1) _) (word_ne_succ a)
  rw [place_selectedBank, place_bankCount]
  rcases hs with h | h
  · left
    have := place_bankCount s a (loByte v)
    rw [h] at this
    exact List.eq_nil_of_length_eq_zero this
  · exact .inr h

/-- R100, R413: where the frame agent is next, the step is its move on the schedule it leaves. -/
theorem State.FrameAgentMoves.step_eq {s : State} {later : List (Nat × HostOp)} (h : s.FrameAgentMoves later) :
    step s = frameMove (s.setSchedule later) := by
  unfold step move
  rcases h with ⟨h, rfl⟩ | ⟨n, op, rest, h, rfl⟩
  · have hs : s.setSchedule [] = s := by rw [← h]; rfl
    rw [h, hs]
  · rw [h]

end Sys2Proof.Machine
end

