-- ==== Sys2Proof/Laws/Invariant.lean ====
section
/-! SUPPORT. Each named operation keeps the invariant: one lemma per operation, which a proof about the
step cites instead of unfolding the operation. -/

namespace Sys2Proof.Machine

variable {s : State}

/-- A state that differs in parts the invariant does not bound keeps it. -/
theorem State.Inv.of_parts (h : s.Inv) {t : State} (hb : t.bus = s.bus) (hp : t.ppu = s.ppu)
    (ha : t.audio = s.audio) (hr : t.cpu.run = s.cpu.run) (hc : t.cpu.haltCause = s.cpu.haltCause)
    (hf : t.env.frameCount ≤ 16000) : t.Inv where
  bus := hb ▸ h.bus
  ppu := hp ▸ h.ppu
  audio := ha ▸ h.audio
  halt := by rw [hr, hc]; exact h.halt
  budget := hf

theorem State.Inv.of_bus (h : s.Inv) {b : Bus} (hb : b.Ok) : ({ s with bus := b } : State).Inv :=
  ⟨hb, h.ppu, h.audio, h.halt, h.budget⟩

theorem State.Inv.of_ppu (h : s.Inv) {p : Ppu} (hp : p.Ok) : ({ s with ppu := p } : State).Inv :=
  ⟨h.bus, hp, h.audio, h.halt, h.budget⟩

theorem State.Inv.of_audio (h : s.Inv) {a : Audio} (ha : a.Ok) : ({ s with audio := a } : State).Inv :=
  ⟨h.bus, h.ppu, ha, h.halt, h.budget⟩

/-! ## CPU -/

theorem State.Inv.setReg (h : s.Inv) (r : Reg) (v : Word) : (s.setReg r v).Inv :=
  h.of_parts rfl rfl rfl rfl rfl h.budget

theorem State.Inv.setFlags (h : s.Inv) (f : Flags) : (s.setFlags f).Inv :=
  h.of_parts rfl rfl rfl rfl rfl h.budget

theorem State.Inv.setPc (h : s.Inv) (a : Word) : (s.setPc a).Inv := h.of_parts rfl rfl rfl rfl rfl h.budget

theorem State.Inv.advance (h : s.Inv) (n : Nat) : (s.advance n).Inv := h.setPc _

theorem State.Inv.setStack (h : s.Inv) (l : List Word) : (s.setStack l).Inv :=
  h.of_parts rfl rfl rfl rfl rfl h.budget

theorem State.Inv.setAwaiting (h : s.Inv) (b : Bool) : (s.setAwaiting b).Inv :=
  h.of_parts rfl rfl rfl rfl rfl h.budget

theorem State.Inv.logEvent (h : s.Inv) (e : DebugEvent) : (s.logEvent e).Inv :=
  h.of_parts rfl rfl rfl rfl rfl h.budget

theorem State.Inv.halted (h : s.Inv) {w : HaltCause} (hw : w ≠ .notHalted) : (s.halt w).Inv :=
  ⟨h.bus, h.ppu, h.audio, ⟨fun _ => hw, fun _ => rfl⟩, h.budget⟩

theorem State.Inv.cpuReset (h : s.Inv) : s.cpuReset.Inv :=
  ⟨h.bus, h.ppu, h.audio, by simp [State.cpuReset, Cpu.reset], h.budget⟩

theorem State.Inv.unknownOpcode (h : s.Inv) (e : DebugEvent) : (s.unknownOpcode e).Inv :=
  ((h.logEvent e).halted (by simp)).advance 1

/-! ## Writes behind the bus -/

theorem Bus.Ok.withRam {b : Bus} (h : b.Ok) {m : Memory} (hm : m.wf .ram = true) :
    ({ b with ram := m } : Bus).Ok := ⟨hm, h.bios, h.banks, h.header, h.selection, h.powerOn⟩

theorem State.Inv.ramLoad (h : s.Inv) {base : Nat} {bytes : List Byte} (hs : base + bytes.length ≤ 65536) :
    (s.ramLoad base bytes).Inv := h.of_bus (h.bus.withRam (Memory.wf_load _ h.bus.ram hs))

theorem State.Inv.ramWrite (h : s.Inv) {a : Nat} (ha : a < 65536) (b : Byte) : (s.ramWrite a b).Inv :=
  h.of_bus (h.bus.withRam (Memory.wf_write _ h.bus.ram ha))

theorem State.Inv.bankWrite (h : s.Inv) {a : Nat} (ha : a < 0x4000) (b : Byte) : (s.bankWrite a b).Inv := by
  refine h.of_bus ⟨h.bus.ram, h.bus.bios, ?_, h.bus.header, ?_, h.bus.powerOn⟩
  · intro m hm
    obtain ⟨j, hj, rfl⟩ := List.mem_iff_getElem.mp hm
    rw [List.getElem_modify]
    rw [List.length_modify] at hj
    split
    · exact Memory.wf_write .bank (h.bus.banks _ (List.getElem_mem hj)) ha
    · exact h.bus.banks _ (List.getElem_mem hj)
  · rcases h.bus.selection with he | hl
    · left; simp [he]
    · right; simpa using hl

theorem State.Inv.place (h : s.Inv) (a : Word) (b : Byte) : (s.place a b).Inv := by
  unfold State.place
  by_cases hb : s.banked a = true
  · rw [if_pos hb]
    have := banked_window hb
    exact h.bankWrite (by rw [cfg_bankBase]; omega) b
  · rw [if_neg hb]
    exact h.ramWrite a.isLt b

/-! ## Resets, faults, the handoff -/

theorem Channel.reset_ok : Channel.reset.Ok := by
  constructor <;> norm_num [Channel.reset]

theorem reset_channels_ok (c : Fin 8) : ((Vector.replicate 8 Channel.reset).get c).Ok := by
  simpa [Vector.get] using Channel.reset_ok

theorem State.Inv.resetOam (h : s.Inv) : s.resetOam.Inv :=
  h.of_ppu ⟨rfl, rfl, h.ppu.text, h.ppu.pixbuf, h.ppu.frame, by norm_num, h.ppu.camX, h.ppu.camY, h.ppu.colours⟩

theorem State.Inv.clearText (h : s.Inv) : s.clearText.Inv :=
  h.of_ppu ⟨h.ppu.oam, h.ppu.tag, rfl, h.ppu.pixbuf, h.ppu.frame, h.ppu.cursor, h.ppu.camX, h.ppu.camY,
    h.ppu.colours⟩

theorem State.Inv.setFontColor (h : s.Inv) (v : BitVec 5) : (s.setFontColor v).Inv :=
  h.of_ppu ⟨h.ppu.oam, h.ppu.tag, h.ppu.text, h.ppu.pixbuf, h.ppu.frame, h.ppu.cursor, h.ppu.camX, h.ppu.camY,
    h.ppu.colours⟩

theorem State.Inv.resetSequencer (h : s.Inv) : s.resetSequencer.Inv :=
  h.of_audio ⟨h.audio.channels, by norm_num, h.audio.samples⟩

theorem State.Inv.resetApu (h : s.Inv) : s.resetApu.Inv where
  bus := h.bus.withRam (Memory.wf_restore _ h.bus.ram)
  ppu := h.ppu
  audio := ⟨reset_channels_ok, h.audio.delay, h.audio.samples⟩
  halt := h.halt
  budget := h.budget

theorem State.Inv.clearLowMemory (h : s.Inv) : s.clearLowMemory.Inv :=
  h.of_bus (h.bus.withRam (Memory.wf_restore _ h.bus.ram))

theorem State.Inv.enterBootMode (h : s.Inv) : (s.setBootMode true).Inv :=
  h.of_bus ⟨h.bus.ram, h.bus.bios, h.bus.banks, h.bus.header, h.bus.selection, fun _ => rfl⟩

theorem State.Inv.faultHandler (h : s.Inv) (kind : FaultKind) : (s.faultHandler kind).Inv := by
  unfold State.faultHandler
  exact (((((((h.logEvent _).ramWrite (by decide) _).halted (by simp)).clearLowMemory).resetOam).resetSequencer).resetApu).enterBootMode

theorem State.Inv.enterCartridgeMode (h : s.Inv) :
    ({ s with bus := { s.bus with bootMode := false, powerOn := false } } : State).Inv :=
  h.of_bus ⟨h.bus.ram, h.bus.bios, h.bus.banks, h.bus.header, h.bus.selection, fun hp => by cases hp⟩

theorem State.Inv.loadPalette (h : s.Inv) (u : State) :
    (s.ramLoad cfg.paletteBase (handoffPalette u)).Inv :=
  h.ramLoad (by rw [length_handoffPalette, cfg_paletteBase])

theorem State.Inv.bootHandoff (h : s.Inv) : s.bootHandoff.Inv := by
  unfold State.bootHandoff
  have h1 := (((((h.halted (w := .host) (by simp)).resetOam).resetApu).resetSequencer).clearText).setFontColor
    cfg.fontColorDefault
  exact (h1.loadPalette _).enterCartridgeMode.cpuReset

/-! ## Parts of an instruction that can end it -/

/-- Either way a part of an instruction leaves it, the invariant holds. -/
def Flow.Inv : Flow → Prop
  | .goOn s => s.Inv
  | .ended s => s.Inv

theorem takeFault_inv (h : s.Inv) (kind : FaultKind) : (takeFault kind s).Inv := by
  unfold takeFault
  split
  · exact h
  · exact h.faultHandler kind

theorem Flow.Inv.andThen {f : Flow} (h : f.Inv) {g : State → Flow} (hg : ∀ t : State, t.Inv → (g t).Inv) :
    (f.andThen g).Inv := by
  cases f with
  | goOn t => exact hg t h
  | ended t => exact h

theorem Flow.Inv.finish {f : Flow} (h : f.Inv) {n : Nat} {t : State} (ht : f.finish n = .next t) : t.Inv := by
  cases f with
  | goOn u => cases ht; exact State.Inv.advance h n
  | ended u => cases ht; exact h

theorem busWrite8_inv (h : s.Inv) (a : Word) (b : Byte) : (busWrite8 a b s).Inv := by
  unfold busWrite8
  split
  · exact takeFault_inv h _
  · split
    · exact (h.place a b).bootHandoff
    · exact h.place a b

theorem memWrite16_inv (h : s.Inv) (a v : Word) : (memWrite16 a v s).Inv :=
  (busWrite8_inv h a _).andThen fun _ ht => busWrite8_inv ht _ _

/-! ## Audio triggers -/

theorem channelAddr_lt (c : Fin 8) {k : Nat} (hk : k < 4) : channelAddr c k < 65536 := by
  have := c.isLt
  unfold channelAddr
  rw [cfg_audioBase]
  omega

theorem get_set (v : Vector Channel 8) (c d : Fin 8) (ch : Channel) :
    (v.set c.val ch).get d = if d = c then ch else v.get d := by
  simp only [Vector.get, Fin.ext_iff, eq_comm (a := d.val)]
  exact Vector.getElem_set ..

theorem State.Inv.modifyChannel (h : s.Inv) (c : Fin 8) {f : Channel → Channel}
    (hf : (s.audio.channels.get c).Ok → (f (s.audio.channels.get c)).Ok) : (s.modifyChannel c f).Inv := by
  refine h.of_audio ⟨?_, h.audio.delay, h.audio.samples⟩
  intro d
  show ((s.audio.channels.set c.val _).get d).Ok
  rw [get_set]
  split
  · exact hf (h.audio.channels c)
  · exact h.audio.channels d

theorem State.Inv.playChannel (h : s.Inv) (c : Fin 8) (note : Byte) (ins : BitVec 4) (override : Bool) :
    (s.playChannel c note ins override).Inv := by
  unfold State.playChannel
  split
  · exact h
  · refine State.Inv.ramWrite (State.Inv.ramLoad (h.modifyChannel c fun hc => ?_) ?_) ?_ _
    · exact ⟨hc.phase, hc.volume, hc.idle, hc.noise⟩
    · have := c.isLt
      simp only [channelAddr, cfg_audioBase, List.length_cons, List.length_nil]
      omega
    · exact channelAddr_lt c (by norm_num)

theorem State.Inv.playNote (h : s.Inv) (ch : Nat) (note : Byte) (ins : BitVec 4) (override : Bool) :
    (s.playNote ch note ins override).Inv := by
  unfold State.playNote
  split
  · exact h.playChannel _ _ _ _
  · exact h

theorem State.Inv.dropPriority (h : s.Inv) (c : Fin 8) :
    (s.modifyChannel c fun ch => { ch with priority := false }).Inv :=
  h.modifyChannel c fun hc => ⟨hc.phase, hc.volume, hc.idle, hc.noise⟩

theorem State.Inv.releaseChannel (h : s.Inv) (c : Fin 8) : (s.releaseChannel c).Inv := by
  unfold State.releaseChannel
  exact (h.ramWrite (channelAddr_lt c (by norm_num)) _).dropPriority c

theorem State.Inv.stopChannel (h : s.Inv) (ch : Nat) : (s.stopChannel ch).Inv := by
  unfold State.stopChannel
  split
  · exact h.releaseChannel _
  · exact h

theorem State.Inv.stopAll (h : s.Inv) : s.stopAll.Inv := by
  unfold State.stopAll
  generalize List.finRange 8 = l
  induction l generalizing s with
  | nil => exact h
  | cons c l ih => exact ih (h.releaseChannel c)

theorem State.Inv.startSong (h : s.Inv) (a : Word) : (s.startSong a).Inv :=
  h.of_audio ⟨h.audio.channels, by norm_num, h.audio.samples⟩

theorem State.Inv.seqStopped (h : s.Inv) :
    ({ s with audio := { s.audio with seqEnabled := false } } : State).stopAll.Inv :=
  State.Inv.stopAll ⟨h.bus, h.ppu, ⟨h.audio.channels, h.audio.delay, h.audio.samples⟩, h.halt, h.budget⟩

theorem State.Inv.muteAll (h : s.Inv) (immediate : Bool) : (s.muteAll immediate).Inv := by
  unfold State.muteAll
  have h1 := h.seqStopped
  split
  · refine h1.of_audio ⟨?_, h1.audio.delay, h1.audio.samples⟩
    intro c
    have hc := h1.audio.channels c
    simp only [Vector.get, Vector.map] at *
    simp only [Array.getElem_map]
    exact ⟨hc.phase, by norm_num, fun _ => rfl, hc.noise⟩
  · exact h1

theorem State.Inv.setInstrument (h : s.Inv) (k ad sr : Word) : (s.setInstrument k ad sr).Inv := by
  unfold State.setInstrument
  split
  · rename_i hk
    rw [cfg_nInstr] at hk
    refine h.ramLoad ?_
    simp only [cfg_instrBase, List.length_cons, List.length_nil]
    omega
  · exact h

theorem State.Inv.swapColor (h : s.Inv) (i : BitVec 4) (v : Byte) : (s.swapColor i v).Inv :=
  h.ramWrite (by have := i.isLt; rw [cfg_paletteBase]; omega) v

end Sys2Proof.Machine
end

