-- ==== Sys2Proof/Laws/Devices.lean ====
section
/-! SUPPORT. The picture unit's triggers, the VBlank pass, the audio unit and the host's operations keep
the invariant: one lemma per operation. -/

namespace Sys2Proof.Machine

variable {s : State}

/-! ## Picture unit -/

theorem State.Inv.clearScreen (h : s.Inv) (alt : Bool) : (s.clearScreen alt).Inv := by
  have h1 : ({ s.clearText with ppu := { s.clearText.ppu with bgColor := cfg.bgDefault } } : State).Inv :=
    h.of_ppu ⟨h.ppu.oam, h.ppu.tag, rfl, h.ppu.pixbuf, h.ppu.frame, h.ppu.cursor, h.ppu.camX, h.ppu.camY,
      h.ppu.colours⟩
  unfold State.clearScreen
  split
  · exact h1.resetOam
  · exact h1

theorem State.Inv.moveCursor (h : s.Inv) (dx dy : Int) : (s.moveCursor dx dy).Inv :=
  h.of_ppu ⟨h.ppu.oam, h.ppu.tag, h.ppu.text, h.ppu.pixbuf, h.ppu.frame, h.ppu.cursor, h.ppu.camX, h.ppu.camY,
    h.ppu.colours⟩

theorem State.Inv.setCursor (h : s.Inv) (cx cy : Word) : (s.setCursor cx cy).Inv :=
  h.of_ppu ⟨h.ppu.oam, h.ppu.tag, h.ppu.text, h.ppu.pixbuf, h.ppu.frame, h.ppu.cursor, h.ppu.camX, h.ppu.camY,
    h.ppu.colours⟩

theorem State.Inv.writeText (h : s.Inv) {i : Nat} (hi : i < 1024) (ch : Byte) :
    ({ s with ppu := { s.ppu with textGrid := s.ppu.textGrid.write .text i ch } } : State).Inv :=
  h.of_ppu ⟨h.ppu.oam, h.ppu.tag, Memory.wf_write _ h.ppu.text hi, h.ppu.pixbuf, h.ppu.frame, h.ppu.cursor,
    h.ppu.camX, h.ppu.camY, h.ppu.colours⟩

theorem State.Inv.putChar (h : s.Inv) (ch : Byte) : (s.putChar ch).Inv := by
  unfold State.putChar
  refine (h.writeText ?_ ch).moveCursor 1 0
  have := s.ppu.cursorX.isLt
  have := s.ppu.cursorY.isLt
  simp only [textIndex, cfg_textCols]
  omega

theorem State.Inv.drawSprite (h : s.Inv) (x y : Word) (tile attr kind : Byte) :
    (s.drawSprite x y tile attr kind).Inv := by
  have hc := h.ppu.cursor
  refine h.of_ppu ⟨Memory.wf_load _ h.ppu.oam ?_, Memory.wf_write _ h.ppu.tag hc, h.ppu.text, h.ppu.pixbuf,
    h.ppu.frame, ?_, h.ppu.camX, h.ppu.camY, h.ppu.colours⟩
  · simp only [cfg_oamEntryBytes, List.length_cons, List.length_nil, Store.size_oam]
    omega
  · exact Nat.mod_lt _ (by rw [cfg_oamEntries]; norm_num)

theorem setOamCursor_inv (h : s.Inv) (v : Word) : (setOamCursor v s).Inv := by
  unfold setOamCursor
  split
  · exact takeFault_inv h _
  · rename_i hv
    rw [cfg_oamEntries] at hv
    exact h.of_ppu ⟨h.ppu.oam, h.ppu.tag, h.ppu.text, h.ppu.pixbuf, h.ppu.frame, by simpa using hv, h.ppu.camX,
      h.ppu.camY, h.ppu.colours⟩

theorem State.Inv.setCamera (h : s.Inv) (cx cy : Word) : (s.setCamera cx cy).Inv :=
  h.of_ppu ⟨h.ppu.oam, h.ppu.tag, h.ppu.text, h.ppu.pixbuf, h.ppu.frame, h.ppu.cursor, min_le_right _ _,
    min_le_right _ _, h.ppu.colours⟩

theorem movedCam_le (cam : Nat) (d : Int) : movedCam cam d ≤ 65280 := by
  unfold movedCam
  rw [cfg_camMax]
  omega

theorem State.Inv.moveCamera (h : s.Inv) (dx dy : Int) : (s.moveCamera dx dy).Inv :=
  h.of_ppu ⟨h.ppu.oam, h.ppu.tag, h.ppu.text, h.ppu.pixbuf, h.ppu.frame, h.ppu.cursor, movedCam_le _ _,
    movedCam_le _ _, h.ppu.colours⟩

theorem State.Inv.selectBank (h : s.Inv) (v : Word) : (s.selectBank v).Inv := by
  unfold State.selectBank
  split
  · exact h.of_bus ⟨h.bus.ram, h.bus.bios, h.bus.banks, h.bus.header, Or.inr (by assumption), h.bus.powerOn⟩
  · exact h

theorem State.Inv.draw16 (h : s.Inv) : s.draw16.2.Inv := h.of_parts rfl rfl rfl rfl rfl h.budget

/-! ## The VBlank pass -/

/-- A pixel buffer in canonical form that holds only colour values below 32 (R50). -/
structure PixOk (m : Memory) : Prop where
  wf : m.wf .pixbuf = true
  colours : ∀ a, (m.read .pixbuf a).toNat < 32

theorem PixOk.write {m : Memory} (h : PixOk m) {a : Nat} (ha : a < 65536) {v : Byte} (hv : v.toNat < 32) :
    PixOk (m.write .pixbuf a v) where
  wf := Memory.wf_write _ h.wf ha
  colours x := by
    rw [Memory.read_write]
    split
    · exact hv
    · exact h.colours x

/-- A fold of operations that keep a property keeps it. -/
theorem foldl_keeps {α β : Type} {P : β → Prop} {f : β → α → β} {l : List α} {b : β} (hb : P b)
    (hf : ∀ b a, a ∈ l → P b → P (f b a)) : P (l.foldl f b) := by
  induction l generalizing b with
  | nil => exact hb
  | cons a l ih =>
    exact ih (hf b a List.mem_cons_self hb) fun b x hx => hf b x (List.mem_cons_of_mem _ hx)

theorem pixelIndex_lt {x y : Nat} (hx : x < 256) (hy : y < 256) : pixelIndex x y < 65536 := by
  unfold pixelIndex
  rw [cfg_screenW]
  omega

theorem stored_lt (b : Bool) (v : BitVec 4) :
    (if b then v.setWidth 8 + 16 else v.setWidth 8 : Byte).toNat < 32 := by
  revert b v; decide

theorem blitPixel_ok (s : State) (p : Sprite) (sx sy : Int) (r c : Nat) {pb : Memory} (h : PixOk pb) :
    PixOk (blitPixel s p sx sy r c pb) := by
  unfold blitPixel
  dsimp only
  generalize tilePixel s p.tile _ _ = v
  split
  · exact h
  · rename_i hin
    split
    · exact h
    · exact h.write (pixelIndex_lt (by omega) (by omega)) (stored_lt _ v)

theorem blit_ok (s : State) (p : Sprite) (sx sy : Int) {pb : Memory} (h : PixOk pb) :
    PixOk (blit s p sx sy pb) :=
  foldl_keeps h fun _ _ _ hb => foldl_keeps hb fun _ _ _ hb' => blitPixel_ok s p sx sy _ _ hb'

theorem drawSprites_ok (s : State) {pb : Memory} (h : PixOk pb) : PixOk (drawSprites s pb) :=
  foldl_keeps (foldl_keeps h fun _ _ _ hb => blit_ok s _ _ _ hb) fun _ _ _ hb => blit_ok s _ _ _ hb

theorem drawGlyph_ok (s : State) (ch : Byte) {row col : Nat} (hr : row < 32) (hc : col < 32) {pb : Memory}
    (h : PixOk pb) : PixOk (drawGlyph s ch row col pb) := by
  refine foldl_keeps h fun _ r hr' hb => foldl_keeps hb fun _ c hc' hb' => ?_
  rw [List.mem_range] at hr' hc'
  split
  · refine hb'.write (pixelIndex_lt (by omega) (by omega)) ?_
    have := s.ppu.fontColor.isLt
    rw [BitVec.toNat_setWidth]
    omega
  · exact hb'

theorem drawText_ok (s : State) {pb : Memory} (h : PixOk pb) : PixOk (drawText s pb) := by
  refine foldl_keeps h fun _ row hrow hb => foldl_keeps hb fun _ col hcol hb' => ?_
  rw [List.mem_range] at hrow hcol
  dsimp only
  split
  · exact hb'
  · exact drawGlyph_ok s _ hrow hcol hb'

/-- A store that lists the addresses lo to lo + n with one byte is canonical. -/
theorem wfFrom_const (st : Store) (b : Byte) (lo n : Nat) (hn : lo + n ≤ st.size)
    (hb : ∀ a, b ≠ st.blank a) :
    Memory.wfFrom st lo ((List.range' lo n).map fun i => (i, b)) = true := by
  induction n generalizing lo with
  | zero => rfl
  | succ n ih =>
    rw [List.range'_succ, List.map_cons, Memory.wfFrom_cons]
    exact ⟨le_refl _, by omega, hb lo, ih (lo + 1) (by omega)⟩

theorem background_ok (c : BitVec 5) : PixOk (background c) := by
  unfold background
  rw [cfg_screenW, cfg_screenH]
  split
  · exact ⟨rfl, fun _ => by rw [Memory.read_nil, Store.blank_pixbuf]; decide⟩
  · rename_i hc
    have hlt : (c.setWidth 8).toNat < 32 := by
      have := c.isLt
      rw [BitVec.toNat_setWidth]
      omega
    refine ⟨?_, fun a => ?_⟩
    · rw [List.range_eq_range']
      refine wfFrom_const .pixbuf _ 0 _ (by rw [Store.size_pixbuf]) fun a => ?_
      rw [Store.blank_pixbuf]
      clear hlt
      revert hc
      revert c
      decide
    · generalize List.range (256 * 256) = l
      induction l with
      | nil => rw [List.map_nil, Memory.read_nil, Store.blank_pixbuf]; decide
      | cons k l ih =>
        rw [List.map_cons, Memory.read_cons]
        split
        · exact hlt
        · exact ih

theorem compose_ok (s : State) : PixOk (compose s) := drawText_ok s (drawSprites_ok s (background_ok _))

theorem length_exportFrame (s : State) (pb : Memory) : (exportFrame s pb).length = 262144 := by
  unfold exportFrame
  have h : ∀ l : List Nat, (l.flatMap fun i => exportPixel s (pb.read .pixbuf i)).length = 4 * l.length := by
    intro l
    induction l with
    | nil => rfl
    | cons k l ih =>
      rw [List.flatMap_cons, List.length_append, ih, List.length_cons]
      show 4 + _ = _
      omega
  rw [h, List.length_range, cfg_screenW, cfg_screenH]

theorem State.Inv.vblankPass (h : s.Inv) : s.vblankPass.Inv := by
  refine h.of_ppu ⟨h.ppu.oam, h.ppu.tag, h.ppu.text, (compose_ok s).wf, ?_, h.ppu.cursor, h.ppu.camX,
    h.ppu.camY, (compose_ok s).colours⟩
  refine Memory.wf_load _ rfl ?_
  rw [length_exportFrame, Store.size_frame]

/-! ## The audio unit -/

theorem unitOf_mem (b : Byte) : 0 ≤ unitOf b ∧ unitOf b ≤ 1 := by
  have h : (b.toNat : Rat) ≤ 255 := by
    have := b.isLt
    exact_mod_cast Nat.le_of_lt_succ this
  have h0 : (0 : Rat) ≤ b.toNat := Nat.cast_nonneg _
  unfold unitOf
  constructor
  · positivity
  · rw [div_le_one (by norm_num)]
    exact h

theorem edgeDetect_ok {p : ApuParams} (hp : p.Lawful) (f : Word) (ctrl : Byte) {ch : Channel} (h : ch.Ok) :
    (edgeDetect p f ctrl ch).Ok := by
  have hk := hp.keep
  have hv := h.volume
  have hv' : 0 ≤ ch.volume * p.retriggerKeep ∧ ch.volume * p.retriggerKeep ≤ 1 :=
    ⟨mul_nonneg hv.1 hk.1, by nlinarith⟩
  unfold edgeDetect
  dsimp only
  split
  · split
    · exact ⟨h.phase, hv', (fun hi => by cases hi), h.noise⟩
    · exact ⟨h.phase, hv', (fun hi => by cases hi), h.noise⟩
  · split
    · exact ⟨h.phase, hv, (fun hi => by cases hi), h.noise⟩
    · exact ⟨h.phase, hv, h.idle, h.noise⟩

theorem envelopeStep_ok {p : ApuParams} (hp : p.Lawful) {vmax : Rat} (hm : 0 ≤ vmax ∧ vmax ≤ 1) (e : Envelope)
    {ch : Channel} (h : ch.Ok) : (envelopeStep p vmax e ch).Ok := by
  have ha := hp.attack e.attack
  have hd := hp.decay e.decay
  have hr := hp.release e.release
  have hv := h.volume
  have hs := unitOf_mem e.sustain
  have ht : 0 ≤ unitOf e.sustain * vmax ∧ unitOf e.sustain * vmax ≤ 1 :=
    ⟨mul_nonneg hs.1 hm.1, by nlinarith⟩
  unfold envelopeStep
  dsimp only
  split
  · exact ⟨h.phase, by norm_num, fun _ => rfl, h.noise⟩
  · split
    · exact ⟨h.phase, hm, (fun hi => by cases hi), h.noise⟩
    · rename_i hst _
      exact ⟨h.phase, ⟨by dsimp only; linarith, by dsimp only; linarith⟩, (fun hi => by simp [hst] at hi), h.noise⟩
  · split
    · exact ⟨h.phase, ht, (fun hi => by cases hi), h.noise⟩
    · rename_i hst _
      exact ⟨h.phase, ⟨by dsimp only; linarith, by dsimp only; linarith⟩, (fun hi => by simp [hst] at hi), h.noise⟩
  · rename_i hst
    exact ⟨h.phase, ht, (fun hi => by simp [hst] at hi), h.noise⟩
  · split
    · exact ⟨h.phase, by norm_num, fun _ => rfl, h.noise⟩
    · rename_i hst _
      exact ⟨h.phase, ⟨by dsimp only; linarith, by dsimp only; linarith⟩, (fun hi => by simp [hst] at hi), h.noise⟩

theorem tonal_ok (p : ApuParams) (c : Fin 8) (f : Word) {ch : Channel} (h : ch.Ok) : (tonal p c f ch).2.Ok :=
  ⟨fracPart_mem _, h.volume, h.idle, h.noise⟩

theorem noisy_ok (p : ApuParams) (f : Word) {drawn : Rat} (hd : -1 ≤ drawn ∧ drawn ≤ 1) {ch : Channel}
    (h : ch.Ok) : (noisy p f drawn ch).2.Ok := by
  unfold noisy
  dsimp only
  split
  · exact ⟨h.phase, h.volume, h.idle, hd⟩
  · exact ⟨h.phase, h.volume, h.idle, h.noise⟩

theorem shapedChannel_ok {p : ApuParams} (hp : p.Lawful) (h : s.Inv) (c : Fin 8) : (shapedChannel p s c).Ok :=
  envelopeStep_ok hp (unitOf_mem _) _ (edgeDetect_ok hp _ _ (h.audio.channels c))

theorem State.Inv.channelSample {p : ApuParams} (hp : p.Lawful) (h : s.Inv) (c : Fin 8) :
    (channelSample p s c).2.Inv := by
  have hc := shapedChannel_ok hp h c
  unfold Sys2Proof.Machine.channelSample
  dsimp only
  split
  · exact h.modifyChannel c (f := fun _ => shapedChannel p s c) fun _ => hc
  · split
    · exact h.modifyChannel c (f := fun _ => (tonal p c (channelFreq s c) (shapedChannel p s c)).2)
        fun _ => tonal_ok p c _ hc
    · have h1 := h.modifyChannel c (f := fun _ => (noisy p (channelFreq s c) (p.noise s.env.noiseIndex)
        (shapedChannel p s c)).2) fun _ => noisy_ok p _ (hp.noise _) hc
      dsimp only
      split
      · exact h1.of_parts rfl rfl rfl rfl rfl h1.budget
      · exact h1

theorem State.Inv.mixChannels {p : ApuParams} (hp : p.Lawful) (h : s.Inv) : (mixChannels p s).2.Inv :=
  foldl_keeps (P := fun acc : Rat × State => acc.2.Inv) h fun _ c _ hb => State.Inv.channelSample hp hb c

theorem State.Inv.setSeqCursor (h : s.Inv) (a : Word) : (s.setSeqCursor a).Inv :=
  h.of_audio ⟨h.audio.channels, h.audio.delay, h.audio.samples⟩

theorem State.Inv.setSeqDelay (h : s.Inv) {d : Nat} (hd : d ≤ 255) : (s.setSeqDelay d).Inv :=
  h.of_audio ⟨h.audio.channels, hd, h.audio.samples⟩

theorem State.Inv.seqPlay (h : s.Inv) (r : Record) : (s.seqPlay r).Inv := by
  unfold State.seqPlay
  split
  · split
    · exact h.stopChannel _
    · exact h.playNote _ _ _ _
  · exact h

theorem seqLoop_inv (fuel : Nat) {t : State} (h : s.Inv) (ht : seqLoop fuel s = .ok t) : t.Inv := by
  induction fuel generalizing s with
  | zero => cases ht
  | succ n ih =>
    unfold seqLoop at ht
    dsimp only at ht
    split at ht
    · cases ht; exact h.seqStopped
    · split at ht
      · exact ih (h.setSeqCursor _) ht
      · split at ht
        · exact ih ((h.setSeqCursor _).seqPlay _) ht
        · cases ht
          exact ((h.setSeqCursor _).seqPlay _).setSeqDelay (Nat.le_of_lt_succ (BitVec.isLt _))

theorem sequencerTick_inv {t : State} (h : s.Inv) (ht : sequencerTick s = .ok t) : t.Inv := by
  unfold sequencerTick at ht
  have := h.audio.delay
  split at ht
  · cases ht; exact h
  · split at ht
    · cases ht; exact h.setSeqDelay (by omega)
    · exact seqLoop_inv _ h ht

theorem State.Inv.gathered (h : s.Inv) {q : Rat} (hq : 0 ≤ q ∧ q < 1024) :
    ({ s with audio := { s.audio with seqSamples := q } } : State).Inv :=
  h.of_audio ⟨h.audio.channels, h.audio.delay, hq⟩

theorem clockSequencer_inv {p : ApuParams} (hp : 0 ≤ p.tempo ∧ p.tempo ≤ 1024) {t : State} (h : s.Inv)
    (ht : clockSequencer p s = .ok t) : t.Inv := by
  have hs := h.audio.samples
  have hk : ((cfg.seqTickSamples : Nat) : Rat) = 1024 := by rw [cfg_seqTickSamples]; norm_num
  unfold clockSequencer at ht
  rw [hk] at ht
  dsimp only at ht
  split at ht
  · exact sequencerTick_inv (h.gathered ⟨by linarith, by linarith⟩) ht
  · cases ht
    exact h.gathered ⟨by linarith, by linarith⟩

theorem sampleStep_inv {p : ApuParams} (hp : p.Lawful) (htempo : 0 ≤ p.tempo ∧ p.tempo ≤ 1024) {t : State}
    (h : s.Inv) (ht : sampleStep p s = .ok t) : t.Inv := by
  unfold sampleStep at ht
  split at ht
  · cases ht
  · rename_i u hu
    have h1 := State.Inv.mixChannels hp (clockSequencer_inv htempo h hu)
    cases ht
    exact h1.of_parts rfl rfl rfl rfl rfl h1.budget

theorem generateSamples_inv {p : ApuParams} (hp : p.Lawful) (htempo : 0 ≤ p.tempo ∧ p.tempo ≤ 1024) (n : Nat)
    {t : State} (h : s.Inv) (ht : generateSamples p n s = .ok t) : t.Inv := by
  induction n generalizing s with
  | zero => cases ht; exact h
  | succ n ih =>
    unfold generateSamples at ht
    split at ht
    · cases ht
    · exact ih (sampleStep_inv hp htempo h (by assumption)) ht

/-! ## The host -/

theorem State.Inv.loadBios (h : s.Inv) (img : List Byte) : (s.loadBios img).Inv := by
  have h1 : ({ s with bus := { s.bus with bios := Memory.load .bios [] 0 (img.take (min img.length 65536)) } } :
      State).Inv := by
    refine h.of_bus ⟨h.bus.ram, Memory.wf_load _ rfl ?_, h.bus.banks, h.bus.header, h.bus.selection,
      h.bus.powerOn⟩
    rw [List.length_take, Store.size_bios]
    omega
  unfold State.loadBios
  dsimp only
  refine State.Inv.ramWrite (State.Inv.ramLoad ?_ (by decide)) (by decide) _
  split
  · refine h1.ramLoad ?_
    simp only [cfg_biosCallBase, cfg_biosCallEnd, List.length_drop, List.length_take]
    omega
  · exact h1

theorem State.Inv.loadCartridge (h : s.Inv) (img : List Byte) : (s.loadCartridge img).Inv := by
  unfold State.loadCartridge
  split
  · have h1 : ({ s with bus := { s.bus with
        cartHeader := Memory.load .header [] 0 (img.take cfg.cartHeaderBytes) } } : State).Inv := by
      refine h.of_bus ⟨h.bus.ram, h.bus.bios, h.bus.banks, Memory.wf_load _ rfl ?_, h.bus.selection,
        h.bus.powerOn⟩
      rw [List.length_take, Store.size_header, cfg_cartHeaderBytes]
      omega
    refine State.Inv.ramWrite (State.Inv.ramLoad (State.Inv.ramLoad (State.Inv.ramLoad h1 ?_) ?_) ?_) (by decide) _
    · simp only [cfg_romOrigin, cfg_atlasTop, List.length_take]
      omega
    · simp only [cfg_sysFlagsBase, List.length_take]
      omega
    · simp [cfg_sysFlagsBase]
  · exact h.ramWrite (by decide) _

theorem State.Inv.loadBanks (h : s.Inv) (images : List (List Byte)) : (s.loadBanks images).Inv := by
  refine h.of_bus ⟨h.bus.ram, h.bus.bios, ?_, h.bus.header, ?_, h.bus.powerOn⟩
  · intro m hm
    obtain ⟨img, -, rfl⟩ := List.mem_map.mp hm
    refine Memory.wf_load _ rfl ?_
    rw [List.length_take, Store.size_bank, cfg_bankSize]
    omega
  · cases images with
    | nil => exact Or.inl rfl
    | cons _ _ => exact Or.inr (Nat.succ_pos _)

theorem State.Inv.saveLoad (h : s.Inv) (buf : List Byte) : (s.saveLoad buf).Inv := by
  unfold State.saveLoad
  split
  · rename_i hl
    refine h.ramLoad ?_
    rw [hl]
    decide
  · exact h

theorem State.Inv.countInstruction (h : s.Inv) (hc : s.env.frameCount < 16000) : s.countInstruction.Inv :=
  h.of_parts rfl rfl rfl rfl rfl hc

theorem State.Inv.setSchedule (h : s.Inv) (l : List (Nat × HostOp)) : (s.setSchedule l).Inv :=
  h.of_parts rfl rfl rfl rfl rfl h.budget

end Sys2Proof.Machine
end

