-- ==== Sys2Proof/Laws/Flags.lean ====
section
/-! SUPPORT. Each flag computation, said once in the arithmetic of whole numbers. -/

namespace Sys2Proof.Machine

theorem msb_iff (w : Word) : w.msb = true ↔ 32768 ≤ w.toNat := by
  rw [BitVec.msb_eq_decide]; simp

/-- The flags of R180 and R185 are those of the exact sum. -/
theorem addCarry16_flags (a b : Word) (c : Bool) : SumFlags a b c.toNat (addCarry16 a b c).2 := by
  have ha := a.isLt
  have hb := b.isLt
  have hc : c.toNat ≤ 1 := by cases c <;> decide
  constructor
  · simp [addCarry16]
  · simp only [addCarry16, decide_eq_true_eq]
    rw [← BitVec.toNat_inj]; simp
  · simp only [addCarry16, Bool.and_eq_true, beq_iff_eq, bne_iff_ne, ne_eq]
    rw [BitVec.toInt_eq_msb_cond, BitVec.toInt_eq_msb_cond]
    have h3 := msb_iff (BitVec.ofNat 16 (a.toNat + b.toNat + c.toNat))
    have h1 := msb_iff a
    have h2 := msb_iff b
    simp only [BitVec.toNat_ofNat] at h3
    cases ha1 : a.msb <;> cases hb1 : b.msb <;> cases hc1 : (BitVec.ofNat 16 (a.toNat + b.toNat + c.toNat)).msb <;>
      simp only [ha1, hb1, hc1] at h1 h2 h3 <;> simp at h1 h2 h3 ⊢ <;> omega
  · show (BitVec.ofNat 16 (a.toNat + b.toNat + c.toNat)).msb = true ↔ _
    rw [msb_iff]; simp

theorem sub_eq_ofNat (a b : Word) : (a - b) = BitVec.ofNat 16 (a.toNat + 65536 - b.toNat) := by
  have ha := a.isLt
  have hb := b.isLt
  apply BitVec.eq_of_toNat_eq
  simp [BitVec.toNat_sub]; omega

/-- The flags of R181 are those of the exact difference. -/
theorem sub16_flags (a b : Word) : DiffFlags a b (sub16 a b).2 := by
  have ha := a.isLt
  have hb := b.isLt
  constructor
  · simp [sub16]
  · simp only [sub16, decide_eq_true_eq]
    constructor
    · intro h; rw [← BitVec.toNat_inj] at h ⊢; rw [sub_eq_ofNat] at h; simp at h; omega
    · rintro rfl; simp
  · simp only [sub16, Bool.and_eq_true, beq_iff_eq, bne_iff_ne, ne_eq]
    rw [BitVec.toInt_eq_msb_cond, BitVec.toInt_eq_msb_cond]
    have h3 := msb_iff (a - b)
    have h1 := msb_iff a
    have h2 := msb_iff b
    rw [sub_eq_ofNat] at h3
    simp only [BitVec.toNat_ofNat] at h3
    rw [← sub_eq_ofNat] at h3
    cases ha1 : a.msb <;> cases hb1 : b.msb <;> cases hc1 : (a - b).msb <;>
      simp only [ha1, hb1, hc1] at h1 h2 h3 <;> simp at h1 h2 h3 ⊢ <;> omega
  · show (a - b).msb = true ↔ _
    rw [msb_iff, sub_eq_ofNat]; simp

theorem sub16_result (a b : Word) : (sub16 a b).1 = BitVec.ofNat 16 (a.toNat + 65536 - b.toNat) :=
  sub_eq_ofNat a b

theorem msb_eq (v : Word) : v.msb = decide (32768 ≤ v.toNat) := by
  rw [Bool.eq_iff_iff, msb_iff, decide_eq_true_eq]

theorem eq_zero_iff (v : Word) : v = 0 ↔ v.toNat = 0 := by
  rw [← BitVec.toNat_inj]
  rfl

/-- The flags of R196 and R197, of a quotient or remainder. -/
theorem divFlags_eq {q : Nat} (hq : q < 65536) :
    divFlags (BitVec.ofNat 16 q) = ⟨false, decide (q = 0), false, decide (32768 ≤ q)⟩ := by
  simp only [divFlags, msb_eq, eq_zero_iff, BitVec.toNat_ofNat, Nat.mod_eq_of_lt hq]

/-- The flags of R210. -/
theorem logicFlags_eq (keep : Bool) (old : Flags) (v : Word) :
    logicFlags keep old v = ⟨keep && old.c, decide (v.toNat = 0), false, decide (32768 ≤ v.toNat)⟩ := by
  simp only [logicFlags, msb_eq, eq_zero_iff]

/-- The flags of R215 and R216, of a result by its value. -/
theorem shiftFlags_eq (c : Bool) (v : Word) :
    shiftFlags c v = ⟨c, decide (v.toNat = 0), false, decide (32768 ≤ v.toNat)⟩ := by
  simp only [shiftFlags, msb_eq, eq_zero_iff]

theorem getLsbD_nat (w : Word) (i : Nat) : w.getLsbD i = decide (w.toNat / 2 ^ i % 2 = 1) := by
  rw [BitVec.getLsbD, Nat.testBit_eq_decide_div_mod_eq]

theorem pow_big {n : Nat} (h : 16 ≤ n) : 2 ^ n = 65536 * 2 ^ (n - 16) := by
  rw [show (65536:Nat) = 2^16 by rfl, ← Nat.pow_add]; congr 1; omega

/-- R215 in whole numbers. -/
theorem shl16_eq {a b : Word} {x n : Nat} (hx : x = a.toNat) (hn : n = b.toNat) :
    shl16 a b = (BitVec.ofNat 16 (x * 2 ^ n),
      ⟨decide (x * 2 ^ n / 65536 % 2 = 1), decide (x * 2 ^ n % 65536 = 0), false,
        decide (32768 ≤ x * 2 ^ n % 65536)⟩) := by
  have hxl : x < 65536 := by rw [hx]; exact a.isLt
  have hr : (shl16 a b).1 = BitVec.ofNat 16 (x * 2 ^ n) := by
    simp only [shl16, ← hx, ← hn]
    split
    · rename_i h16
      apply BitVec.eq_of_toNat_eq
      rw [pow_big h16]; simp; 
      rw [show x * (65536 * 2^(n-16)) = 65536 * (x * 2^(n-16)) by ring]; simp
    · rfl
  have hcarry : (if 1 ≤ n ∧ n ≤ 16 then a.getLsbD (16 - n) else false) = decide (x * 2 ^ n / 65536 % 2 = 1) := by
    split
    · rename_i hh
      rw [getLsbD_nat, ← hx]
      have : 65536 = 2 ^ (16 - n) * 2 ^ n := by rw [← Nat.pow_add, show 16 - n + n = 16 by omega]
      rw [this, Nat.mul_div_mul_right _ _ (by positivity)]
    · rename_i hh
      symm; rw [decide_eq_false_iff_not]
      rcases Nat.eq_zero_or_pos n with h0 | h0
      · subst h0; simp; omega
      · rw [pow_big (by omega), show x * (65536 * 2^(n-16)) = 65536 * (x * 2^(n-16)) by ring, Nat.mul_div_cancel_left _ (by norm_num), show n - 16 = (n - 17) + 1 by omega, Nat.pow_succ, ← Nat.mul_assoc]
        omega
  have hfl : (shl16 a b).2 = ⟨decide (x * 2 ^ n / 65536 % 2 = 1), decide (x * 2 ^ n % 65536 = 0), false, decide (32768 ≤ x * 2 ^ n % 65536)⟩ := by
    have : (shl16 a b).2 = shiftFlags (if 1 ≤ n ∧ n ≤ 16 then a.getLsbD (16 - n) else false) (shl16 a b).1 := by
      rw [hn]; rfl
    rw [this, hr, hcarry, shiftFlags]
    congr 1
    · rw [decide_eq_decide, ← BitVec.toNat_inj]; simp
    · rw [Bool.eq_iff_iff, msb_iff]; simp
  exact Prod.ext hr hfl

/-- R216 in whole numbers. -/
theorem shr16_eq {a b : Word} {x n : Nat} (hx : x = a.toNat) (hn : n = b.toNat) :
    shr16 a b = (BitVec.ofNat 16 (x / 2 ^ n),
      ⟨decide (2 * x / 2 ^ n % 2 = 1), decide (x / 2 ^ n = 0), false, decide (32768 ≤ x / 2 ^ n)⟩) := by
  have hxl : x < 65536 := by rw [hx]; exact a.isLt
  have hq : x / 2 ^ n < 65536 := lt_of_le_of_lt (Nat.div_le_self _ _) hxl
  have hr : (shr16 a b).1 = BitVec.ofNat 16 (x / 2 ^ n) := by
    simp only [shr16, ← hx, ← hn]
    split
    · rename_i h16
      have : x / 2 ^ n = 0 := Nat.div_eq_of_lt (lt_of_lt_of_le hxl (by rw [show 65536 = 2^16 by rfl]; exact Nat.pow_le_pow_right (by norm_num) h16))
      rw [this]; rfl
    · rfl
  have hcarry : (if 1 ≤ n ∧ n ≤ 16 then a.getLsbD (n - 1) else false) = decide (2 * x / 2 ^ n % 2 = 1) := by
    split
    · rename_i hh
      rw [getLsbD_nat, ← hx]
      have : 2 ^ n = 2 * 2 ^ (n - 1) := by rw [← Nat.pow_succ']; congr 1; omega
      rw [this, Nat.mul_div_mul_left _ _ (by norm_num)]
    · rename_i hh
      symm; rw [decide_eq_false_iff_not]
      rcases Nat.eq_zero_or_pos n with h0 | h0
      · subst h0; simp
      · have : 2 * x / 2 ^ n = 0 := Nat.div_eq_of_lt (lt_of_lt_of_le (show 2 * x < 2^17 by norm_num; omega) (Nat.pow_le_pow_right (by norm_num) (by omega)))
        rw [this]; simp
  have hfl : (shr16 a b).2 = ⟨decide (2 * x / 2 ^ n % 2 = 1), decide (x / 2 ^ n = 0), false, decide (32768 ≤ x / 2 ^ n)⟩ := by
    have : (shr16 a b).2 = shiftFlags (if 1 ≤ n ∧ n ≤ 16 then a.getLsbD (n - 1) else false) (shr16 a b).1 := by
      rw [hn]; rfl
    rw [this, hr, hcarry, shiftFlags]
    congr 1
    · rw [decide_eq_decide, ← BitVec.toNat_inj, BitVec.toNat_ofNat, Nat.mod_eq_of_lt hq]; rfl
    · rw [Bool.eq_iff_iff, msb_iff, BitVec.toNat_ofNat, Nat.mod_eq_of_lt hq]; simp
  exact Prod.ext hr hfl

end Sys2Proof.Machine
end

