-- ==== Sys2Proof/Laws/Operands.lean ====
section
/-! SUPPORT. The usual ends of an instruction, said once: what each leaves changed and what it keeps. -/

namespace Sys2Proof.Machine

theorem writeReg_computed (len) (r : Reg) (v : Word) (s : State) :
    ∃ t, writeReg r v len s = .next t ∧ Computed len r v s.cpu.flags s t := by
  refine ⟨_, rfl, ?_⟩
  constructor
  · simp
  · intro q hq; simp [State.reg_setReg, hq]
  · rfl
  · rfl
  · exact ⟨rfl, rfl, rfl, rfl⟩
  · exact ⟨rfl, rfl, rfl, rfl, fun _ => rfl⟩

theorem writeResult_computed (len) (r : Reg) (res : Word × Flags) (s : State) :
    ∃ t, writeResult r res len s = .next t ∧ Computed len r res.1 res.2 s t := by
  refine ⟨_, rfl, ?_⟩
  constructor
  · simp
  · intro q hq; simp [State.reg_setReg, hq]
  · rfl
  · rfl
  · exact ⟨rfl, rfl, rfl, rfl⟩
  · exact ⟨rfl, rfl, rfl, rfl, fun _ => rfl⟩

theorem writeFlags_compared (len) (res : Word × Flags) (s : State) :
    ∃ t, writeFlags res len s = .next t ∧ Compared len res.2 s t := by
  refine ⟨_, rfl, ?_⟩
  constructor
  · intro q; simp
  · rfl
  · rfl
  · exact ⟨rfl, rfl, rfl, rfl⟩
  · exact ⟨rfl, rfl, rfl, rfl, fun _ => rfl⟩

theorem StoredBytes.advance {l s t} (n : Nat) (h : StoredBytes l s t) : StoredBytes l s (t.advance n) :=
  ⟨h.written, h.kept, h.readBack, h.bytes, h.underBank, h.boot, h.otherBanks, h.bankCount, h.rest⟩

theorem StoredBytes.of_setFlags {l s t f} (h : StoredBytes l (s.setFlags f) t) : StoredBytes l s t :=
  ⟨h.written, h.kept, h.readBack, h.bytes, h.underBank, h.boot, h.otherBanks, h.bankCount, h.rest⟩

theorem setPc_transferred (s : State) (a : Word) (b : Word) (h : a = b) :
    ∃ t, (.next (s.setPc a) : Host.Outcome State Fault Refusal) = .next t ∧ Transferred b s.cpu.stack s t := by
  subst h
  exact ⟨_, rfl, ⟨rfl, rfl, fun _ => rfl, rfl, rfl, rfl, rfl, ⟨rfl, rfl, rfl, rfl, fun _ => rfl⟩⟩⟩

theorem jumpIf_eq (t : Bool) (a : Word) (s : State) : jumpIf t a s = .next (s.setPc (if t then a else s.cpu.pc + 3)) := by
  cases t <;> rfl

theorem RamKeptBut.of_ram {p : Nat → Prop} {s t : State} (h1 : ∀ a, ¬ p a → t.ramRead a = s.ramRead a)
    (h2 : t.bus = { s.bus with ram := t.bus.ram }) : RamKeptBut p s t :=
  ⟨h1, fun _ ha => busRead8_of_ram h2 (h1 _ ha), h2⟩

theorem RamKeptBut.advance {p s t} (n : Nat) (h : RamKeptBut p s t) : RamKeptBut p s (t.advance n) :=
  ⟨h.ram, h.bytes, h.rest⟩

theorem advance_advanced {s u : State} (n : Nat) (h : u.cpu = s.cpu) : CpuAdvanced n s (u.advance n) := by
  refine ⟨fun q => ?_, ?_, ?_, ⟨?_, ?_, ?_, ?_⟩⟩ <;> simp [State.reg, h]

/-- An instruction that only advances leaves everything else. -/
theorem advance_kept (s : State) (n : Nat) : CpuAdvanced n s (s.advance n) ∧ DevicesKept s (s.advance n) :=
  ⟨advance_advanced n rfl, ⟨rfl, rfl, rfl, rfl, fun _ => rfl⟩⟩

end Sys2Proof.Machine
end

