-- ==== Sys2Proof/Laws/PerInstr.lean ====
section
/-! SUPPORT. Statements for all instructions, one lemma per constructor. -/

namespace Sys2Proof.Laws.EncodedLength

/-- R142, R120: the encoding of an instruction is as long as the table says, from one to four bytes, and
names every one of its registers by 4 bits, so every term is well-formed (R134). -/
def Statement (i : Instr) : Prop :=
  (encode i).length = i.length ∧ 1 ≤ i.length ∧ i.length ≤ 4 ∧ i.wf = true

theorem wf_of (i : Instr) : i.wf = true := by
  simp only [Instr.wf, Instr.wfFor, List.all_eq_true, decide_eq_true_eq]
  intro r _
  exact r.isLt

theorem halt : Statement .halt :=
  ⟨rfl, Nat.le_of_ble_eq_true rfl, Nat.le_of_ble_eq_true rfl, wf_of _⟩
theorem ret : Statement .ret :=
  ⟨rfl, Nat.le_of_ble_eq_true rfl, Nat.le_of_ble_eq_true rfl, wf_of _⟩
theorem vblnk : Statement .vblnk :=
  ⟨rfl, Nat.le_of_ble_eq_true rfl, Nat.le_of_ble_eq_true rfl, wf_of _⟩
theorem cls : Statement .cls :=
  ⟨rfl, Nat.le_of_ble_eq_true rfl, Nat.le_of_ble_eq_true rfl, wf_of _⟩
theorem mute : Statement .mute :=
  ⟨rfl, Nat.le_of_ble_eq_true rfl, Nat.le_of_ble_eq_true rfl, wf_of _⟩
theorem jmp (a16 : Word) : Statement (.jmp a16) :=
  ⟨rfl, Nat.le_of_ble_eq_true rfl, Nat.le_of_ble_eq_true rfl, wf_of _⟩
theorem jeq (a16 : Word) : Statement (.jeq a16) :=
  ⟨rfl, Nat.le_of_ble_eq_true rfl, Nat.le_of_ble_eq_true rfl, wf_of _⟩
theorem jne (a16 : Word) : Statement (.jne a16) :=
  ⟨rfl, Nat.le_of_ble_eq_true rfl, Nat.le_of_ble_eq_true rfl, wf_of _⟩
theorem jgt (a16 : Word) : Statement (.jgt a16) :=
  ⟨rfl, Nat.le_of_ble_eq_true rfl, Nat.le_of_ble_eq_true rfl, wf_of _⟩
theorem jlt (a16 : Word) : Statement (.jlt a16) :=
  ⟨rfl, Nat.le_of_ble_eq_true rfl, Nat.le_of_ble_eq_true rfl, wf_of _⟩
theorem jge (a16 : Word) : Statement (.jge a16) :=
  ⟨rfl, Nat.le_of_ble_eq_true rfl, Nat.le_of_ble_eq_true rfl, wf_of _⟩
theorem jle (a16 : Word) : Statement (.jle a16) :=
  ⟨rfl, Nat.le_of_ble_eq_true rfl, Nat.le_of_ble_eq_true rfl, wf_of _⟩
theorem call (a16 : Word) : Statement (.call a16) :=
  ⟨rfl, Nat.le_of_ble_eq_true rfl, Nat.le_of_ble_eq_true rfl, wf_of _⟩
theorem add (a : Reg) (b : Reg) : Statement (.add a b) :=
  ⟨rfl, Nat.le_of_ble_eq_true rfl, Nat.le_of_ble_eq_true rfl, wf_of _⟩
theorem sub (a : Reg) (b : Reg) : Statement (.sub a b) :=
  ⟨rfl, Nat.le_of_ble_eq_true rfl, Nat.le_of_ble_eq_true rfl, wf_of _⟩
theorem adc (a : Reg) (b : Reg) : Statement (.adc a b) :=
  ⟨rfl, Nat.le_of_ble_eq_true rfl, Nat.le_of_ble_eq_true rfl, wf_of _⟩
theorem cmp (a : Reg) (b : Reg) : Statement (.cmp a b) :=
  ⟨rfl, Nat.le_of_ble_eq_true rfl, Nat.le_of_ble_eq_true rfl, wf_of _⟩
theorem div (a : Reg) (b : Reg) : Statement (.div a b) :=
  ⟨rfl, Nat.le_of_ble_eq_true rfl, Nat.le_of_ble_eq_true rfl, wf_of _⟩
theorem mod (a : Reg) (b : Reg) : Statement (.mod a b) :=
  ⟨rfl, Nat.le_of_ble_eq_true rfl, Nat.le_of_ble_eq_true rfl, wf_of _⟩
theorem and (a : Reg) (b : Reg) : Statement (.and a b) :=
  ⟨rfl, Nat.le_of_ble_eq_true rfl, Nat.le_of_ble_eq_true rfl, wf_of _⟩
theorem or (a : Reg) (b : Reg) : Statement (.or a b) :=
  ⟨rfl, Nat.le_of_ble_eq_true rfl, Nat.le_of_ble_eq_true rfl, wf_of _⟩
theorem xor (a : Reg) (b : Reg) : Statement (.xor a b) :=
  ⟨rfl, Nat.le_of_ble_eq_true rfl, Nat.le_of_ble_eq_true rfl, wf_of _⟩
theorem shl (a : Reg) (b : Reg) : Statement (.shl a b) :=
  ⟨rfl, Nat.le_of_ble_eq_true rfl, Nat.le_of_ble_eq_true rfl, wf_of _⟩
theorem shr (a : Reg) (b : Reg) : Statement (.shr a b) :=
  ⟨rfl, Nat.le_of_ble_eq_true rfl, Nat.le_of_ble_eq_true rfl, wf_of _⟩
theorem ldp (a : Reg) (b : Reg) : Statement (.ldp a b) :=
  ⟨rfl, Nat.le_of_ble_eq_true rfl, Nat.le_of_ble_eq_true rfl, wf_of _⟩
theorem inc (a : Reg) : Statement (.inc a) :=
  ⟨rfl, Nat.le_of_ble_eq_true rfl, Nat.le_of_ble_eq_true rfl, wf_of _⟩
theorem dec (a : Reg) : Statement (.dec a) :=
  ⟨rfl, Nat.le_of_ble_eq_true rfl, Nat.le_of_ble_eq_true rfl, wf_of _⟩
theorem neg (a : Reg) : Statement (.neg a) :=
  ⟨rfl, Nat.le_of_ble_eq_true rfl, Nat.le_of_ble_eq_true rfl, wf_of _⟩
theorem not (a : Reg) : Statement (.not a) :=
  ⟨rfl, Nat.le_of_ble_eq_true rfl, Nat.le_of_ble_eq_true rfl, wf_of _⟩
theorem ldi (r : Reg) (imm16 : Word) : Statement (.ldi r imm16) :=
  ⟨rfl, Nat.le_of_ble_eq_true rfl, Nat.le_of_ble_eq_true rfl, wf_of _⟩
theorem ldm (r : Reg) (a16 : Word) : Statement (.ldm r a16) :=
  ⟨rfl, Nat.le_of_ble_eq_true rfl, Nat.le_of_ble_eq_true rfl, wf_of _⟩
theorem stm (r : Reg) (a16 : Word) : Statement (.stm r a16) :=
  ⟨rfl, Nat.le_of_ble_eq_true rfl, Nat.le_of_ble_eq_true rfl, wf_of _⟩
theorem iadd (r : Reg) (imm16 : Word) : Statement (.iadd r imm16) :=
  ⟨rfl, Nat.le_of_ble_eq_true rfl, Nat.le_of_ble_eq_true rfl, wf_of _⟩
theorem isub (r : Reg) (imm16 : Word) : Statement (.isub r imm16) :=
  ⟨rfl, Nat.le_of_ble_eq_true rfl, Nat.le_of_ble_eq_true rfl, wf_of _⟩
theorem icmp (r : Reg) (imm16 : Word) : Statement (.icmp r imm16) :=
  ⟨rfl, Nat.le_of_ble_eq_true rfl, Nat.le_of_ble_eq_true rfl, wf_of _⟩
theorem rnd (r : Reg) : Statement (.rnd r) :=
  ⟨rfl, Nat.le_of_ble_eq_true rfl, Nat.le_of_ble_eq_true rfl, wf_of _⟩
theorem song (r : Reg) : Statement (.song r) :=
  ⟨rfl, Nat.le_of_ble_eq_true rfl, Nat.le_of_ble_eq_true rfl, wf_of _⟩
theorem draw (r : Reg) (y : Reg) (t : Reg) (a : Reg) : Statement (.draw r y t a) :=
  ⟨rfl, Nat.le_of_ble_eq_true rfl, Nat.le_of_ble_eq_true rfl, wf_of _⟩
theorem instr (r : Reg) (a : Reg) (b : Reg) : Statement (.instr r a b) :=
  ⟨rfl, Nat.le_of_ble_eq_true rfl, Nat.le_of_ble_eq_true rfl, wf_of _⟩
theorem play (a : Reg) (b : Reg) (imm8 : Byte) : Statement (.play a b imm8) :=
  ⟨rfl, Nat.le_of_ble_eq_true rfl, Nat.le_of_ble_eq_true rfl, wf_of _⟩
theorem stop (a : Reg) : Statement (.stop a) :=
  ⟨rfl, Nat.le_of_ble_eq_true rfl, Nat.le_of_ble_eq_true rfl, wf_of _⟩
theorem input (a : Reg) (b : Reg) : Statement (.input a b) :=
  ⟨rfl, Nat.le_of_ble_eq_true rfl, Nat.le_of_ble_eq_true rfl, wf_of _⟩
theorem text (a : Reg) : Statement (.text a) :=
  ⟨rfl, Nat.le_of_ble_eq_true rfl, Nat.le_of_ble_eq_true rfl, wf_of _⟩
theorem attr (a : Reg) : Statement (.attr a) :=
  ⟨rfl, Nat.le_of_ble_eq_true rfl, Nat.le_of_ble_eq_true rfl, wf_of _⟩
theorem swc (a : Reg) (b : Reg) : Statement (.swc a b) :=
  ⟨rfl, Nat.le_of_ble_eq_true rfl, Nat.le_of_ble_eq_true rfl, wf_of _⟩
theorem col (a : Reg) (b : Reg) : Statement (.col a b) :=
  ⟨rfl, Nat.le_of_ble_eq_true rfl, Nat.le_of_ble_eq_true rfl, wf_of _⟩
theorem setcrs (a : Reg) (b : Reg) : Statement (.setcrs a b) :=
  ⟨rfl, Nat.le_of_ble_eq_true rfl, Nat.le_of_ble_eq_true rfl, wf_of _⟩
theorem cam (a : Reg) (b : Reg) : Statement (.cam a b) :=
  ⟨rfl, Nat.le_of_ble_eq_true rfl, Nat.le_of_ble_eq_true rfl, wf_of _⟩
theorem cammv (a : Reg) (b : Reg) : Statement (.cammv a b) :=
  ⟨rfl, Nat.le_of_ble_eq_true rfl, Nat.le_of_ble_eq_true rfl, wf_of _⟩
theorem setoam (a : Reg) : Statement (.setoam a) :=
  ⟨rfl, Nat.le_of_ble_eq_true rfl, Nat.le_of_ble_eq_true rfl, wf_of _⟩
theorem bank (a : Reg) : Statement (.bank a) :=
  ⟨rfl, Nat.le_of_ble_eq_true rfl, Nat.le_of_ble_eq_true rfl, wf_of _⟩
theorem outR (a : Reg) : Statement (.outR a) :=
  ⟨rfl, Nat.le_of_ble_eq_true rfl, Nat.le_of_ble_eq_true rfl, wf_of _⟩
theorem outS (a : Reg) : Statement (.outS a) :=
  ⟨rfl, Nat.le_of_ble_eq_true rfl, Nat.le_of_ble_eq_true rfl, wf_of _⟩
theorem altCls : Statement .altCls :=
  ⟨rfl, Nat.le_of_ble_eq_true rfl, Nat.le_of_ble_eq_true rfl, wf_of _⟩
theorem altMute : Statement .altMute :=
  ⟨rfl, Nat.le_of_ble_eq_true rfl, Nat.le_of_ble_eq_true rfl, wf_of _⟩
theorem altLdp (a : Reg) (b : Reg) : Statement (.altLdp a b) :=
  ⟨rfl, Nat.le_of_ble_eq_true rfl, Nat.le_of_ble_eq_true rfl, wf_of _⟩
theorem altLdm (r : Reg) (a16 : Word) : Statement (.altLdm r a16) :=
  ⟨rfl, Nat.le_of_ble_eq_true rfl, Nat.le_of_ble_eq_true rfl, wf_of _⟩
theorem altStm (r : Reg) (a16 : Word) : Statement (.altStm r a16) :=
  ⟨rfl, Nat.le_of_ble_eq_true rfl, Nat.le_of_ble_eq_true rfl, wf_of _⟩
theorem altIadd (r : Reg) (imm16 : Word) : Statement (.altIadd r imm16) :=
  ⟨rfl, Nat.le_of_ble_eq_true rfl, Nat.le_of_ble_eq_true rfl, wf_of _⟩
theorem altIsub (r : Reg) (imm16 : Word) : Statement (.altIsub r imm16) :=
  ⟨rfl, Nat.le_of_ble_eq_true rfl, Nat.le_of_ble_eq_true rfl, wf_of _⟩
theorem altIcmp (r : Reg) (imm16 : Word) : Statement (.altIcmp r imm16) :=
  ⟨rfl, Nat.le_of_ble_eq_true rfl, Nat.le_of_ble_eq_true rfl, wf_of _⟩
theorem altSetcrs (a : Reg) (b : Reg) : Statement (.altSetcrs a b) :=
  ⟨rfl, Nat.le_of_ble_eq_true rfl, Nat.le_of_ble_eq_true rfl, wf_of _⟩

end Sys2Proof.Laws.EncodedLength
end

