-- ==== Sys2Proof/Laws/Triggers.lean ====
section
/-! SUPPORT. What the arbiter's triggers do, each said once. -/

namespace Sys2Proof.Machine

theorem channels_modifyChannel (s : State) (c d : Fin 8) (f : Channel → Channel) :
    (s.modifyChannel c f).audio.channels.get d = if d = c then f (s.audio.channels.get c) else s.audio.channels.get d := by
  simp only [State.modifyChannel, Vector.get_eq_getElem, Vector.getElem_set]
  by_cases h : c.val = d.val
  · have : d = c := Fin.ext h.symm
    subst this; simp
  · rw [if_neg h, if_neg (fun e => h (by rw [e]))]

theorem ramRead_releaseChannel (s : State) (c : Fin 8) (x : Nat) :
    (s.releaseChannel c).ramRead x = if x = 0xF7A3 + 4 * c.val then s.ramRead x &&& 0xF0 else s.ramRead x := by
  have : (s.releaseChannel c).ramRead x = (s.ramWrite (channelAddr c 3) (s.ramRead (channelAddr c 3) &&& 0xF0)).ramRead x := rfl
  have ha : channelAddr c 3 = 0xF7A3 + 4 * c.val := by simp [channelAddr]; omega
  rw [this, ramRead_ramWrite, ha]
  by_cases h : x = 0xF7A3 + 4 * c.val
  · subst h; simp
  · simp [h]

theorem channels_releaseChannel (s : State) (c d : Fin 8) :
    (s.releaseChannel c).audio.channels.get d =
      if d = c then { s.audio.channels.get d with priority := false } else s.audio.channels.get d := by
  have : (s.releaseChannel c).audio.channels = s.audio.channels.set c.val { s.audio.channels.get c with priority := false } := rfl
  rw [this]
  simp only [Vector.get_eq_getElem, Vector.getElem_set]
  by_cases h : c.val = d.val
  · have : d = c := Fin.ext h.symm
    subst this; simp
  · rw [if_neg h, if_neg (fun e => h (by rw [e]))]

theorem releaseAll_spec (s : State) (l : List (Fin 8)) :
    let t := l.foldl State.releaseChannel s
    (∀ x, t.ramRead x = if ∃ c ∈ l, x = 0xF7A3 + 4 * c.val then s.ramRead x &&& 0xF0 else s.ramRead x) ∧
    (∀ d, t.audio.channels.get d = if d ∈ l then { s.audio.channels.get d with priority := false } else s.audio.channels.get d) ∧
    t.cpu = s.cpu ∧ t.ppu = s.ppu ∧ t.env = s.env ∧ t.bus = { s.bus with ram := t.bus.ram } ∧
    t.audio = { s.audio with channels := t.audio.channels } := by
  induction l generalizing s with
  | nil => simp
  | cons c l ih =>
    obtain ⟨h1, h2, h3, h4, h5, h6, h7⟩ := ih (s.releaseChannel c)
    simp only [List.foldl_cons]
    refine ⟨?_, ?_, h3, h4, h5, ?_, ?_⟩
    · intro x
      rw [h1, ramRead_releaseChannel]
      by_cases hx : x = 0xF7A3 + 4 * c.val
      · have : ∃ d ∈ c :: l, x = 0xF7A3 + 4 * d.val := ⟨c, by simp, hx⟩
        rw [if_pos hx, if_pos this]
        split
        · rw [BitVec.and_assoc]; rfl
        · rfl
      · rw [if_neg hx]
        have : (∃ d ∈ c :: l, x = 0xF7A3 + 4 * d.val) ↔ ∃ d ∈ l, x = 0xF7A3 + 4 * d.val := by
          simp [hx]
        simp only [this]
    · intro d
      rw [h2, channels_releaseChannel]
      by_cases hd : d = c
      · subst hd; simp
      · simp [hd]
    · rw [h6]; rfl
    · rw [h7]; rfl

theorem wordOf_split (w : Word) : wordOf (loByte w) (hiByte w) = w := by
  rw [← joinBytes_eq, joinBytes_split]

theorem playChannel_spec (s : State) (c : Fin 8) (note : Byte) (ins : BitVec 4) (ov : Bool)
    (h : (s.audio.channels.get c).priority = false ∨ ov = true) :
    let t := s.playChannel c note ins ov
    (∀ x, t.ramRead x = if x = 0xF7A0 + 4 * c.val then loByte (noteFreq note) else if x = 0xF7A1 + 4 * c.val then hiByte (noteFreq note)
      else if x = 0xF7A3 + 4 * c.val then nibbles ins 1 else s.ramRead x) ∧
    (∀ d, t.audio.channels.get d = if d = c then { s.audio.channels.get c with priority := ov, retrig := true } else s.audio.channels.get d) ∧
    t.cpu = s.cpu ∧ t.ppu = s.ppu ∧ t.env = s.env ∧ t.bus = { s.bus with ram := t.bus.ram } ∧
    t.audio = { s.audio with channels := t.audio.channels } := by
  have hc : ((s.audio.channels.get c).priority && !ov) = false := by rcases h with h | h <;> simp [h]
  have ht : s.playChannel c note ins ov = ((s.modifyChannel c fun ch => { ch with priority := ov, retrig := true }).ramLoad (channelAddr c 0) [loByte (noteFreq note), hiByte (noteFreq note)]).ramWrite (channelAddr c 3) (nibbles ins 1) := by
    unfold State.playChannel; rw [if_neg (by simp [hc])]
  simp only [ht]
  refine ⟨?_, ?_, rfl, rfl, rfl, rfl, rfl⟩
  · intro x
    have ha : channelAddr c 3 = 0xF7A3 + 4 * c.val := by simp [channelAddr]; omega
    have hb : channelAddr c 0 = 0xF7A0 + 4 * c.val := by simp [channelAddr]
    rw [ramRead_ramWrite, ramRead_ramLoad, ha, hb]
    simp only [List.length_cons, List.length_nil]
    by_cases h0 : x = 0xF7A0 + 4 * c.val
    · subst h0; rw [if_neg (by omega), if_pos (by omega), if_pos rfl]; simp
    · by_cases h1 : x = 0xF7A1 + 4 * c.val
      · subst h1; rw [if_neg (by omega), if_pos (by omega), if_neg (by omega), if_pos rfl, show 0xF7A1 + 4 * c.val - (0xF7A0 + 4 * c.val) = 1 by omega]; rfl
      · by_cases h3 : x = 0xF7A3 + 4 * c.val
        · rw [if_pos h3, if_neg h0, if_neg h1, if_pos h3]
        · rw [if_neg h3, if_neg (by omega), if_neg h0, if_neg h1, if_neg h3]; rfl
  · intro d
    exact channels_modifyChannel s c d (fun ch => { ch with priority := ov, retrig := true })

theorem movedCursor_place (x y : Fin 32) (dx dy : Int) :
   32 * ((movedCursor x y dx dy).2.val : Int) + ((movedCursor x y dx dy).1.val : Int) = (32 * (y.val : Int) + x.val + dx + 32 * dy).emod 1024 := by
  simp only [movedCursor, Fin.ofNat]
  have hx := x.isLt
  have hy := y.isLt
  generalize x.val = X at *
  generalize y.val = Y at *
  have h1 := Int.emod_nonneg ((X:Int) + dx) (show (32:Int) ≠ 0 by norm_num)
  have h2 := Int.emod_lt_of_pos ((X:Int) + dx) (show (0:Int) < 32 by norm_num)
  have h3 := Int.emod_nonneg ((Y:Int) + dy + ((X:Int)+dx).ediv 32) (show (32:Int) ≠ 0 by norm_num)
  have h4 := Int.emod_lt_of_pos ((Y:Int) + dy + ((X:Int)+dx).ediv 32) (show (0:Int) < 32 by norm_num)
  show 32 * (((((Y:Int) + dy + ((X:Int)+dx)/32) % 32).toNat % 32 : Nat) : Int) + (((((X:Int)+dx) % 32).toNat % 32 : Nat) : Int) = (32 * (Y:Int) + X + dx + 32*dy) % 1024
  omega

theorem stringAt_spec (s : State) (n : Nat) (p : Word) :
   (stringAt s p n).length ≤ n ∧ (∀ k, k < (stringAt s p n).length → (stringAt s p n).getD k 0 = busRead8 s (p + BitVec.ofNat 16 k) ∧ busRead8 s (p + BitVec.ofNat 16 k) ≠ 0x00) ∧
   ((stringAt s p n).length < n → busRead8 s (p + BitVec.ofNat 16 (stringAt s p n).length) = 0x00) := by
  induction n generalizing p with
  | zero => simp [stringAt]
  | succ n ih =>
    obtain ⟨h1, h2, h3⟩ := ih (p+1)
    have hadd : ∀ k, p + BitVec.ofNat 16 (k+1) = p + 1 + BitVec.ofNat 16 k := by
      intro k; apply BitVec.eq_of_toNat_eq; simp; omega
    unfold stringAt
    simp only
    split
    · rename_i hz
      refine ⟨by simp, by simp, fun _ => ?_⟩
      simpa using hz
    · rename_i hz
      refine ⟨by simpa using h1, ?_, ?_⟩
      · intro k hk
        cases k with
        | zero => simp; exact hz
        | succ k =>
          have := h2 k (by simpa using hk)
          rw [hadd]; simpa using this
      · intro hk
        rw [List.length_cons, hadd]
        exact h3 (by simpa using hk)

theorem spriteAt_eq_none (s : State) (i : Nat) : spriteAt s.ppu.oam i = none ↔ EntryEmpty s i := by
  unfold spriteAt
  constructor
  · intro h
    split at h
    · rename_i h'
      rw [List.all_eq_true] at h'
      intro k hk
      have := h' k (by simpa using hk)
      exact eq_of_beq this
    · cases h
  · intro h
    rw [if_pos]
    rw [List.all_eq_true]
    intro k hk
    have := h k (by simpa using hk)
    exact beq_iff_eq.mpr this

theorem spriteAt_eq_some {s : State} {i : Nat} {p : Sprite} (h : spriteAt s.ppu.oam i = some p) :
   p.x.toNat = entryX s i ∧ p.y.toNat = entryY s i ∧ p.kind = entryByte s i 6 := by
  unfold spriteAt at h
  split at h
  · cases h
  · cases h
    refine ⟨joinBytes_toNat _ _, joinBytes_toNat _ _, rfl⟩

theorem unflag (b : Byte) : (b.getLsbD 0 || b.getLsbD 1) = false ↔ b.toNat % 4 = 0 := by revert b; decide

theorem collides_iff {s : State} {i : Nat} {p : Sprite} (hi : i < 512) (hp : spriteAt s.ppu.oam i = some p) (t : Nat) (ht : t < 512) :
   collides s.ppu.oam i p t = true ↔ Collision s i t := by
  have hne : ¬ EntryEmpty s i := by rw [← spriteAt_eq_none, hp]; simp
  obtain ⟨hx, hy, -⟩ := spriteAt_eq_some hp
  unfold collides
  rw [Bool.and_eq_true, decide_eq_true_eq]
  cases hq : spriteAt s.ppu.oam t with
  | none =>
    have := (spriteAt_eq_none s t).mp hq
    constructor
    · rintro ⟨-, h⟩; cases h
    · intro h; exact absurd this h.populated.2
  | some q =>
    have hne' : ¬ EntryEmpty s t := by rw [← spriteAt_eq_none, hq]; simp
    obtain ⟨hx', hy', hk⟩ := spriteAt_eq_some hq
    simp only [Bool.and_eq_true, Bool.not_eq_true', boxesMeet, decide_eq_true_eq, Sprite.hud, Sprite.background, hk, hx, hy, hx', hy', cfg_typeHudBit, cfg_typeBgBit, unflag]
    constructor
    · rintro ⟨h1, h2, ⟨h3, h4⟩, h5⟩
      exact ⟨⟨hi, ht⟩, h1, ⟨hne, hne'⟩, h2, h3, h4, h5⟩
    · intro h
      exact ⟨h.other, h.unflagged, ⟨h.columns, h.rows.1⟩, h.rows.2⟩

end Sys2Proof.Machine
end

