-- ==== Sys2Proof/Laws/Picture.lean ====
section
/-! SUPPORT. What compositing does to one pixel, said once for each layer: a blit, the sprites in their
order, and the pass without text. -/

namespace Sys2Proof.Machine

/-- The colour value a sprite's tile stores at its row r and column c on screen, before clipping; none
where the pixel is transparent (R314). -/
def spriteColour (s : State) (p : Sprite) (r c : Nat) : Option Byte :=
  let v := tilePixel s p.tile (if p.attr.getLsbD cfg.attrVflipBit then 7 - r else r)
    (if p.attr.getLsbD cfg.attrHflipBit then 7 - c else c)
  if v = 0 then none
  else some (if p.attr.getLsbD cfg.attrAltpalBit then v.setWidth 8 + 16 else v.setWidth 8)

/-- What a sprite with its top left at (sx, sy) stores at pixel (x, y), if anything. -/
def blitColour (s : State) (p : Sprite) (sx sy : Int) (x y : Nat) : Option Byte :=
  let c := (x : Int) - sx
  let r := (y : Int) - sy
  if 0 ≤ c ∧ c < 8 ∧ 0 ≤ r ∧ r < 8 then spriteColour s p r.toNat c.toNat else none

theorem blitPixel_read (s : State) (p : Sprite) (sx sy : Int) (r c : Nat) (pb : Memory) {x y : Nat}
    (hx : x < 256) (hy : y < 256) :
    (blitPixel s p sx sy r c pb).read .pixbuf (pixelIndex x y) =
      if (x : Int) = sx + c ∧ (y : Int) = sy + r then
        (spriteColour s p r c).getD (pb.read .pixbuf (pixelIndex x y))
      else pb.read .pixbuf (pixelIndex x y) := by
  unfold blitPixel spriteColour
  dsimp only
  generalize tilePixel s p.tile _ _ = v
  by_cases hout : sx + (c : Int) < 0 ∨ 255 < sx + (c : Int) ∨ sy + (r : Int) < 0 ∨ 255 < sy + (r : Int)
  · rw [if_pos hout, if_neg (by omega)]
  · rw [if_neg hout]
    by_cases hv : v = 0
    · simp [hv]
    · rw [if_neg hv, if_neg hv, Memory.read_write, Option.getD_some]
      refine if_congr ?_ rfl rfl
      unfold pixelIndex
      rw [cfg_screenW]
      omega

/-- Folding over numbers that touch a value only at k applies the operation for k once. -/
theorem foldl_range_once {α β : Type} (f : β → Nat → β) (g : β → α) (val : α → α) (k : Nat)
    (hk : ∀ b, g (f b k) = val (g b)) (ho : ∀ b i, i ≠ k → g (f b i) = g b) (n : Nat) (b : β) :
    g ((List.range n).foldl f b) = if k < n then val (g b) else g b := by
  induction n with
  | zero => rfl
  | succ n ih =>
    rw [List.range_succ, List.foldl_append, List.foldl_cons, List.foldl_nil]
    by_cases h : n = k
    · subst h
      rw [hk, ih, if_neg (by omega), if_pos (by omega)]
    · rw [ho _ _ h, ih]
      exact if_congr (by omega) rfl rfl

/-- Folding over numbers none of which touches a value leaves it. -/
theorem foldl_range_never {α β : Type} (f : β → Nat → β) (g : β → α) (ho : ∀ b i, g (f b i) = g b) (n : Nat)
    (b : β) : g ((List.range n).foldl f b) = g b := by
  induction n with
  | zero => rfl
  | succ n ih => rw [List.range_succ, List.foldl_append, List.foldl_cons, List.foldl_nil, ho, ih]

/-- R314: after a blit a pixel holds what the sprite stores there, or what it held. -/
theorem blit_read (s : State) (p : Sprite) (sx sy : Int) (pb : Memory) {x y : Nat} (hx : x < 256)
    (hy : y < 256) :
    (blit s p sx sy pb).read .pixbuf (pixelIndex x y) =
      (blitColour s p sx sy x y).getD (pb.read .pixbuf (pixelIndex x y)) := by
  unfold blit blitColour
  dsimp only
  have row (r : Nat) (b : Memory) :
      ((List.range 8).foldl (fun b c => blitPixel s p sx sy r c b) b).read .pixbuf (pixelIndex x y) =
        if (y : Int) = sy + r ∧ 0 ≤ (x : Int) - sx ∧ (x : Int) - sx < 8 then
          (spriteColour s p r ((x : Int) - sx).toNat).getD (b.read .pixbuf (pixelIndex x y))
        else b.read .pixbuf (pixelIndex x y) := by
    by_cases h : (y : Int) = sy + r ∧ 0 ≤ (x : Int) - sx
    · rw [foldl_range_once (fun b c => blitPixel s p sx sy r c b) (fun b => b.read .pixbuf (pixelIndex x y))
        (fun v => (spriteColour s p r ((x : Int) - sx).toNat).getD v) ((x : Int) - sx).toNat]
      · exact if_congr (by omega) rfl rfl
      · intro b
        rw [blitPixel_read _ _ _ _ _ _ _ hx hy, if_pos (by omega)]
      · intro b c hc
        rw [blitPixel_read _ _ _ _ _ _ _ hx hy, if_neg (by omega)]
    · rw [if_neg (by omega)]
      refine foldl_range_never (fun b c => blitPixel s p sx sy r c b) (fun b => b.read .pixbuf (pixelIndex x y))
        (fun b c => ?_) 8 b
      rw [blitPixel_read _ _ _ _ _ _ _ hx hy, if_neg (by omega)]
  by_cases h : 0 ≤ (x : Int) - sx ∧ (x : Int) - sx < 8 ∧ 0 ≤ (y : Int) - sy
  · rw [foldl_range_once
      (fun b r => (List.range 8).foldl (fun b c => blitPixel s p sx sy r c b) b)
      (fun b => b.read .pixbuf (pixelIndex x y))
      (fun v => (spriteColour s p ((y : Int) - sy).toNat ((x : Int) - sx).toNat).getD v) ((y : Int) - sy).toNat]
    · by_cases h8 : (y : Int) - sy < 8
      · rw [if_pos (by omega), if_pos (by omega)]
      · rw [if_neg (by omega), if_neg (by omega), Option.getD_none]
    · intro b
      rw [row, if_pos (by omega)]
    · intro b r hr
      rw [row, if_neg (by omega)]
  · rw [if_neg (by omega), Option.getD_none]
    refine foldl_range_never (fun b r => (List.range 8).foldl (fun b c => blitPixel s p sx sy r c b) b)
      (fun b => b.read .pixbuf (pixelIndex x y)) (fun b r => ?_) 8 pb
    rw [row, if_neg (by omega)]

/-- Where each operation of a list stores a value or leaves the pixel, the last that stores decides. -/
theorem foldl_last {α β γ : Type} (f : β → α → β) (g : β → γ) (val : α → Option γ)
    (h : ∀ b a, g (f b a) = (val a).getD (g b)) (l : List α) (b : β) :
    g (l.foldl f b) = ((l.filterMap val).getLast?).getD (g b) := by
  induction l generalizing b with
  | nil => rfl
  | cons a l ih =>
    rw [List.foldl_cons, ih, h]
    cases hv : val a with
    | none => simp [hv]
    | some v =>
      rw [List.filterMap_cons_some hv, List.getLast?_cons]
      rfl

/-- The colour a populated entry stores at pixel (x, y): through the camera, or, for a HUD entry in range,
at its own place (R312, R313). -/
def layerColour (s : State) (x y : Nat) (p : Sprite) : Option Byte :=
  if p.hud then
    if hudInRange p then blitColour s p p.x.toNat p.y.toNat x y else none
  else blitColour s p ((p.x.toNat : Int) - s.ppu.camX) ((p.y.toNat : Int) - s.ppu.camY) x y

/-- R312: after the sprites a pixel holds what the frontmost sprite there stores: the last HUD entry, else
the last other entry, else what it held. -/
theorem drawSprites_read (s : State) (pb : Memory) {x y : Nat} (hx : x < 256) (hy : y < 256) :
    (drawSprites s pb).read .pixbuf (pixelIndex x y) =
      ((((populated s.ppu.oam).filter (·.hud)).filterMap (layerColour s x y)).getLast?.getD
        ((((populated s.ppu.oam).filter fun p => !p.hud).filterMap (layerColour s x y)).getLast?.getD
          (pb.read .pixbuf (pixelIndex x y)))) := by
  unfold drawSprites
  dsimp only
  rw [foldl_last _ (fun b => b.read .pixbuf (pixelIndex x y))
      (fun p => blitColour s p p.x.toNat p.y.toNat x y) (fun b p => blit_read s p _ _ b hx hy),
    foldl_last _ (fun b => b.read .pixbuf (pixelIndex x y))
      (fun p => blitColour s p ((p.x.toNat : Int) - s.ppu.camX) ((p.y.toNat : Int) - s.ppu.camY) x y)
      (fun b p => blit_read s p _ _ b hx hy)]
  have world : ((populated s.ppu.oam).filter fun p => !p.hud).filterMap
      (fun p => blitColour s p ((p.x.toNat : Int) - s.ppu.camX) ((p.y.toNat : Int) - s.ppu.camY) x y) =
      ((populated s.ppu.oam).filter fun p => !p.hud).filterMap (layerColour s x y) := by
    refine List.filterMap_congr fun p hp => ?_
    have hp' : p.hud = false := by simpa using (List.mem_filter.mp hp).2
    simp [layerColour, hp']
  have front : ((populated s.ppu.oam).filter hudInRange).filterMap
      (fun p => blitColour s p p.x.toNat p.y.toNat x y) =
      ((populated s.ppu.oam).filter (·.hud)).filterMap (layerColour s x y) := by
    rw [List.filterMap_filter, List.filterMap_filter]
    refine List.filterMap_congr fun p _ => ?_
    by_cases hh : p.hud = true <;> by_cases hr : hudInRange p = true <;>
      simp_all [layerColour, hudInRange]
  rw [world, front]

/-- Reading cells with the addresses of a list, each once, where the address is in it. -/
theorem read_map_of_mem (st : Store) (v : Byte) {l : List Nat} {a : Nat} (h : a ∈ l) :
    Memory.read st (l.map fun i => (i, v)) a = v := by
  induction l with
  | nil => cases h
  | cons k l ih =>
    rw [List.map_cons, Memory.read]
    split
    · rfl
    · exact ih ((List.mem_cons.mp h).resolve_left fun e => by simp_all)

/-- R311: every pixel of the background is its colour. -/
theorem background_read (c : BitVec 5) {a : Nat} (h : a < 65536) :
    ((background c).read .pixbuf a).toNat = c.toNat := by
  have hs : cfg.screenW * cfg.screenH = 65536 := rfl
  unfold background
  rw [hs]
  split
  · rename_i h0
    subst h0
    rfl
  · rw [read_map_of_mem _ _ (List.mem_range.mpr h), BitVec.toNat_setWidth]
    have := c.isLt
    omega

/-- The pixel buffer after a pass (R300). -/
theorem vblankPass_pixbuf (s : State) :
    s.vblankPass.ppu.pixbuf = drawText s (drawSprites s (background s.ppu.bgColor)) := by
  unfold State.vblankPass compose
  rfl

/-! ## The sprites as `SpriteShows` describes them -/

theorem tilePixel_toNat (s : State) (t : Byte) (r c : Nat) :
    (tilePixel s t r c).toNat = tileNibble s t.toNat r c := by
  have base : tileBase t + 4 * r + c / 2 = 0xDFE0 - 32 * t.toNat + 4 * r + c / 2 := by
    unfold tileBase
    rw [cfg_atlasTop, cfg_tileBytes]
    omega
  unfold tilePixel tileNibble
  rw [base]
  dsimp only
  split
  · exact hiNibble_toNat _
  · exact loNibble_toNat _

theorem attr_bits (b : Byte) :
    (b.getLsbD 0 = true ↔ b.toNat % 2 = 1) ∧ (b.getLsbD 1 = true ↔ b.toNat / 2 % 2 = 1) ∧
      (b.getLsbD 2 = true ↔ b.toNat / 4 % 2 = 1) := by revert b; decide

theorem stored_toNat (alt : Bool) (v : BitVec 4) :
    (if alt then v.setWidth 8 + 16 else v.setWidth 8 : Byte).toNat =
      if alt then v.toNat + 16 else v.toNat := by revert alt v; decide

/-- What a sprite stores at a row and a column of its tile, in numbers (R314, R315). -/
theorem spriteColour_eq_some (s : State) (p : Sprite) (r c v : Nat) :
    (∃ b, spriteColour s p r c = some b ∧ b.toNat = v) ↔
      ∃ q, q = tileNibble s p.tile.toNat (if p.attr.toNat / 2 % 2 = 1 then 7 - r else r)
        (if p.attr.toNat % 2 = 1 then 7 - c else c) ∧
        q ≠ 0 ∧ v = if p.attr.toNat / 4 % 2 = 1 then q + 16 else q := by
  obtain ⟨h0, h1, h2⟩ := attr_bits p.attr
  unfold spriteColour
  rw [cfg_attrVflipBit, cfg_attrHflipBit, cfg_attrAltpalBit]
  simp only [h0, h1]
  have hq := tilePixel_toNat s p.tile (if p.attr.toNat / 2 % 2 = 1 then 7 - r else r)
    (if p.attr.toNat % 2 = 1 then 7 - c else c)
  rw [← hq]
  generalize tilePixel s p.tile _ _ = w
  have hw : w = 0 ↔ w.toNat = 0 := by revert w; decide
  have hs := stored_toNat (p.attr.getLsbD 2) w
  by_cases h : w = 0
  · constructor
    · rintro ⟨b, hb, -⟩
      rw [if_pos h] at hb
      cases hb
    · rintro ⟨q, rfl, hne, -⟩
      exact absurd (hw.mp h) hne
  · rw [if_neg h]
    constructor
    · rintro ⟨b, hb, rfl⟩
      refine ⟨_, rfl, fun e => h (hw.mpr e), ?_⟩
      rw [← Option.some.inj hb, hs]
      simp only [h2]
    · rintro ⟨q, rfl, -, rfl⟩
      refine ⟨_, rfl, ?_⟩
      rw [hs]
      simp only [h2]

/-- The parts of a populated entry (R45). -/
theorem spriteAt_fields {s : State} {i : Nat} {p : Sprite} (h : spriteAt s.ppu.oam i = some p) :
    p.tile = entryByte s i 4 ∧ p.attr = entryByte s i 5 ∧ (p.hud = true ↔ EntryHud s i) := by
  unfold spriteAt at h
  split at h
  · cases h
  · cases h
    exact ⟨rfl, rfl, (attr_bits _).1⟩

/-- What an entry stores at a pixel, in numbers: a pixel of its tile lies there. -/
theorem blitColour_eq_some (s : State) (p : Sprite) (sx sy : Int) (x y v : Nat) :
    (∃ b, blitColour s p sx sy x y = some b ∧ b.toNat = v) ↔
      ∃ r c q : Nat, r < 8 ∧ c < 8 ∧ (x : Int) = sx + c ∧ (y : Int) = sy + r ∧
        q = tileNibble s p.tile.toNat (if p.attr.toNat / 2 % 2 = 1 then 7 - r else r)
          (if p.attr.toNat % 2 = 1 then 7 - c else c) ∧
        q ≠ 0 ∧ v = if p.attr.toNat / 4 % 2 = 1 then q + 16 else q := by
  unfold blitColour
  dsimp only
  constructor
  · rintro ⟨b, hb, hv⟩
    split at hb
    · rename_i hin
      obtain ⟨q, h⟩ := (spriteColour_eq_some s p _ _ v).mp ⟨b, hb, hv⟩
      exact ⟨_, _, q, by omega, by omega, by omega, by omega, h⟩
    · cases hb
  · rintro ⟨r, c, q, hr, hc, hx, hy, h⟩
    rw [if_pos (by omega), show ((y : Int) - sy).toNat = r by omega,
      show ((x : Int) - sx).toNat = c by omega]
    exact (spriteColour_eq_some s p r c v).mpr ⟨q, h⟩

/-- An entry draws a colour value at a pixel exactly when its layer stores that value there. -/
theorem spriteShows_iff (s : State) (i x y v : Nat) :
    SpriteShows s i x y v ↔
      i < 512 ∧ ∃ p b, spriteAt s.ppu.oam i = some p ∧ layerColour s x y p = some b ∧ b.toNat = v := by
  constructor
  · intro h
    refine ⟨h.inTable, ?_⟩
    cases hp : spriteAt s.ppu.oam i with
    | none => exact absurd ((spriteAt_eq_none s i).mp hp) h.populated
    | some p =>
      obtain ⟨hx, hy, -⟩ := spriteAt_eq_some hp
      obtain ⟨ht, ha, hh⟩ := spriteAt_fields hp
      obtain ⟨r, c, q, attr, hr, hc, rfl, h1, h2, h3⟩ := h.pixel
      rw [← ht, ← ha] at h3
      suffices hs : ∃ b, layerColour s x y p = some b ∧ b.toNat = v by
        obtain ⟨b, hb⟩ := hs
        exact ⟨p, b, rfl, hb⟩
      unfold layerColour
      by_cases hud : p.hud = true
      · have hr' := h.inRange (hh.mp hud)
        rw [if_pos hud, if_pos (by simp [hudInRange, hud, hx, hy, hr'])]
        have := h1 (hh.mp hud)
        exact (blitColour_eq_some s p _ _ x y v).mpr ⟨r, c, q, hr, hc, by omega, by omega, h3⟩
      · rw [if_neg hud]
        have := h2 (fun e => hud (hh.mpr e))
        exact (blitColour_eq_some s p _ _ x y v).mpr ⟨r, c, q, hr, hc, by omega, by omega, h3⟩
  · rintro ⟨hi, p, b, hp, hb, hv⟩
    obtain ⟨hx, hy, -⟩ := spriteAt_eq_some hp
    obtain ⟨ht, ha, hh⟩ := spriteAt_fields hp
    have hne : ¬ EntryEmpty s i := by rw [← spriteAt_eq_none, hp]; simp
    unfold layerColour at hb
    by_cases hud : p.hud = true
    · rw [if_pos hud] at hb
      split at hb
      · rename_i hin
        simp only [hudInRange, Bool.and_eq_true, decide_eq_true_eq] at hin
        obtain ⟨r, c, q, hr, hc, h1, h2, h3⟩ := (blitColour_eq_some s p _ _ x y v).mp ⟨b, hb, hv⟩
        rw [ht, ha] at h3
        exact ⟨hi, hne, fun _ => by omega,
          r, c, q, _, hr, hc, rfl, fun _ => by omega, fun e => absurd (hh.mp hud) e, h3⟩
      · cases hb
    · rw [if_neg hud] at hb
      obtain ⟨r, c, q, hr, hc, h1, h2, h3⟩ := (blitColour_eq_some s p _ _ x y v).mp ⟨b, hb, hv⟩
      rw [ht, ha] at h3
      exact ⟨hi, hne, fun e => absurd (hh.mpr e) hud,
        r, c, q, _, hr, hc, rfl, fun e => absurd (hh.mpr e) hud, fun _ => by omega, h3⟩

/-! ## The pass without text -/

theorem foldl_id {α β : Type} {f : β → α → β} {l : List α} (h : ∀ b a, a ∈ l → f b a = b) (b : β) :
    l.foldl f b = b := by
  induction l with
  | nil => rfl
  | cons a l ih =>
    rw [List.foldl_cons, h b a List.mem_cons_self]
    exact ih fun b x hx => h b x (List.mem_cons_of_mem _ hx)

/-- R316: an empty text grid draws nothing. -/
theorem drawText_blank {s : State} (h : s.ppu.textGrid = []) (pb : Memory) : drawText s pb = pb := by
  unfold drawText
  rw [h]
  exact foldl_id (fun _ _ _ => foldl_id (fun _ _ _ => if_pos rfl) _) pb

end Sys2Proof.Machine
end

