-- ==== Sys2Proof/Laws/Stores.lean ====
section
/-! SUPPORT. The three ways a store over the bus can end, said once for a byte, a word and both operand
forms: it lands (or is suppressed) and the instruction goes on, it faults, or it hands off. -/

namespace Sys2Proof.Machine

/-- What no store changes before a fault or a handoff: everything but `ram` and the banks' bytes, and in
cartridge mode every byte of `ram` from RESERVED_BASE up (R85). -/
structure StoreFrame (s t : State) : Prop where
  cpu : t.cpu = s.cpu
  ppu : t.ppu = s.ppu
  audio : t.audio = s.audio
  env : t.env = s.env
  bus : t.bus = { s.bus with ram := t.bus.ram, banks := t.bus.banks }
  bankCount : t.bus.banks.length = s.bus.banks.length
  reserved : s.bus.bootMode = false → ∀ a, 0xF800 ≤ a → t.ramRead a = s.ramRead a

theorem StoreFrame.refl (s : State) : StoreFrame s s := ⟨rfl, rfl, rfl, rfl, rfl, rfl, fun _ _ _ => rfl⟩

theorem StoreFrame.trans {s t u : State} (h1 : StoreFrame s t) (h2 : StoreFrame t u) : StoreFrame s u where
  cpu := h2.cpu.trans h1.cpu
  ppu := h2.ppu.trans h1.ppu
  audio := h2.audio.trans h1.audio
  env := h2.env.trans h1.env
  bus := by rw [h2.bus, h1.bus]
  bankCount := h2.bankCount.trans h1.bankCount
  reserved hb a ha := by
    rw [h2.reserved (by rw [h1.bus]; exact hb) a ha, h1.reserved hb a ha]

theorem StoreFrame.place {s : State} {a : Word} {b : Byte} (h : ¬ s.Protected a) :
    StoreFrame s (s.place a b) where
  cpu := place_cpu s a b
  ppu := place_ppu s a b
  audio := place_audio s a b
  env := place_env s a b
  bus := place_bus s a b
  bankCount := place_bankCount s a b
  reserved hb x hx := by
    unfold State.place
    split
    · rfl
    · rw [ramRead_ramWrite, if_neg]
      rintro rfl
      exact h ⟨hb, hx⟩

/-- How a store can leave the instruction (R84, R461, R463). -/
inductive StoreEnd (s : State) : Flow → Prop where
  /-- It landed, or was turned away while faults are suppressed. -/
  | goOn {t : State} (h : StoreFrame s t) : StoreEnd s (.goOn t)
  /-- It faulted in cartridge mode, from a state u in which at most a low byte was stored. -/
  | fault {u : State} (h : StoreFrame s u) (hb : s.bus.bootMode = false) (hp : s.bus.powerOn = false) :
      StoreEnd s (.ended (u.faultHandler .reservedWrite))
  /-- It handed off in boot mode, from a state u in which the magic was stored. -/
  | handoff {u : State} (h : StoreFrame s u) (hb : s.bus.bootMode = true) (hm : u.ramRead 0xFFE8 = 0xA5) :
      StoreEnd s (.ended u.bootHandoff)

theorem busWrite8_end (a : Word) (b : Byte) (s : State) : StoreEnd s (busWrite8 a b s) := by
  rcases busWrite8_cases a b s with ⟨h1, h2⟩ | ⟨-, -, h2⟩ | ⟨h1, h1', h2⟩ | ⟨h1, h2⟩ <;> rw [h2]
  · exact .goOn (.place h1.1)
  · exact .goOn (.refl s)
  · exact .fault (.refl s) h1.1 h1'
  · refine .handoff ⟨rfl, rfl, rfl, rfl, rfl, rfl, fun hb => ?_⟩ h1.1 ?_
    · exact absurd (h1.1.symm.trans hb) (by decide)
    · rw [ramRead_ramWrite, if_pos (by rw [h1.2.1]; rfl), h1.2.2]

theorem memWrite16_end (a v : Word) (s : State) : StoreEnd s (memWrite16 a v s) := by
  unfold memWrite16
  have h := busWrite8_end a (loByte v) s
  revert h
  generalize busWrite8 a (loByte v) s = f
  intro h
  cases h with
  | @goOn t h =>
    have h2 := busWrite8_end (a + 1) (hiByte v) t
    simp only [Flow.andThen]
    revert h2
    generalize busWrite8 (a + 1) (hiByte v) t = f
    intro h2
    cases h2 with
    | goOn h2 => exact .goOn (h.trans h2)
    | fault h2 hb hp =>
      rw [h.bus] at hb hp
      exact .fault (h.trans h2) hb hp
    | handoff h2 hb hm =>
      rw [h.bus] at hb
      exact .handoff (h.trans h2) hb hm
  | fault h hb hp => exact .fault h hb hp
  | handoff h hb hm => exact .handoff h hb hm

end Sys2Proof.Machine
end

