-- ==== Sys2Proof/Tests/Slice0.lean ====
section
/-! SUPPORT. Tests: the refusals of each check, the decoding of a written-out word of every constructor,
small one-step vectors (most of them lines of 95_test_vectors.md, cited by their number there), and for
every statement with hypotheses a concrete state and operands that meet them. -/

namespace Sys2Proof.Tests

open Sys2Proof Sys2Proof.Machine

/-! ## Helpers -/

/-- Cartridge mode with the device state after power-on, as the vectors start. -/
def cart : State :=
  { State.reset with bus := { State.reset.bus with bootMode := false, powerOn := false } }

/-- Boot mode after a fault: `power_on` is 0. -/
def boot : State := { State.reset with bus := { State.reset.bus with powerOn := false } }

def withRegs (l : List (Reg × Word)) (s : State) : State := l.foldl (fun s p => s.setReg p.1 p.2) s

def withRam (l : List (Nat × Byte)) (s : State) : State := l.foldl (fun s p => s.ramWrite p.1 p.2) s

/-- Sprites at (x, y) with a type byte, in slots 0, 1, … -/
def withSprites (l : List (Word × Word × Byte)) (s : State) : State :=
  l.foldl (fun s p => s.drawSprite p.1 p.2.1 0 0 p.2.2) s

/-- Flags from their packed value (R28). -/
def flagsOf (v : BitVec 4) : Flags := ⟨v.getLsbD 0, v.getLsbD 1, v.getLsbD 2, v.getLsbD 3⟩

def withBanks (banks : List Memory) (selected : Nat) (s : State) : State :=
  { s with bus := { s.bus with banks := banks, selectedBank := selected } }

/-- One step from s with the bytes placed at its pc answers a next state that passes. -/
def runs (s : State) (bytes : List Byte) (ok : State → Bool) : Bool :=
  match step (s.placeBytes s.cpu.pc bytes) with
  | .next t => ok t
  | _ => false

/-- An outcome is a next state that passes. -/
def nextWith (r : Host.Outcome State Fault Refusal) (ok : State → Bool) : Bool :=
  match r with
  | .next t => ok t
  | _ => false

/-! ## WellFormed refuses (R134, R7) -/

theorem test_wf_every_register : (Instr.draw 15 15 15 15).wf = true := by decide
theorem test_wf_refuses_first_register : (Instr.draw 8 0 0 0).wfFor 8 = false := by decide
theorem test_wf_refuses_second_register : (Instr.draw 0 8 0 0).wfFor 8 = false := by decide
theorem test_wf_refuses_third_register : (Instr.draw 0 0 8 0).wfFor 8 = false := by decide
theorem test_wf_refuses_fourth_register : (Instr.draw 0 0 0 8).wfFor 8 = false := by decide
theorem test_config_accepted : cfg.wf = true := by decide +kernel

theorem test_config_refuses_regionOrder :
    Config.firstError { Config.standard with bankEnd := 0xC000 } = some .regionOrder := by decide
theorem test_config_refuses_instrumentBase :
    Config.firstError { Config.standard with instrBase := 0xF7C1 } = some .instrumentBase := by decide
theorem test_config_refuses_audioEnd :
    Config.firstError { Config.standard with nInstr := 15 } = some .audioEnd := by decide
theorem test_config_refuses_reservedOrder :
    Config.firstError { Config.standard with biosCallBase := 0xF7FF } = some .reservedOrder := by decide
theorem test_config_refuses_sysFlagsBase :
    Config.firstError { Config.standard with paletteBase := 0xFFF1 } = some .sysFlagsBase := by decide
theorem test_config_refuses_paletteEnd :
    Config.firstError { Config.standard with paletteEnd := 0xFFFE } = some .paletteEnd := by decide
theorem test_config_refuses_biosCallEnd :
    Config.firstError { Config.standard with biosCallEnd := 0xFFDE } = some .biosCallEnd := by decide
theorem test_config_refuses_atlasSize :
    Config.firstError { Config.standard with nTiles := 255 } = some .atlasSize := by decide
theorem test_config_refuses_verifyMagic :
    Config.firstError { Config.standard with verifyMagic := 0 } = some .verifyMagic := by decide
theorem test_config_refuses_verifyAddr :
    Config.firstError { Config.standard with verifyAddr := 0xFFF0 } = some .verifyAddr := by decide
theorem test_config_refuses_noteTable :
    Config.firstError { Config.standard with noteFreq := [440] } = some .noteTable := by decide
theorem test_config_refuses_instrumentTable :
    Config.firstError { Config.standard with defaultInstruments := [⟨1, 8, 192, 8⟩] } = some .instrumentTable := by
  decide +kernel

/-! ## Decoding: a written-out word of every constructor (R122 to R133, R140, R141) -/

theorem test_decode_no_operand :
    decode [0x00] = .ok (.halt, []) ∧
    decode [0x01] = .ok (.ret, []) ∧
    decode [0x02] = .ok (.vblnk, []) ∧
    decode [0x03] = .ok (.cls, []) ∧
    decode [0x04] = .ok (.mute, []) ∧
    decode [0x83] = .ok (.rnd 3, []) ∧
    decode [0x95] = .ok (.song 5, []) ∧
    decode [0xFE, 0x03] = .ok (.altCls, []) ∧
    decode [0xFE, 0x04] = .ok (.altMute, []) := by decide

theorem test_decode_control :
    decode [0x08, 0x00, 0x02] = .ok (.jmp 0x0200, []) ∧
    decode [0x09, 0x40, 0x01] = .ok (.jeq 0x0140, []) ∧
    decode [0x0A, 0x06, 0x00] = .ok (.jne 0x0006, []) ∧
    decode [0x0B, 0x34, 0x12] = .ok (.jgt 0x1234, []) ∧
    decode [0x0C, 0x34, 0x12] = .ok (.jlt 0x1234, []) ∧
    decode [0x0D, 0x34, 0x12] = .ok (.jge 0x1234, []) ∧
    decode [0x0E, 0x34, 0x12] = .ok (.jle 0x1234, []) ∧
    decode [0x0F, 0x00, 0x03] = .ok (.call 0x0300, []) := by decide

theorem test_decode_arithmetic :
    decode [0x10, 0x01] = .ok (.add 0 1, []) ∧
    decode [0x11, 0x01] = .ok (.sub 0 1, []) ∧
    decode [0x12, 0x01] = .ok (.adc 0 1, []) ∧
    decode [0x13, 0x01] = .ok (.cmp 0 1, []) ∧
    decode [0x14, 0x25] = .ok (.div 2 5, []) ∧
    decode [0x15, 0x25] = .ok (.mod 2 5, []) ∧
    decode [0x1C, 0x47] = .ok (.inc 4, []) ∧
    decode [0x1D, 0x10] = .ok (.dec 1, []) ∧
    decode [0x1E, 0xF0] = .ok (.neg 15, []) := by decide

theorem test_decode_logic :
    decode [0x16, 0x12] = .ok (.and 1 2, []) ∧
    decode [0x17, 0x12] = .ok (.or 1 2, []) ∧
    decode [0x18, 0x12] = .ok (.xor 1 2, []) ∧
    decode [0x1F, 0x30] = .ok (.not 3, []) ∧
    decode [0x19, 0x12] = .ok (.shl 1 2, []) ∧
    decode [0x1A, 0x12] = .ok (.shr 1 2, []) := by decide

theorem test_decode_literal :
    decode [0x2F, 0xFE, 0xFF] = .ok (.ldi 15 0xFFFE, []) ∧
    decode [0x31, 0x00, 0xE0] = .ok (.ldm 1 0xE000, []) ∧
    decode [0x40, 0x10, 0xE0] = .ok (.stm 0 0xE010, []) ∧
    decode [0x1B, 0x12] = .ok (.ldp 1 2, []) ∧
    decode [0x50, 0x02, 0x00] = .ok (.iadd 0 2, []) ∧
    decode [0x60, 0x05, 0x00] = .ok (.isub 0 5, []) ∧
    decode [0x75, 0x0A, 0x00] = .ok (.icmp 5 10, []) := by decide

theorem test_decode_alt :
    decode [0xFE, 0x1B, 0x12] = .ok (.altLdp 1 2, []) ∧
    decode [0xFE, 0x31, 0x00, 0xE0] = .ok (.altLdm 1 0xE000, []) ∧
    decode [0xFE, 0x43, 0x00, 0xE0] = .ok (.altStm 3 0xE000, []) ∧
    decode [0xFE, 0x51, 0x01, 0x00] = .ok (.altIadd 1 1, []) ∧
    decode [0xFE, 0x61, 0x01, 0x00] = .ok (.altIsub 1 1, []) ∧
    decode [0xFE, 0x71, 0x34, 0x12] = .ok (.altIcmp 1 0x1234, []) ∧
    decode [0xFE, 0xF7, 0x01] = .ok (.altSetcrs 0 1, []) := by decide

theorem test_decode_device :
    decode [0xA0, 0x12, 0x30] = .ok (.draw 0 1 2 3, []) ∧
    decode [0xB2, 0x01] = .ok (.instr 2 0 1, []) ∧
    decode [0xF0, 0x01, 0x82] = .ok (.play 0 1 0x82, []) ∧
    decode [0xF1, 0x30] = .ok (.stop 3, []) ∧
    decode [0xF2, 0x01] = .ok (.input 0 1, []) ∧
    decode [0xF3, 0x20] = .ok (.text 2, []) ∧
    decode [0xF4, 0x10] = .ok (.attr 1, []) ∧
    decode [0xF5, 0x01] = .ok (.swc 0 1, []) ∧
    decode [0xF6, 0x01] = .ok (.col 0 1, []) ∧
    decode [0xF7, 0x01] = .ok (.setcrs 0 1, []) := by decide

theorem test_decode_device_rest :
    decode [0xF8, 0x01] = .ok (.cam 0 1, []) ∧
    decode [0xF9, 0x01] = .ok (.cammv 0 1, []) ∧
    decode [0xFA, 0x40] = .ok (.setoam 4, []) ∧
    decode [0xFB, 0x10] = .ok (.bank 1, []) ∧
    decode [0xFC, 0x70] = .ok (.outR 7, []) ∧
    decode [0xFD, 0x00] = .ok (.outS 0, []) := by decide

theorem test_decode_refuses_unassigned : decode [0x05, 0, 0, 0] = .error (.unassigned 0x05) ∧
    decode [0xEF, 0, 0, 0] = .error (.unassigned 0xEF) ∧ decode [0xFF, 0, 0, 0] = .error (.unassigned 0xFF) := by
  decide

theorem test_decode_refuses_unassigned_alt : decode [0xFE, 0x00, 0, 0] = .error (.unassignedAlt 0x00) ∧
    decode [0xFE, 0xFE, 0, 0] = .error (.unassignedAlt 0xFE) ∧
    decode [0xFE, 0x10, 0, 0] = .error (.unassignedAlt 0x10) := by decide

theorem test_decode_refuses_truncated : decode [0x20, 0x05] = .error .truncated ∧ decode [] = .error .truncated := by
  decide

/-- The word of R141's rows has 0xFE in bits 15:8, as the opcode table numbers it (log entry 3). -/
theorem test_table_words : decodeTableWord 8 0x00 = some .halt ∧ decodeTableWord 8 0x2F = some (.ldi 15 0) ∧
    decodeTableWord 16 0xFE03 = some .altCls ∧ decodeTableWord 16 0xFE35 = some (.altLdm 5 0) ∧
    decodeTableWord 8 0xC0 = none := by decide

theorem test_fetch_word_runs_first :
    nextWith (step (State.reset.withFetchWord 16 0xFE04)) (fun t => t.cpu.pc == 2) = true ∧
    nextWith (step (State.reset.withFetchWord 8 0x03)) (fun t => t.cpu.pc == 1) = true := by decide

/-! ## One step of each instruction -/

/-- M2, M11. -/
theorem test_ldi : runs (cart.setFlags (flagsOf 0xF)) [0x2F, 0xFF, 0xFF]
    (fun t => t.reg 15 == 0xFFFF && t.cpu.flags.pack == 0xF && t.cpu.pc == 3) = true := by decide

/-- M4. -/
theorem test_ldm_odd : runs (withRam [(0xE001, 0x12), (0xE002, 0x56)] cart) [0x31, 0x01, 0xE0]
    (fun t => t.reg 1 == 0x5612 && t.cpu.pc == 3) = true := by decide

/-- R90: the high byte of the operand and of the address wrap to 0, where the operand stands. -/
theorem test_ldm_wraps : runs ((withRam [(0xFFFF, 0x0F)] cart).setPc 0xFFFE |>.placeBytes 0xFFFE [0x30, 0xFF, 0xFF] |>.setPc 0xFFFE) [0x30, 0xFF, 0xFF]
    (fun t => t.reg 0 == 0xFFFF && t.cpu.pc == 1) = true := by decide

/-- M5. -/
theorem test_ldp : runs (withRam [(0xE000, 0x34), (0xE001, 0x12)] (withRegs [(2, 0xE000)] cart)) [0x1B, 0x12]
    (fun t => t.reg 1 == 0x1234 && t.reg 2 == 0xE000 && t.cpu.pc == 2) = true := by decide

/-- M6. -/
theorem test_stm : runs (withRegs [(0, 0xBEEF)] cart) [0x40, 0x10, 0xE0]
    (fun t => t.ramRead 0xE010 == 0xEF && t.ramRead 0xE011 == 0xBE && t.cpu.pc == 3) = true := by decide

/-- B10, P5. -/
theorem test_stm_straddles_the_protected_region : runs (withRegs [(0, 0x1234)] cart) [0x40, 0xFF, 0xF7]
    (fun t => t.ramRead 0xFFEA == 0x01 && t.cpu.run == .halted && t.cpu.pc == 0 && t.bus.bootMode && t.ramRead 0xF7FF == 8 && t.ramRead 0xF800 == 0) = true := by decide

/-- B12. -/
theorem test_stm_wraps_in_boot_mode : runs (withRegs [(0, 0x1234)] boot) [0x40, 0xFF, 0xFF]
    (fun t => t.ramRead 0xFFFF == 0x34 && t.ramRead 0 == 0x12 && busRead8 t 0 == 0x40) = true := by decide

/-- F13. -/
theorem test_stm_hands_off_by_its_low_byte : runs (withRegs [(0, 0x01A5)] State.reset) [0x40, 0xE8, 0xFF]
    (fun t => t.ramRead 0xFFE8 == 0xA5 && t.ramRead 0xFFE9 == 0 && t.cpu.pc == 0 && t.reg 0 == 0 && !t.bus.bootMode) = true := by decide

/-- M7. -/
theorem test_alt_ldm : runs (withRam [(0xE000, 0x80)] cart) [0xFE, 0x31, 0x00, 0xE0]
    (fun t => t.reg 1 == 0x0080 && t.cpu.pc == 4) = true := by decide

/-- B1. -/
theorem test_alt_ldm_reads_the_overlay : runs (boot.placeBytes 0x1000 [0x77] |> withRam [(0x1000, 0x55)]) [0xFE, 0x30, 0x00, 0x10]
    (fun t => t.reg 0 == 0x0077) = true := by decide

/-- M8. -/
theorem test_alt_ldp : runs (withRam [(0xE000, 0x12)] (withRegs [(2, 0xE000)] cart)) [0xFE, 0x1B, 0x12]
    (fun t => t.reg 1 == 0x0012 && t.cpu.pc == 3) = true := by decide

/-- M9. -/
theorem test_alt_stm : runs (withRegs [(3, 0x01A5)] cart) [0xFE, 0x43, 0x00, 0xE0]
    (fun t => t.ramRead 0xE000 == 0xA5 && t.ramRead 0xE001 == 0 && t.cpu.pc == 4) = true := by decide

/-- B7. -/
theorem test_alt_stm_to_a_bank : runs (withBanks [[(0, 0xAA)], [(0, 0xBB)]] 1 (withRam [(0x8000, 0xCC)] (withRegs [(2, 0x0011)] cart))) [0xFE, 0x42, 0x00, 0x80]
    (fun t => t.bus.banks == [[(0, 0xAA)], [(0, 0x11)]] && t.ramRead 0x8000 == 0xCC) = true := by decide

/-- F12. -/
theorem test_alt_stm_of_another_value_stays_in_boot_mode : runs (withRegs [(0, 0x00A4)] boot) [0xFE, 0x40, 0xE8, 0xFF]
    (fun t => t.ramRead 0xFFE8 == 0xA4 && t.bus.bootMode && t.cpu.pc == 4) = true := by decide

/-- Section 2.2. -/
theorem test_add_1 : runs (withRegs [(0, 0x7FFF), (1, 0x0001)] cart) [0x10, 0x01]
    (fun t => t.reg 0 == 0x8000 && t.reg 1 == 0x0001 && t.cpu.flags.pack == 0xC && t.cpu.pc == 2) = true := by decide

/-- Section 2.2. -/
theorem test_add_2 : runs (withRegs [(0, 0x8000), (1, 0x8000)] cart) [0x10, 0x01]
    (fun t => t.reg 0 == 0x0000 && t.reg 1 == 0x8000 && t.cpu.flags.pack == 0x7 && t.cpu.pc == 2) = true := by decide

/-- Section 2.2. -/
theorem test_sub_1 : runs (withRegs [(0, 0x7FFF), (1, 0xFFFF)] cart) [0x11, 0x01]
    (fun t => t.reg 0 == 0x8000 && t.reg 1 == 0xFFFF && t.cpu.flags.pack == 0xD && t.cpu.pc == 2) = true := by decide

/-- Section 2.2. -/
theorem test_sub_2 : runs (withRegs [(0, 0x0003), (1, 0x0005)] cart) [0x11, 0x01]
    (fun t => t.reg 0 == 0xFFFE && t.reg 1 == 0x0005 && t.cpu.flags.pack == 0x9 && t.cpu.pc == 2) = true := by decide

/-- Section 2.2, round trip. -/
theorem test_add_same_register : runs (withRegs [(0, 7)] cart) [0x10, 0x00]
    (fun t => t.reg 0 == 14 && t.cpu.flags.pack == 0x0) = true := by decide

/-- A7. -/
theorem test_adc_by_default : runs ((withRegs [(0, 5), (1, 3)] cart).setFlags (flagsOf 0x1)) [0x12, 0x01]
    (fun t => t.reg 0 == 5 && t.cpu.flags.pack == 0x1 && t.cpu.pc == 2) = true := by decide

/-- A7 with `ADC_WRITEBACK`. -/
theorem test_adc_writing_back :
    nextWith (adcWith true 0 1 ((withRegs [(0, 5), (1, 3)] cart).setFlags (flagsOf 0x1)))
      (fun t => t.reg 0 == 9 && t.cpu.flags.pack == 0x0) = true := by decide

/-- Section 2.4. -/
theorem test_cmp : runs (withRegs [(0, 0x8000), (1, 0x0001)] cart) [0x13, 0x01]
    (fun t => t.reg 0 == 0x8000 && t.cpu.flags.pack == 0x4) = true := by decide

/-- Section 2.2; the low nibble is ignored. -/
theorem test_inc : runs (withRegs [(4, 0xFFFF)] cart) [0x1C, 0x47]
    (fun t => t.reg 4 == 0 && t.cpu.flags.pack == 0x3) = true := by decide

/-- Section 2.2. -/
theorem test_dec : runs (withRegs [(1, 0x8000)] cart) [0x1D, 0x10]
    (fun t => t.reg 1 == 0x7FFF && t.cpu.flags.pack == 0x4) = true := by decide

/-- Section 2.2. -/
theorem test_neg : runs (withRegs [(1, 0x8000)] cart) [0x1E, 0x10]
    (fun t => t.reg 1 == 0x8000 && t.cpu.flags.pack == 0xD) = true := by decide

/-- A1. -/
theorem test_iadd : runs (withRegs [(0, 0x00FE)] cart) [0x50, 0x02, 0x00]
    (fun t => t.reg 0 == 0x0100 && t.cpu.flags.pack == 0x0 && t.cpu.pc == 3) = true := by decide

/-- A2. -/
theorem test_isub : runs (withRegs [(0, 0x0003)] cart) [0x60, 0x05, 0x00]
    (fun t => t.reg 0 == 0xFFFE && t.cpu.flags.pack == 0x9) = true := by decide

/-- A3. -/
theorem test_icmp : runs (withRegs [(5, 0x000A)] cart) [0x75, 0x0A, 0x00]
    (fun t => t.reg 5 == 0x000A && t.cpu.flags.pack == 0x2) = true := by decide

/-- A4. -/
theorem test_alt_iadd : runs (withRam [(0xE000, 0xFF)] (withRegs [(1, 0xE000)] cart)) [0xFE, 0x51, 0x01, 0x00]
    (fun t => t.ramRead 0xE000 == 0x00 && t.ramRead 0xE001 == 0x01 && t.reg 1 == 0xE000 && t.cpu.flags.pack == 0x0 && t.cpu.pc == 4) = true := by decide

/-- F10. -/
theorem test_alt_iadd_faults_after_its_flags : runs (withRegs [(1, 0xFFEF)] (cart.setFlags (flagsOf 0xF))) [0xFE, 0x51, 0x01, 0x00]
    (fun t => t.ramRead 0xFFEA == 0x01 && t.cpu.flags.pack == 0x0 && t.ramRead 0xFFEF == 0 && t.ramRead 0xFFF0 == 0 && t.cpu.pc == 0) = true := by decide

/-- A5. -/
theorem test_alt_isub : runs (withRegs [(1, 0xE000)] cart) [0xFE, 0x61, 0x01, 0x00]
    (fun t => t.ramRead 0xE000 == 0xFF && t.ramRead 0xE001 == 0xFF && t.cpu.flags.pack == 0x9) = true := by decide

/-- A6. -/
theorem test_alt_icmp : runs (withRam [(0xE000, 0x34), (0xE001, 0x12)] (withRegs [(1, 0xE000)] cart)) [0xFE, 0x71, 0x34, 0x12]
    (fun t => t.ramRead 0xE000 == 0x34 && t.cpu.flags.pack == 0x2 && t.cpu.pc == 4) = true := by decide

/-- Section 2.2. -/
theorem test_div : runs (withRegs [(0, 0x8000), (1, 0x0001)] cart) [0x14, 0x01]
    (fun t => t.reg 0 == 0x8000 && t.cpu.flags.pack == 0x8) = true := by decide

/-- S2. -/
theorem test_div_by_zero : runs (withRegs [(0, 0xFFFF)] cart) [0x14, 0x01]
    (fun t => t.reg 0 == 0 && t.cpu.flags.pack == 0x6 && t.cpu.run == .running && t.cpu.pc == 2) = true := by decide

/-- Section 2.2. -/
theorem test_mod : runs (withRegs [(0, 0xFFFE), (1, 0xFFFF)] cart) [0x15, 0x01]
    (fun t => t.reg 0 == 0xFFFE && t.cpu.flags.pack == 0x8) = true := by decide

/-- Section 2.2. -/
theorem test_mod_by_zero : runs (withRegs [(0, 0x0011)] cart) [0x15, 0x01]
    (fun t => t.reg 0 == 0 && t.cpu.flags.pack == 0x6) = true := by decide

/-- Section 2.3. -/
theorem test_and : runs ((withRegs [(0, 0xF0F0), (1, 0x0FF0)] cart).setFlags (flagsOf 0x5)) [0x16, 0x01]
    (fun t => t.reg 0 == 0x00F0 && t.cpu.flags.pack == 0x1) = true := by decide

/-- Section 2.3. -/
theorem test_or : runs ((withRegs [(0, 0x0000), (1, 0x0000)] cart).setFlags (flagsOf 0x5)) [0x17, 0x01]
    (fun t => t.reg 0 == 0x0000 && t.cpu.flags.pack == 0x3) = true := by decide

/-- Section 2.3. -/
theorem test_xor : runs ((withRegs [(0, 0xFFFF), (1, 0x7FFF)] cart).setFlags (flagsOf 0x1)) [0x18, 0x01]
    (fun t => t.reg 0 == 0x8000 && t.cpu.flags.pack == 0x9) = true := by decide

/-- Section 2.3. -/
theorem test_not : runs ((withRegs [(0, 0xFFFF), (1, 0)] cart).setFlags (flagsOf 0x1)) [0x1F, 0x00]
    (fun t => t.reg 0 == 0x0000 && t.cpu.flags.pack == 0x3) = true := by decide

/-- Section 2.3. -/
theorem test_shl_1 : runs (withRegs [(0, 0x0001), (1, 16)] cart) [0x19, 0x01]
    (fun t => t.reg 0 == 0x0000 && t.cpu.flags.pack == 0x3) = true := by decide

/-- Section 2.3. -/
theorem test_shl_2 : runs (withRegs [(0, 0xFFFF), (1, 17)] cart) [0x19, 0x01]
    (fun t => t.reg 0 == 0x0000 && t.cpu.flags.pack == 0x2) = true := by decide

/-- Section 2.3. -/
theorem test_shr_1 : runs (withRegs [(0, 0x8000), (1, 16)] cart) [0x1A, 0x01]
    (fun t => t.reg 0 == 0x0000 && t.cpu.flags.pack == 0x3) = true := by decide

/-- Section 2.3. -/
theorem test_shr_2 : runs (withRegs [(0, 0x8000), (1, 0)] cart) [0x1A, 0x01]
    (fun t => t.reg 0 == 0x8000 && t.cpu.flags.pack == 0x8) = true := by decide

/-- T1. -/
theorem test_jmp : runs (cart.setPc 0x0100) [0x08, 0x00, 0x02]
    (fun t => t.cpu.pc == 0x0200) = true := by decide

/-- The column of JEQ in section 2.4: taken for exactly these packed flags. -/
theorem test_jeq : (List.range 16).all (fun f => runs ((cart.setPc 0x0100).setFlags (flagsOf (BitVec.ofNat 4 f)))
    [0x09, 0x40, 0x01] fun t =>
      t.cpu.pc == if [0x2, 0x3, 0x6, 0x7, 0xA, 0xB, 0xE, 0xF].contains f then 0x0140 else 0x0103) = true := by decide

/-- The column of JNE in section 2.4: taken for exactly these packed flags. -/
theorem test_jne : (List.range 16).all (fun f => runs ((cart.setPc 0x0100).setFlags (flagsOf (BitVec.ofNat 4 f)))
    [0x0A, 0x40, 0x01] fun t =>
      t.cpu.pc == if [0x0, 0x1, 0x4, 0x5, 0x8, 0x9, 0xC, 0xD].contains f then 0x0140 else 0x0103) = true := by decide

/-- The column of JGT in section 2.4: taken for exactly these packed flags. -/
theorem test_jgt : (List.range 16).all (fun f => runs ((cart.setPc 0x0100).setFlags (flagsOf (BitVec.ofNat 4 f)))
    [0x0B, 0x40, 0x01] fun t =>
      t.cpu.pc == if [0x0, 0x1, 0xC, 0xD].contains f then 0x0140 else 0x0103) = true := by decide

/-- The column of JLT in section 2.4: taken for exactly these packed flags. -/
theorem test_jlt : (List.range 16).all (fun f => runs ((cart.setPc 0x0100).setFlags (flagsOf (BitVec.ofNat 4 f)))
    [0x0C, 0x40, 0x01] fun t =>
      t.cpu.pc == if [0x4, 0x5, 0x6, 0x7, 0x8, 0x9, 0xA, 0xB].contains f then 0x0140 else 0x0103) = true := by decide

/-- The column of JGE in section 2.4: taken for exactly these packed flags. -/
theorem test_jge : (List.range 16).all (fun f => runs ((cart.setPc 0x0100).setFlags (flagsOf (BitVec.ofNat 4 f)))
    [0x0D, 0x40, 0x01] fun t =>
      t.cpu.pc == if [0x0, 0x1, 0x2, 0x3, 0xC, 0xD, 0xE, 0xF].contains f then 0x0140 else 0x0103) = true := by decide

/-- The column of JLE in section 2.4: taken for exactly these packed flags. -/
theorem test_jle : (List.range 16).all (fun f => runs ((cart.setPc 0x0100).setFlags (flagsOf (BitVec.ofNat 4 f)))
    [0x0E, 0x40, 0x01] fun t =>
      t.cpu.pc == if [0x2, 0x3, 0x4, 0x5, 0x6, 0x7, 0x8, 0x9, 0xA, 0xB, 0xE, 0xF].contains f then 0x0140 else 0x0103) = true := by decide

/-- T4. -/
theorem test_call : runs (cart.setPc 0x0100) [0x0F, 0x00, 0x03]
    (fun t => t.cpu.stack == [0x0103] && t.cpu.pc == 0x0300) = true := by decide

/-- T6, the top first here. -/
theorem test_ret : runs ((cart.setPc 0x0310).setStack [0x0207, 0x0103]) [0x01]
    (fun t => t.cpu.stack == [0x0103] && t.cpu.pc == 0x0207) = true := by decide

/-- F1. -/
theorem test_ret_underflow : runs (cart) [0x01]
    (fun t => t.ramRead 0xFFEA == 0x03 && t.cpu.run == .halted && t.bus.bootMode && t.cpu.pc == 0 && t.env.debugLog == [.fault .stackUnderflow 0]) = true := by decide

/-- T7. -/
theorem test_halt : runs (cart.setPc 0x0010) [0x00]
    (fun t => t.cpu.run == .halted && t.cpu.pc == 0x0011 && t.cpu.haltCause == .haltInstruction) = true := by decide

/-- T8. -/
theorem test_vblnk : runs (cart.setPc 0x0020) [0x02]
    (fun t => t.cpu.awaitingVblank && t.cpu.pc == 0x0021) = true := by decide

/-- V1: the value is free. -/
theorem test_rnd : runs (cart) [0x83]
    (fun t => t.env.drawIndex == 1 && t.cpu.pc == 1) = true := by decide

/-- V3. -/
theorem test_draw : runs (withRegs [(0, 0x0120), (1, 0x0040), (2, 0x0005), (3, 0x0001)] { cart with ppu := { cart.ppu with oamCursor := 511 } }) [0xA0, 0x12, 0x30]
    (fun t => t.ppu.oam == [(3577, 0x20), (3578, 0x01), (3579, 0x40), (3580, 0x00), (3581, 0x05), (3582, 0x01), (3583, 0x00)] && t.ppu.oamCursor == 0) = true := by decide

/-- V4. -/
theorem test_cls : runs ({ cart with ppu := { cart.ppu with textGrid := [(5, 0x41)], bgColor := 5, oam := [(0, 1)], oamCursor := 9 } }) [0x03]
    (fun t => t.ppu.textGrid == [] && t.ppu.bgColor == 0 && t.ppu.oam == [(0, 1)] && t.ppu.oamCursor == 9) = true := by decide

/-- V5, S9. -/
theorem test_alt_cls : runs ({ cart with ppu := { cart.ppu with textGrid := [(5, 0x41)], bgColor := 5, oam := [(0, 1)], oamCursor := 9 } }) [0xFE, 0x03]
    (fun t => t.ppu.textGrid == [] && t.ppu.bgColor == 0 && t.ppu.oam == [] && t.ppu.oamCursor == 0 && t.cpu.pc == 2) = true := by decide

/-- V7. -/
theorem test_text : runs (withRegs [(2, 0x0142)] { cart with ppu := { cart.ppu with cursorX := 31, cursorY := 31 } }) [0xF3, 0x20]
    (fun t => t.ppu.textGrid == [(1023, 0x42)] && t.ppu.cursorX == 0 && t.ppu.cursorY == 0) = true := by decide

/-- V8, and R274: bits 4:0. -/
theorem test_attr : runs (withRegs [(1, 0x0027)] cart) [0xF4, 0x10]
    (fun t => t.ppu.fontColor == 7) = true := by decide

/-- V9. -/
theorem test_setcrs : runs (withRegs [(0, 33), (1, 5)] cart) [0xF7, 0x01]
    (fun t => t.ppu.cursorX == 1 && t.ppu.cursorY == 5) = true := by decide

/-- V10. -/
theorem test_alt_setcrs : runs (withRegs [(0, 0xFFFF), (1, 0)] cart) [0xFE, 0xF7, 0x01]
    (fun t => t.ppu.cursorX == 31 && t.ppu.cursorY == 31 && t.cpu.pc == 3) = true := by decide

/-- V11. -/
theorem test_swc : runs (withRegs [(0, 2), (1, 17)] cart) [0xF5, 0x01]
    (fun t => t.ramRead 0xFFF2 == 0x11 && t.cpu.run == .running) = true := by decide

/-- V12. -/
theorem test_col : runs (withRegs [(1, 0)] (withSprites [(10, 10, 0), (100, 100, 0), (15, 12, 0)] cart)) [0xF6, 0x01]
    (fun t => t.reg 0 == 2) = true := by decide +kernel

/-- V16. -/
theorem test_col_edge : runs (withRegs [(1, 0)] (withSprites [(10, 10, 0), (18, 10, 0)] cart)) [0xF6, 0x01]
    (fun t => t.reg 0 == 0xFFFF) = true := by decide +kernel

/-- V18. -/
theorem test_cam : runs (withRegs [(0, 0xFFFF), (1, 0x0100)] cart) [0xF8, 0x01]
    (fun t => t.ppu.camX == 0xFF00 && t.ppu.camY == 0x0100) = true := by decide

/-- V19. -/
theorem test_cammv : runs (withRegs [(0, 0xFFF6), (1, 20)] { cart with ppu := { cart.ppu with camX := 5, camY := 65270 } }) [0xF9, 0x01]
    (fun t => t.ppu.camX == 0 && t.ppu.camY == 65280) = true := by decide

/-- V20, at the last entry. -/
theorem test_setoam : runs (withRegs [(4, 511)] cart) [0xFA, 0x40]
    (fun t => t.ppu.oamCursor == 511) = true := by decide

/-- F2. -/
theorem test_setoam_fault : runs (withRegs [(0, 0x0200)] (cart.setPc 3)) [0xFA, 0x00]
    (fun t => t.ramRead 0xFFEA == 0x02 && t.cpu.run == .halted && t.cpu.pc == 3 && t.reg 0 == 0x0200) = true := by decide

/-- V23. -/
theorem test_play : runs (withRegs [(0, 0), (1, 69)] cart) [0xF0, 0x01, 0x82]
    (fun t => t.ramRead 0xF7A0 == 0xB8 && t.ramRead 0xF7A1 == 0x01 && t.ramRead 0xF7A2 == 0xFF && t.ramRead 0xF7A3 == 0x21 && (t.audio.channels.get 0).retrig && (t.audio.channels.get 0).priority) = true := by decide

/-- V24. -/
theorem test_play_no_channel : runs (withRegs [(0, 9), (1, 69)] cart) [0xF0, 0x01, 0x02]
    (fun t => t.bus.ram == [(0, 0xF0), (1, 0x01), (2, 0x02)] && t.cpu.pc == 3) = true := by decide

/-- V25. -/
theorem test_stop : runs (withRam [(0xF7A3, 0x21)] cart) [0xF1, 0x00]
    (fun t => t.ramRead 0xF7A3 == 0x20) = true := by decide

/-- V26. -/
theorem test_song : runs (withRegs [(5, 0xE100)] cart) [0x95]
    (fun t => t.audio.seqCursor == 0xE100 && t.audio.seqDelay == 0 && t.audio.seqEnabled) = true := by decide

/-- V27. -/
theorem test_mute : runs (withRam [(0xF7A3, 0x21), (0xF7BF, 0x31)] cart) [0x04]
    (fun t => t.ramRead 0xF7A3 == 0x20 && t.ramRead 0xF7BF == 0x30 && !t.audio.seqEnabled) = true := by decide

/-- V28. -/
theorem test_alt_mute : runs ((withRam [(0xF7A3, 0x21)] cart).modifyChannel 0 (fun ch => { ch with stage := .sustain, retrig := true })) [0xFE, 0x04]
    (fun t => t.ramRead 0xF7A3 == 0x20 && (t.audio.channels.get 0).stage == .idle && !(t.audio.channels.get 0).retrig) = true := by decide +kernel

/-- V29. -/
theorem test_instr : runs (withRegs [(2, 1), (0, 0x2010), (1, 0x4080)] cart) [0xB2, 0x01]
    (fun t => t.ramRead 0xF7C4 == 0x10 && t.ramRead 0xF7C5 == 0x20 && t.ramRead 0xF7C6 == 0x80 && t.ramRead 0xF7C7 == 0x40) = true := by decide

/-- V30. -/
theorem test_input : runs (withRegs [(1, 0)] { cart with env := { cart.env with inputLatch := cart.env.inputLatch.set 0 0x11 } }) [0xF2, 0x01]
    (fun t => t.reg 0 == 0x0011) = true := by decide

/-- V31. -/
theorem test_input_no_controller : runs (withRegs [(0, 7), (1, 2)] cart) [0xF2, 0x01]
    (fun t => t.reg 0 == 0) = true := by decide

/-- V32. -/
theorem test_bank : runs (withRegs [(0, 2)] (withBanks [[], [], [], []] 0 cart)) [0xFB, 0x00]
    (fun t => t.bus.selectedBank == 2) = true := by decide

/-- V33. -/
theorem test_bank_ignored : runs (withRegs [(0, 4)] (withBanks [[], [], [], []] 2 cart)) [0xFB, 0x00]
    (fun t => t.bus.selectedBank == 2 && t.cpu.pc == 2) = true := by decide

/-- V35. -/
theorem test_out_r : runs (withRegs [(7, 0x002A)] cart) [0xFC, 0x70]
    (fun t => t.env.debugLog == [.reg 7 0x002A]) = true := by decide

/-- V36. -/
theorem test_out_s : runs (withRam [(0xE000, 0x48), (0xE001, 0x69)] (withRegs [(0, 0xE000)] cart)) [0xFD, 0x00]
    (fun t => t.env.debugLog == [.str [0x48, 0x69]]) = true := by decide

/-! ## Faults that are suppressed, unassigned codes, and the host -/

/-- F3. -/
theorem test_underflow_suppressed : runs (State.reset) [0x01]
    (fun t => t.cpu.run == .running && t.cpu.pc == 1 && t.ramRead 0xFFEA == 0) = true := by decide

/-- F8. -/
theorem test_unknown_alt_opcode : runs (cart.setPc 0x0100) [0xFE, 0x00]
    (fun t => t.cpu.run == .halted && t.cpu.pc == 0x0101 && t.ramRead 0xFFEA == 0 && t.env.debugLog == [.unknownAltOpcode 0x0100 0x00] && t.cpu.haltCause == .unknownOpcode) = true := by decide

/-- P4: the handoff loads the header's palette, with the index for 0xFF. -/
theorem test_handoff_palette :
    runs (withRegs [(0, 0x00A5)] ({ State.reset with bus := { State.reset.bus with
      cartHeader := [(49, 0x1C)] } } : State)) [0xFE, 0x40, 0xE8, 0xFF]
      (fun t => t.ramRead 0xFFF1 == 0x1C && t.ramRead 0xFFF2 == 0x02 && !t.bus.bootMode && !t.bus.powerOn &&
        t.cpu == Cpu.reset) = true := by decide

/-- G5: a short BIOS image. -/
theorem test_load_bios :
    nextWith (hostStep (.loadBios [1, 2, 3, 4, 5, 6, 7]) State.reset) (fun t =>
      t.bus.bios == [(0, 1), (1, 2), (2, 3), (3, 4), (4, 5), (5, 6), (6, 7)] && t.ramRead 0xFFE4 == 0x01 &&
      t.ramRead 0xFFE9 == 0x00) = true := by decide

/-- F14: an image that is no cartridge. -/
theorem test_load_cartridge_refused :
    nextWith (hostStep (.loadCartridge [0x53, 0x48, 0x52, 0x50]) State.reset) (fun t =>
      t == State.reset.ramWrite 0xFFE9 0xFF) = true := by decide

/-- Q1: END at once. -/
theorem test_sequencer_end :
    (match sequencerTick ((withRam [(0xE100, 0xFF), (0xF7A3, 0x21)] cart).startSong 0xE100) with
      | .ok t => !t.audio.seqEnabled && t.audio.seqCursor == 0xE100 && t.ramRead 0xF7A3 == 0x20
      | .error _ => false) = true := by decide +kernel

/-- Q5: two records in one tick. -/
theorem test_sequencer_chord :
    (match sequencerTick ((withRam [(0xE101, 0x3C), (0xE103, 0xF2), (0xE104, 0x01), (0xE105, 0x40),
        (0xE106, 0x01), (0xE107, 0x13), (0xE108, 0xFF)] cart).startSong 0xE100) with
      | .ok t => t.ramRead 0xF7A3 == 0x21 && t.ramRead 0xF7A7 == 0x31 && t.audio.seqDelay == 1 &&
          t.audio.seqCursor == 0xE108
      | .error _ => false) = true := by decide +kernel

/-- R364: with the suggested parameters the first sample after the PLAY is 0 and the stage is Attack. -/
theorem test_first_sample :
    (match generateSamples .suggested 1 (cart.playNote 0 69 0 false) with
      | .ok t => t.env.audioOut == [⟨0⟩] && (t.audio.channels.get 0).stage == .attack
      | .error _ => false) = true := by decide +kernel

/-- R328: a sprite with the pixels 1 and 2, flipped horizontally, in the alternate palette. -/
theorem test_blit :
    (let s := withRam [(0xDFE0, 0x12)] cart
     let pb := blit s ⟨4, 2, 0, 0x05, 0⟩ 4 2 []
     pb == [(522, 18), (523, 17)]) = true := by decide +kernel

/-- R46 to R50, R35 to R39: every store of the state after reset is canonical. -/
theorem test_reset_memory_canonical : State.reset.bus.ram.wf .ram = true ∧ State.reset.bus.bios.wf .bios = true ∧
    State.reset.ppu.oam.wf .oam = true ∧ State.reset.ppu.textGrid.wf .text = true := by decide

/-! ## Witnesses: states and operands that meet the hypotheses of each statement -/

theorem witness_DecodedBytesAreTheEncoding : decode [0x1C, 0x47, 0x99] = .ok (.inc 4, [0x99]) := by decide

theorem witness_DecoderAcceptsExactlyTheTable_unassigned :
    Unassigned 0x05 ∧ Unassigned 0x07 ∧ Unassigned 0xC0 ∧ Unassigned 0xEF ∧ Unassigned 0xFF := by
  unfold Unassigned
  decide

theorem witness_DecoderAcceptsExactlyTheTable_assigned :
    ¬ Unassigned 0x04 ∧ ¬ Unassigned 0x08 ∧ ¬ Unassigned 0xBF ∧ ¬ Unassigned 0xF0 ∧ ¬ Unassigned 0xFE ∧
      AltAssigned 0x03 ∧ AltAssigned 0x30 ∧ AltAssigned 0x7F := by
  unfold Unassigned AltAssigned
  decide

theorem witness_DecoderAcceptsExactlyTheTable_unassigned_alt :
    ¬ AltAssigned 0x02 ∧ ¬ AltAssigned 0x2F ∧ ¬ AltAssigned 0x80 ∧ ¬ AltAssigned 0xFE ∧
      decode [0xFE, 0x2F, 0, 0] = .error (.unassignedAlt 0x2F) := by
  unfold AltAssigned
  decide

/-- A state whose budget has one instruction left, its first byte a HALT. -/
def lastOfBudget : State := { cart with env := { cart.env with frameCount := 15999 } }

theorem witness_StepRunsDecodedInstruction :
    lastOfBudget.cpu.run = .running ∧ lastOfBudget.cpu.awaitingVblank = false ∧
      lastOfBudget.env.frameCount < 16000 ∧ decode (fetchBytes lastOfBudget) = .ok (.halt, [0, 0, 0]) ∧
      lastOfBudget.env.schedule = [] := by decide

theorem witness_StepRunsDecodedInstruction_scheduled :
    let s := lastOfBudget.setSchedule [(1, .reset)]
    s.cpu.run = .running ∧ s.cpu.awaitingVblank = false ∧ s.env.frameCount < 16000 ∧
      decode (fetchBytes s) = .ok (.halt, [0, 0, 0]) ∧ s.env.schedule = [(0 + 1, .reset)] := by decide

theorem witness_UnknownOpcodeHalts :
    let s := withRam [(0, 0x05)] lastOfBudget
    s.FrameAgentMoves [] ∧ s.cpu.run = .running ∧ s.cpu.awaitingVblank = false ∧ s.env.frameCount < 16000 ∧
      Unassigned (busRead8 s s.cpu.pc) ∧
      DebugEvent.unknownOpcode 0 0x05 = .unknownOpcode s.cpu.pc (busRead8 s s.cpu.pc) := by
  refine ⟨.inl ⟨rfl, rfl⟩, ?_⟩
  unfold Unassigned
  decide

theorem witness_UnknownOpcodeHalts_alt :
    let s := (withRam [(0, 0xFE), (1, 0x2F)] cart).setSchedule [(1, .reset)]
    s.FrameAgentMoves [(0, .reset)] ∧ s.cpu.run = .running ∧ s.cpu.awaitingVblank = false ∧
      s.env.frameCount < 16000 ∧
      busRead8 s s.cpu.pc = 0xFE ∧ ¬ AltAssigned (busRead8 s (s.cpu.pc + 1)) ∧
      DebugEvent.unknownAltOpcode 0 0x2F = .unknownAltOpcode s.cpu.pc (busRead8 s (s.cpu.pc + 1)) := by
  refine ⟨.inr ⟨0, .reset, [], rfl, rfl⟩, ?_⟩
  unfold AltAssigned
  decide

theorem cart_inv : cart.Inv where
  bus := ⟨rfl, rfl, fun m hm => (by cases hm), rfl, Or.inl rfl, fun h => (by cases h)⟩
  ppu := ⟨rfl, rfl, rfl, rfl, rfl, by decide, by decide, by decide, fun a => by
    show (Store.pixbuf.blank a).toNat < 32
    rw [Store.blank_pixbuf]
    decide⟩
  audio := ⟨reset_channels_ok, by decide, by decide +kernel⟩
  halt := by decide
  budget := by decide

theorem witness_StepKeepsInvariant : cart.Inv ∧ ∃ t, step cart = .next t := ⟨cart_inv, _, rfl⟩

theorem witness_ModeChangesOnlyByHandoffAndFault_handoff :
    runs (withRegs [(0, 0xA5)] boot) [0xFE, 0x40, 0xE8, 0xFF] (fun t => !t.bus.bootMode) = true ∧
      boot.bus.bootMode = true ∧ boot.bus.powerOn = false ∧ boot.frameAgentNext = true := by decide

theorem witness_ModeChangesOnlyByHandoffAndFault_fault :
    runs cart [0x40, 0x00, 0xF8] (fun t => t.bus.bootMode) = true ∧ cart.bus.bootMode = false ∧
      cart.frameAgentNext = true := by decide

theorem witness_ProtectedRegionHolds :
    cart.bus.bootMode = false ∧ (∃ t, exec (.stm 0 0xF7FE) cart = .next t) ∧
      (∃ t, exec (.swc 0 1) cart = .next t) ∧ (∃ t, exec (.altStm 0 0xFFFF) cart = .next t) :=
  ⟨rfl, ⟨_, rfl⟩, ⟨_, rfl⟩, ⟨_, rfl⟩⟩

theorem witness_MemoryWrittenOnlyByWriters :
    (∃ t, exec (.add 0 1) cart = .next t) ∧ (Instr.add 0 1).storesOverBus = false ∧
      (Instr.add 0 1).touchesBus = false ∧ ∀ a, Instr.add 0 1 ≠ .bank a :=
  ⟨⟨_, rfl⟩, rfl, rfl, fun _ h => by cases h⟩

theorem witness_CpuStateWrittenOnlyByWriters :
    (∃ t, exec (.ldi 0 1) cart = .next t ∧ ¬ HandedOff cart t) ∧ (Instr.ldi 0 1).dest ≠ some 1 ∧
      (Instr.ldi 0 1).writesFlags = false ∧ (∀ a, Instr.ldi 0 1 ≠ .call a) ∧ Instr.ldi 0 1 ≠ .ret ∧
      Instr.ldi 0 1 ≠ .vblnk ∧ Instr.ldi 0 1 ≠ .halt :=
  ⟨⟨_, rfl, fun h => (by cases h.1)⟩, by decide, rfl, fun _ h => (by cases h), by decide, by decide, by decide⟩

theorem witness_FlagsReadOnlyByJumps : (Instr.and 0 1).readsFlags = false ∧ ∃ t, exec (.and 0 1) cart = .next t :=
  ⟨rfl, _, rfl⟩

theorem witness_PictureIsNeverRead :
    (∃ t, step cart = .next t) ∧ ∃ t, step (cart.halt .host) = .next t ∧
      (cart.halt .host).frameAgentNext = true ∧ (cart.halt .host).runsInstruction = false :=
  ⟨⟨_, rfl⟩, _, rfl, rfl, rfl⟩

theorem witness_FrameStepTail_halted :
    (cart.halt .host).FrameAgentMoves [] ∧ (cart.halt .host).cpu.run = .halted := ⟨.inl ⟨rfl, rfl⟩, rfl⟩

theorem witness_FrameStepTail_awaiting :
    let s := (cart.setAwaiting true).setSchedule [(1, .generateSamples 1)]
    s.FrameAgentMoves [(0, .generateSamples 1)] ∧ s.cpu.awaitingVblank = true :=
  ⟨.inr ⟨0, _, [], rfl, rfl⟩, rfl⟩

theorem witness_FrameStepTail_budget :
    lastOfBudget.countInstruction.FrameAgentMoves [] ∧ 16000 ≤ lastOfBudget.countInstruction.env.frameCount :=
  ⟨.inl ⟨rfl, rfl⟩, by decide⟩

theorem witness_FrameStepTerminates : cart.env.schedule = [] := rfl

/-- The highest word the bus accepts in cartridge mode, in a bank, and the wrapping word of boot mode. -/
theorem witness_AcceptedStores :
    (cart.bus.banks = [] ∧ cart.Accepts 0xF7FE (loByte (cart.reg 0)) ∧
      cart.Accepts (0xF7FE + 1) (hiByte (cart.reg 0))) ∧
    (let s := withBanks [[], []] 1 cart
     s.bus.selectedBank < s.bus.banks.length ∧ s.Accepts 0x8000 (loByte (s.reg 0))) ∧
    (boot.Accepts 0xFFFF (loByte (boot.reg 0)) ∧ boot.Accepts (0xFFFF + 1) (hiByte (boot.reg 0))) ∧
    (let s := withBanks [[], []] 1 boot
     s.bus.bootMode = true ∧ s.bus.selectedBank < s.bus.banks.length ∧ s.Accepts 0x8000 (loByte (s.reg 0)) ∧
       s.Accepts (0x8000 + 1) (hiByte (s.reg 0))) := by
  unfold State.Accepts State.Protected State.Triggers
  decide

theorem witness_PointerArithmetic :
    let s := withRegs [(1, 0xF7FE)] cart
    let m : Word := 0x08C0
    (0xF7FE : Word) = s.reg 1 ∧ m = wordOf (busRead8 s 0xF7FE) (busRead8 s (0xF7FE + 1)) ∧ s.bus.banks = [] ∧
      s.Accepts 0xF7FE (loByte (m + 1)) ∧ s.Accepts (0xF7FE + 1) (hiByte (m + 1)) ∧
      m + 1 = BitVec.ofNat 16 (m.toNat + (1 : Word).toNat) ∧
      m + 1 = BitVec.ofNat 16 (m.toNat + 65536 - (0xFFFF : Word).toNat) := by
  unfold State.Accepts State.Protected State.Triggers wordOf
  decide

theorem witness_ProtectedStoresFault :
    let s := withRegs [(1, 0xF800)] cart
    s.bus.bootMode = false ∧ s.bus.powerOn = false ∧ 0xF800 ≤ (0xF800 : Word).toNat ∧
      0xF800 ≤ (0xFFFF : Word).toNat ∧ 0xF800 ≤ (s.reg 1).toNat := by decide

theorem witness_ProtectedStoresFault_straddling :
    let s := withRegs [(1, 0xF7FF)] cart
    s.bus.bootMode = false ∧ s.bus.powerOn = false ∧ s.reg 1 = 0xF7FF ∧
      8 = wordOf (busRead8 s 0xF7FF) (busRead8 s 0xF800) := by decide

/-- The write-back of a sum at 0xFFE8 and of a difference at 0xFFE7, over bytes that read 0. -/
theorem witness_StoringTheMagicHandsOff_pointer :
    let s := withRegs [(1, 0xFFE8), (2, 0xFFE7)] boot
    s.bus.bootMode = true ∧
    (∃ w m v : Word, m = wordOf (busRead8 s (s.reg 1)) (busRead8 s (s.reg 1 + 1)) ∧
      v.toNat = (m.toNat + w.toNat) % 65536 ∧ s.reg 1 = 0xFFE8 ∧ v.toNat % 256 = 0xA5) ∧
    ∃ w m v : Word, m = wordOf (busRead8 s (s.reg 2)) (busRead8 s (s.reg 2 + 1)) ∧
      v.toNat = (m.toNat + 65536 - w.toNat) % 65536 ∧ s.reg 2 = 0xFFE7 ∧ v.toNat / 256 = 0xA5 :=
  ⟨by decide, ⟨0x00A5, 0, 0x00A5, by decide⟩, ⟨0x5B00, 0, 0xA500, by decide⟩⟩

theorem witness_StoringTheMagicHandsOff :
    let s := withRegs [(0, 0x01A5), (1, 0xA501)] boot
    s.bus.bootMode = true ∧ loByte (s.reg 0) = 0xA5 ∧ hiByte (s.reg 1) = 0xA5 := by decide

theorem witness_Divisions : (withRegs [(1, 1)] cart).reg 1 ≠ 0 := by decide

theorem witness_DivisionByZero : cart.reg 1 = 0 := by decide

theorem witness_AddThenSubRestores :
    (∃ t u, exec (.add 0 1) cart = .next t ∧ exec (.sub 0 1) t = .next u ∧ (0 : Reg) ≠ 1) ∧
      ∃ t u, exec (.add 1 1) cart = .next t ∧ exec (.sub 1 1) t = .next u :=
  ⟨⟨_, _, rfl, rfl, by decide⟩, _, _, rfl, rfl⟩

/-- One value and flags for each of the four forms, on the registers 0xF0F0 and 0x0FF0. -/
theorem witness_LogicOperations :
    let s := withRegs [(0, 0xF0F0), (1, 0x0FF0)] cart
    (∀ k, k < 16 → (0x00F0 : Word).getLsbD k = ((s.reg 0).getLsbD k && (s.reg 1).getLsbD k)) ∧
    (∀ k, k < 16 → (0xFFF0 : Word).getLsbD k = ((s.reg 0).getLsbD k || (s.reg 1).getLsbD k)) ∧
    (∀ k, k < 16 → (0xFF00 : Word).getLsbD k = ((s.reg 0).getLsbD k ^^ (s.reg 1).getLsbD k)) ∧
    (∀ k, k < 16 → (0x0F0F : Word).getLsbD k = !(s.reg 0).getLsbD k) ∧
    (⟨false, false, false, true⟩ : Flags) =
      ⟨s.cpu.flags.c, decide ((0xFFF0 : Word).toNat = 0), false, decide (32768 ≤ (0xFFF0 : Word).toNat)⟩ := by
  decide

theorem witness_Shifts :
    let s := withRegs [(0, 0x8001), (1, 16), (2, 17)] cart
    32769 = (s.reg 0).toNat ∧ 16 = (s.reg 1).toNat ∧ 17 = (s.reg 2).toNat ∧ 0 = (s.reg 3).toNat := by decide

theorem witness_Jumps : ∃ go : Bool → Word, go = fun taken => if taken then 0x0200 else cart.cpu.pc + 3 := ⟨_, rfl⟩

theorem witness_JumpsAfterComparison :
    (∃ t, (0 : Word) = cart.reg 0 ∧ (0 : Word) = cart.reg 1 ∧ exec (.cmp 0 1) cart = .next t) ∧
      ∃ t, (0 : Word) = cart.reg 0 ∧ exec (.icmp 0 0x8000) cart = .next t :=
  ⟨⟨_, by decide, by decide, rfl⟩, _, by decide, rfl⟩

theorem witness_CallAndReturn :
    (cart.setStack [0x0103]).cpu.stack = 0x0103 :: [] ∧ (cart.cpu.stack = [] ∧ cart.bus.powerOn = false) ∧
      (State.reset.cpu.stack = [] ∧ State.reset.bus.powerOn = true) ∧
      ∃ t u : State, exec (.call 0x0300) cart = .next t ∧ u.cpu.stack = t.cpu.stack :=
  ⟨rfl, ⟨rfl, rfl⟩, ⟨rfl, rfl⟩, _, _, rfl, rfl⟩

/-- A state with the channels 0 to 7 free but 3, which is held. -/
def held : State := (withRegs [(1, 7), (2, 8), (3, 3)] cart).modifyChannel 3 fun ch => { ch with priority := true }

theorem witness_PlayStartsANote :
    ((held.reg 1).toNat = (7 : Fin 8).val ∧ (held.audio.channels.get 7).priority = false) ∧
      ((held.reg 3).toNat = (3 : Fin 8).val ∧ 128 ≤ (0x80 : Byte).toNat) ∧ 8 ≤ (held.reg 2).toNat ∧
      ((0x7F : Byte).toNat < 128 ∧ (held.audio.channels.get 3).priority = true) := by decide +kernel

theorem witness_StopReleasesAChannel : (held.reg 1).toNat = (7 : Fin 8).val ∧ 8 ≤ (held.reg 2).toNat := by decide

theorem witness_InstrumentAndPaletteWrites :
    let s := withRegs [(0, 15), (1, 16)] cart
    (s.reg 0).toNat < 16 ∧ 16 ≤ (s.reg 1).toNat := by decide

theorem witness_DrawWritesAnEntry :
    ({ cart with ppu := { cart.ppu with oamCursor := 511 } } : State).ppu.oamCursor < 512 := by decide

theorem witness_TextAndCursor :
    ∃ place : State → Int, place = fun u => 32 * (u.ppu.cursorY.val : Int) + (u.ppu.cursorX.val : Int) := ⟨_, rfl⟩

theorem witness_CameraMoves :
    ∃ clamped : Int → Nat, clamped = fun x => if x < 0 then 0 else if 65280 < x then 65280 else x.toNat := ⟨_, rfl⟩

theorem witness_SetOamCursor :
    let s := withRegs [(0, 511), (1, 512)] cart
    let p := withRegs [(1, 512)] State.reset
    (s.reg 0).toNat < 512 ∧ (512 ≤ (s.reg 1).toNat ∧ s.bus.powerOn = false) ∧
      (512 ≤ (p.reg 1).toNat ∧ p.bus.powerOn = true) := by decide

theorem witness_InputAndBank :
    let s := withRegs [(0, 3), (1, 4), (2, 1), (3, 2)] (withBanks [[], [], [], []] 0 cart)
    (s.reg 2).toNat = (1 : Fin 2).val ∧ 2 ≤ (s.reg 3).toNat ∧ (s.reg 0).toNat < s.bus.banks.length ∧
      s.bus.banks.length ≤ (s.reg 1).toNat ∧ s.bus.bootMode = false ∧
      ¬ (0x8000 ≤ (0x7FFF : Word).toNat ∧ (0x7FFF : Word).toNat ≤ 0xBFFF) ∧
      (0x8000 ≤ (0xBFFF : Word).toNat ∧ (0xBFFF : Word).toNat ≤ 0xBFFF) := by decide

theorem witness_InputAndBank_boot :
    let s := withBanks [[]] 0 boot
    (s.reg 0).toNat < s.bus.banks.length ∧ s.bus.bootMode = true := by decide

theorem witness_FrameExport :
    (∃ t : State, t = cart.vblankPass ∧ ∃ p m, p = (t.ppu.pixbuf.read .pixbuf 65535).toNat ∧
      m = ((busRead8 cart (BitVec.ofNat 16 (0xFFF0 + p % 16))).toNat % 32 + 16 * (p / 16 % 2)) % 32) ∧
    (∀ i, i < 512 → EntryEmpty cart i) ∧ ∀ a, a < 1024 → cart.ppu.textGrid.read .text a = 0xFF :=
  ⟨⟨_, rfl, _, _, rfl, rfl⟩, fun _ _ _ _ => rfl, fun _ _ => rfl⟩

/-- A world sprite and over it a HUD sprite, both with their top left in the last pixel of the screen. -/
def twoSprites : State := withRam [(0xDFE0, 0x12)] (withSprites [(255, 255, 0), (255, 255, 1)] cart)

theorem twoSprites_empty : ∀ j, j < 512 → 2 ≤ j → spriteAt twoSprites.ppu.oam j = none := by decide +kernel

theorem witness_SpritesAreComposited :
    SpriteShows twoSprites 1 255 255 1 ∧ SpriteShows twoSprites 0 255 255 1 ∧
      ∀ j w, SpriteShows twoSprites j 255 255 w → j ≠ 1 → InFront twoSprites 1 j := by
  refine ⟨(spriteShows_iff _ _ _ _ _).mpr ⟨by decide, _, 1, rfl, by decide +kernel, rfl⟩,
    (spriteShows_iff _ _ _ _ _).mpr ⟨by decide, _, 1, rfl, by decide +kernel, rfl⟩, fun j w h hj => ?_⟩
  obtain ⟨hi, p, b, hp, -⟩ := (spriteShows_iff _ _ _ _ _).mp h
  have h0 : j = 0 := by
    by_contra h0
    rw [twoSprites_empty j hi (by omega)] at hp
    cases hp
  subst h0
  exact .inl ⟨by unfold EntryHud; decide +kernel, by unfold EntryHud; decide +kernel⟩

theorem witness_SpritesAreComposited_none : ∀ i v, ¬ SpriteShows cart i 255 255 v :=
  fun _ _ h => h.populated fun _ _ => rfl

theorem witness_TextIsInFront :
    (31 : Nat) < 32 ∧ (7 : Nat) < 8 ∧ (0xFF : Byte) = cart.ppu.textGrid.read .text (32 * 31 + 31) ∧
      (0x41 : Byte) = ({ cart with ppu := { cart.ppu with textGrid := [(0, 0x41)] } } : State).ppu.textGrid.read
        .text (32 * 0 + 0) := by decide

theorem witness_NoteTable : (155 : Byte).toNat < 156 ∧ 156 ≤ (156 : Byte).toNat := by decide

/-- A song at 0xE100 whose one record is (channel, note, duration, instrument). -/
def songOf (channel note duration ins : Byte) : State :=
  (withRam [(0xE100, channel), (0xE101, note), (0xE102, duration), (0xE103, ins)] cart).startSong 0xE100

theorem witness_SequencerTick :
    cart.audio.seqEnabled = false ∧
    (((songOf 0 0 0 0).setSeqDelay 1).audio.seqEnabled = true ∧ 0 < ((songOf 0 0 0 0).setSeqDelay 1).audio.seqDelay) ∧
    ((songOf 0xFF 0 0 0).audio.seqEnabled = true ∧ (songOf 0xFF 0 0 0).audio.seqDelay = 0 ∧
      0xFF = busRead8 (songOf 0xFF 0 0 0) (songOf 0xFF 0 0 0).audio.seqCursor) ∧
    (7 = busRead8 (songOf 7 1 255 0x1F) 0xE100 ∧ (7 : Byte).toNat = (7 : Fin 8).val ∧
      1 = busRead8 (songOf 7 1 255 0x1F) (0xE100 + 1) ∧ 255 = busRead8 (songOf 7 1 255 0x1F) (0xE100 + 2) ∧
      0x1F = busRead8 (songOf 7 1 255 0x1F) (0xE100 + 3)) ∧
    (8 ≤ (8 : Byte).toNat ∧ (0xFD : Byte).toNat ≤ 0xFD ∧ 0xFD = busRead8 (songOf 0xFD 1 1 0) 0xE100 ∧
      1 = busRead8 (songOf 0xFD 1 1 0) (0xE100 + 2)) := by decide

/-- A JUMP to 0xE104, and a stop record of duration 0. -/
theorem witness_SequencerTick_jump_and_stop :
    (0xFE = busRead8 (songOf 0xFE 0 0x04 0xE1) 0xE100 ∧ wordOf 0x04 0xE1 = 0xE104) ∧
    (0 = busRead8 (songOf 0 0 0 0) 0xE100 ∧ (0 : Byte).toNat = (0 : Fin 8).val ∧
      0 = busRead8 (songOf 0 0 0 0) (0xE100 + 1) ∧ 0 = busRead8 (songOf 0 0 0 0) (0xE100 + 2)) := by decide

theorem witness_AudioLeavesTheRest : ∃ t, generateSamples .suggested 1 cart = .ok t := by
  have h : (match generateSamples .suggested 1 cart with | .ok _ => true | .error _ => false) = true := by
    decide +kernel
  revert h
  generalize generateSamples .suggested 1 cart = r
  intro h
  cases r with
  | ok t => exact ⟨t, rfl⟩
  | error e => cases h

/-- The gate opening on an idle channel, a closed gate, and a release of 513 samples from full volume with
the suggested step for a release byte of 8. -/
theorem witness_EnvelopeTransitions :
    (true = decide ((1 : Byte).toNat % 2 = 1) ∧ Channel.reset.lastCtrl.toNat % 2 = 0) ∧
    (true = decide ((1 : Byte).toNat % 2 = 1) ∧
      let ch := { Channel.reset with lastCtrl := 1, lastFreq := 440, stage := .decay }
      ch.lastCtrl = 1 ∧ (440 : Word) = ch.lastFreq ∧ ch.retrig = false ∧ ch.stage = .decay) ∧
    (false = decide ((0 : Byte).toNat % 2 = 1) ∧ ({ Channel.reset with stage := .attack } : Channel).stage ≠ .idle) ∧
    (let ch := { Channel.reset with stage := .release, volume := 1 }
     0 < 513 ∧ ch.stage = .release ∧ 0 < ApuParams.suggested.releaseStep 8 ∧
      ch.volume ≤ (513 : Nat) * ApuParams.suggested.releaseStep 8) := by decide +kernel

theorem witness_HostResetAndHalt :
    (cart.setSchedule [(0, .reset)]).env.schedule = (0, .reset) :: [] ∧
      (cart.setSchedule [(0, .halt)]).env.schedule = (0, .halt) :: [] := by decide

/-- A header with the magic, the shortest image that is accepted. -/
def header : List Byte := [0x53, 0x48, 0x52, 0x50] ++ List.replicate 60 0

theorem witness_HostLoads :
    (64 ≤ header.length ∧ header.take 4 = [0x53, 0x48, 0x52, 0x50]) ∧ (header.take 63).length < 64 ∧
      (List.replicate 64 (0 : Byte)).take 4 ≠ [0x53, 0x48, 0x52, 0x50] ∧
      (List.replicate 2048 (0 : Byte)).length = 2048 ∧ (List.replicate 2047 (0 : Byte)).length ≠ 2048 :=
  ⟨by decide, by decide, by decide, List.length_replicate, by rw [List.length_replicate]; decide⟩

theorem witness_BiosLoad :
    (7 = min ([1, 2, 3, 4, 5, 6, 7] : List Byte).length 65536) ∧
      65536 = min (List.replicate 65537 (0 : Byte)).length 65536 ∧ 0xF800 < min 65536 0xFFE0 :=
  ⟨by decide, by rw [List.length_replicate]; decide, by decide⟩

theorem witness_BusReadPaths :
    (boot.bus.bootMode = true ∧ (0xDFFF : Word).toNat ≤ 0xDFFF ∧ 0xDFFF < (0xE000 : Word).toNat) ∧
    (let s := withBanks [[]] 0 cart
     s.bus.bootMode = false ∧ s.bus.banks ≠ [] ∧ 0x8000 ≤ (0x8000 : Word).toNat ∧ (0xBFFF : Word).toNat ≤ 0xBFFF ∧
      ¬ (0x8000 ≤ (0xC000 : Word).toNat ∧ (0xC000 : Word).toNat ≤ 0xBFFF)) ∧
    (cart.bus.bootMode = false ∧ cart.bus.banks = []) := by decide

end Sys2Proof.Tests
end

section
/-! What one instruction can do, said once for all 62: the ways `exec` ends, by which the statements over all
instructions go case by case. -/

namespace Sys2Proof.Machine

/-! ## Parts of an instruction that only write `ram` -/

/-- t is s after internal writes (R91) and changes of the devices: the CPU stays, and behind the bus only
`ram` may differ. -/
structure OnlyRam (s t : State) : Prop where
  cpu : t.cpu = s.cpu
  bus : t.bus = { s.bus with ram := t.bus.ram }

theorem OnlyRam.refl (s : State) : OnlyRam s s := ⟨rfl, rfl⟩

theorem playNote_onlyRam (s : State) (ch : Nat) (note : Byte) (ins : BitVec 4) (override : Bool) :
    OnlyRam s (s.playNote ch note ins override) := by
  unfold State.playNote
  split
  · unfold State.playChannel
    split
    · exact .refl s
    · exact ⟨rfl, rfl⟩
  · exact .refl s

theorem stopChannel_onlyRam (s : State) (ch : Nat) : OnlyRam s (s.stopChannel ch) := by
  unfold State.stopChannel
  split
  · exact ⟨rfl, rfl⟩
  · exact .refl s

theorem stopAll_onlyRam (s : State) : OnlyRam s s.stopAll := by
  obtain ⟨-, -, hcpu, -, -, hbus, -⟩ := releaseAll_spec s (List.finRange 8)
  exact ⟨hcpu, hbus⟩

theorem muteAll_onlyRam (s : State) (immediate : Bool) : OnlyRam s (s.muteAll immediate) := by
  have h := stopAll_onlyRam { s with audio := { s.audio with seqEnabled := false } }
  unfold State.muteAll
  split <;> exact ⟨h.cpu, h.bus⟩

theorem setInstrument_onlyRam (s : State) (k ad sr : Word) : OnlyRam s (s.setInstrument k ad sr) := by
  unfold State.setInstrument
  split
  · exact ⟨rfl, rfl⟩
  · exact .refl s

/-! ## What an instruction asks of the devices -/

/-- u is s after the device part of instruction i (R260): the CPU stays; behind the bus only `ram` and the
selection may differ, and the instruction's constructor says whether they can; the invariant is kept. -/
structure UnitEffect (i : Instr) (s u : State) : Prop where
  cpu : u.cpu = s.cpu
  bus : u.bus = { s.bus with ram := u.bus.ram, selectedBank := u.bus.selectedBank }
  selection : (∀ a, i ≠ .bank a) → u.bus.selectedBank = s.bus.selectedBank
  untouched : i.touchesBus = false → u.bus = s.bus
  inv : s.Inv → u.Inv

theorem UnitEffect.of_bus {i : Instr} {s u : State} (hcpu : u.cpu = s.cpu) (hbus : u.bus = s.bus)
    (hinv : s.Inv → u.Inv) : UnitEffect i s u :=
  ⟨hcpu, by rw [hbus], fun _ => by rw [hbus], fun _ => hbus, hinv⟩

theorem UnitEffect.of_ram {i : Instr} {s u : State} (hi : i.touchesBus = true) (h : OnlyRam s u)
    (hinv : s.Inv → u.Inv) : UnitEffect i s u where
  cpu := h.cpu
  bus := by rw [h.bus]
  selection _ := by rw [h.bus]
  untouched hf := absurd (hi.symm.trans hf) (by decide)
  inv := hinv

theorem UnitEffect.refl (i : Instr) (s : State) : UnitEffect i s s := .of_bus rfl rfl id

theorem selectBank_effect (a : Reg) (s : State) (v : Word) : UnitEffect (.bank a) s (s.selectBank v) where
  cpu := by unfold State.selectBank; split <;> rfl
  bus := by unfold State.selectBank; split <;> rfl
  selection h := absurd rfl (h a)
  untouched h := by cases h
  inv h := h.selectBank v

/-! ## The ways an instruction ends -/

/-- How instruction i can end from s: one case for each shape of an instruction's meaning. -/
inductive ExecEnd (i : Instr) (s : State) : Host.Outcome State Fault Refusal → Prop where
  /-- It wrote its destination and the flags. -/
  | result (r : Reg) (res : Word × Flags) (len : Nat) (hd : i.dest = some r) (hf : i.writesFlags = true) :
      ExecEnd i s (writeResult r res len s)
  /-- It wrote the flags of a discarded result. -/
  | compare (res : Word × Flags) (len : Nat) (hf : i.writesFlags = true) : ExecEnd i s (writeFlags res len s)
  /-- It wrote its destination and no flag, after its device part, if it has one. -/
  | load {u : State} (r : Reg) (v : Word) (len : Nat) (hd : i.dest = some r) (hu : UnitEffect i s u) :
      ExecEnd i s (writeReg r v len u)
  /-- It wrote no register: its device part alone, or nothing. -/
  | device {u : State} (len : Nat) (hu : UnitEffect i s u) : ExecEnd i s (done len u)
  /-- It stored over the bus, perhaps after it wrote the flags. -/
  | store {fl : Flow} (f : Flags) (len : Nat) (hi : i.storesOverBus = true)
      (hf : f = s.cpu.flags ∨ i.writesFlags = true) (hend : StoreEnd (s.setFlags f) fl)
      (hinv : s.Inv → fl.Inv) : ExecEnd i s (fl.finish len)
  /-- It only wrote pc. -/
  | jump (a : Word) : ExecEnd i s (.next (s.setPc a))
  /-- It pushed or popped, and jumped. -/
  | transfer (l : List Word) (a : Word) (hi : (∃ b, i = .call b) ∨ i = .ret) :
      ExecEnd i s (.next ((s.setStack l).setPc a))
  /-- It raised a fault that comes of no store. -/
  | raise (kind : FaultKind) (len : Nat) (hi : i = .ret ∨ ∃ a, i = .setoam a) :
      ExecEnd i s ((takeFault kind s).finish len)
  | halt (hi : i = .halt) : ExecEnd i s (done 1 (s.halt .haltInstruction))
  | await (hi : i = .vblnk) : ExecEnd i s (done 1 (s.setAwaiting true))

theorem ExecEnd.jumpIf {i : Instr} {s : State} (taken : Bool) (a : Word) :
    ExecEnd i s (jumpIf taken a s) := by
  rw [jumpIf_eq]
  exact .jump _

theorem storeWord_end (i : Instr) (s : State) (a v : Word) (len : Nat) (hi : i.storesOverBus = true) :
    ExecEnd i s ((memWrite16 a v s).finish len) :=
  .store s.cpu.flags len hi (.inl rfl) (memWrite16_end a v s) fun h => memWrite16_inv h a v

theorem storeByte_end (i : Instr) (s : State) (a : Word) (b : Byte) (len : Nat) (hi : i.storesOverBus = true) :
    ExecEnd i s ((busWrite8 a b s).finish len) :=
  .store s.cpu.flags len hi (.inl rfl) (busWrite8_end a b s) fun h => busWrite8_inv h a b

theorem writeBack_end (i : Instr) (s : State) (r : Reg) (res : Word × Flags) (hi : i.storesOverBus = true)
    (hf : i.writesFlags = true) : ExecEnd i s (writeBack r res s) :=
  .store res.2 4 hi (.inr hf) (memWrite16_end _ _ _) fun h => memWrite16_inv (h.setFlags res.2) _ _

theorem ret_end (s : State) : ExecEnd .ret s (execRet s) := by
  unfold execRet
  split
  · exact .raise _ _ (.inl rfl)
  · exact .transfer _ _ (.inr rfl)

theorem setoam_end (a : Reg) (s : State) : ExecEnd (.setoam a) s (execSetoam a s) := by
  have hinv := fun h : s.Inv => setOamCursor_inv h (s.reg a)
  unfold execSetoam
  unfold setOamCursor at hinv ⊢
  split
  · exact .raise _ _ (.inr ⟨a, rfl⟩)
  · next hv =>
    rw [if_neg hv] at hinv
    exact .device 2 (.of_bus rfl rfl hinv)

/-- Every instruction ends in one of the ways of `ExecEnd`. -/
theorem exec_end (i : Instr) (s : State) : ExecEnd i s (exec i s) := by
  cases i with
  | halt => exact .halt rfl
  | vblnk => exact .await rfl
  | ret => exact ret_end s
  | call a => exact .transfer _ _ (.inl ⟨a, rfl⟩)
  | jmp a => exact .jump a
  | jeq a | jne a | jgt a | jlt a | jge a | jle a => exact .jumpIf _ a
  | add a _ | sub a _ | div a _ | mod a _ | and a _ | or a _ | xor a _ | shl a _ | shr a _ =>
    exact .result a _ 2 rfl rfl
  | inc a | dec a | neg a | not a => exact .result a _ 2 rfl rfl
  | iadd r _ | isub r _ => exact .result r _ 3 rfl rfl
  | adc _ _ => exact .device 2 (.refl _ s)
  | cmp _ _ => exact .compare _ 2 rfl
  | icmp _ _ => exact .compare _ 3 rfl
  | altIcmp _ _ => exact .compare _ 4 rfl
  | ldi r _ | ldm r _ => exact .load r _ 3 rfl (.refl _ s)
  | ldp a _ => exact .load a _ 2 rfl (.refl _ s)
  | altLdm r _ => exact .load r _ 4 rfl (.refl _ s)
  | altLdp a _ => exact .load a _ 3 rfl (.refl _ s)
  | input a _ | col a _ => exact .load a _ 2 rfl (.refl _ s)
  | rnd r => exact .load r _ 1 rfl (.of_bus rfl rfl State.Inv.draw16)
  | stm r a => exact storeWord_end _ s a _ 3 rfl
  | altStm r a => exact storeByte_end _ s a _ 4 rfl
  | altIadd r _ | altIsub r _ => exact writeBack_end _ s r _ rfl rfl
  | cls => exact .device 1 (.of_bus rfl rfl (·.clearScreen false))
  | altCls => exact .device 2 (.of_bus rfl rfl (·.clearScreen true))
  | song r => exact .device 1 (.of_bus rfl rfl (·.startSong _))
  | draw r y t a => exact .device 3 (.of_bus rfl rfl (·.drawSprite _ _ _ _ _))
  | text a => exact .device 2 (.of_bus rfl rfl (·.putChar _))
  | attr a => exact .device 2 (.of_bus rfl rfl (·.setFontColor _))
  | setcrs a b => exact .device 2 (.of_bus rfl rfl (·.setCursor _ _))
  | altSetcrs a b => exact .device 3 (.of_bus rfl rfl (·.moveCursor _ _))
  | cam a b => exact .device 2 (.of_bus rfl rfl (·.setCamera _ _))
  | cammv a b => exact .device 2 (.of_bus rfl rfl (·.moveCamera _ _))
  | outR a => exact .device 2 (.of_bus rfl rfl (·.logEvent _))
  | outS a => exact .device 2 (.of_bus rfl rfl (·.logEvent _))
  | play a b _ => exact .device 3 (.of_ram rfl (playNote_onlyRam s _ _ _ _) (·.playNote _ _ _ _))
  | stop a => exact .device 2 (.of_ram rfl (stopChannel_onlyRam s _) (·.stopChannel _))
  | mute => exact .device 1 (.of_ram rfl (muteAll_onlyRam s _) (·.muteAll _))
  | altMute => exact .device 2 (.of_ram rfl (muteAll_onlyRam s _) (·.muteAll _))
  | instr r a b => exact .device 2 (.of_ram rfl (setInstrument_onlyRam s _ _ _) (·.setInstrument _ _ _))
  | swc a b => exact .device 2 (.of_ram rfl ⟨rfl, rfl⟩ (·.swapColor _ _))
  | bank a => exact .device 2 (selectBank_effect a s _)
  | setoam a => exact setoam_end a s

end Sys2Proof.Machine
end

section
/-! The state after power-on (R62, R412), and the invariant that every step keeps. -/

namespace Sys2Proof.Machine

/-! ## Power-on -/

/-- The BIOS-call region and the system flag bytes read 0 after power-on (R62). -/
theorem ramBlank_reserved {a : Nat} (h1 : 0xF800 ≤ a) (h2 : a < 0xFFF0) : ramBlank a = 0 := by
  unfold ramBlank
  rw [cfg_audioBase, cfg_instrBase, cfg_audioEnd, cfg_paletteBase, cfg_paletteEnd,
    if_neg (by omega), if_neg (by omega), if_neg (by omega)]

theorem reset_apuReset : ApuReset State.reset := apuReset_of rfl fun _ _ _ => rfl

theorem reset_oamReset : OamReset State.reset := oamReset_of rfl rfl rfl

theorem reset_inputLatch (i : Fin cfg.nControllers) : State.reset.env.inputLatch.get i = 0x00 := by
  show (Vector.replicate cfg.nControllers (0 : Byte)).get i = 0
  simp [Vector.get]

/-- Settles O10, store by store: no store lists a cell, so each reads as its contents after power-on. -/
theorem powerOnValues : Obligations.PowerOnValues :=
  ⟨Cpu.reset_reg State.reset, rfl, rfl, rfl, rfl, rfl, rfl, rfl, rfl, rfl,
    fun _ => ramBlank_low, reset_apuReset, fun _ => ramBlank_reserved, fun _ => ramBlank_palette,
    Memory.read_nil .bios, Memory.read_nil .header, reset_oamReset, Memory.read_nil .text,
    rfl, rfl, rfl, rfl, rfl, rfl, Memory.read_nil .pixbuf, Memory.read_nil .frame,
    rfl, rfl, rfl, rfl, reset_inputLatch⟩

theorem reset_bus_ok : State.reset.bus.Ok where
  ram := rfl
  bios := rfl
  banks _ hm := absurd hm List.not_mem_nil
  header := rfl
  selection := .inl rfl
  powerOn _ := rfl

theorem reset_ppu_ok : State.reset.ppu.Ok where
  oam := rfl
  tag := rfl
  text := rfl
  pixbuf := rfl
  frame := rfl
  cursor := by decide
  camX := by decide
  camY := by decide
  colours _ := by
    show (0 : Byte).toNat < 32
    decide

theorem reset_audio_ok : State.reset.audio.Ok where
  channels := reset_channels_ok
  delay := by decide
  samples := by
    show (0 : Rat) ≤ 0 ∧ (0 : Rat) < 1024
    norm_num

/-- Settles O9, part by part of the state. -/
theorem resetHasInvariant : Obligations.ResetHasInvariant where
  bus := reset_bus_ok
  ppu := reset_ppu_ok
  audio := reset_audio_ok
  halt := by decide
  budget := by decide

/-! ## The moves of the agents -/

/-- Every way an instruction can end keeps the invariant. -/
theorem ExecEnd.inv {i : Instr} {s t : State} {o : Host.Outcome State Fault Refusal} (he : ExecEnd i s o)
    (h : s.Inv) (ho : o = .next t) : t.Inv := by
  cases he with
  | result r res len => cases ho; exact ((h.setReg r _).setFlags _).advance len
  | compare res len => cases ho; exact (h.setFlags _).advance len
  | load r v len _ hu => cases ho; exact ((hu.inv h).setReg r v).advance len
  | device len hu => cases ho; exact (hu.inv h).advance len
  | store _ _ _ _ _ hinv => exact (hinv h).finish ho
  | jump a => cases ho; exact h.setPc a
  | transfer l a => cases ho; exact (h.setStack l).setPc a
  | raise kind => exact (takeFault_inv h kind).finish ho
  | halt => cases ho; exact (h.halted (by decide)).advance 1
  | await => cases ho; exact (h.setAwaiting true).advance 1

theorem executeInstruction_inv {s t : State} (h : s.Inv) (ht : executeInstruction s = .next t) : t.Inv := by
  unfold executeInstruction at ht
  split at ht
  · next i _ _ => exact (exec_end i s).inv h ht
  · cases ht; exact h.unknownOpcode _

theorem State.Inv.pollInput {s : State} (h : s.Inv) : s.pollInput.Inv :=
  h.of_parts rfl rfl rfl rfl rfl h.budget

theorem State.Inv.frameTail {s : State} (h : s.Inv) : s.frameTail.Inv := by
  have hpass := h.pollInput.vblankPass
  exact hpass.of_parts rfl rfl rfl rfl rfl (Nat.zero_le _)

/-- The loop of the frame step goes on only while budget is left (R413). -/
theorem frameCount_lt_of_runsInstruction {s : State} (h : s.runsInstruction = true) :
    s.env.frameCount < 16000 := by
  unfold State.runsInstruction at h
  rw [Bool.and_eq_true, decide_eq_true_eq, cfg_cycleBudget] at h
  exact h.2

theorem frameMove_inv {s t : State} (h : s.Inv) (ht : frameMove s = .next t) : t.Inv := by
  unfold frameMove at ht
  split at ht
  · next hr => exact executeInstruction_inv (h.countInstruction (frameCount_lt_of_runsInstruction hr)) ht
  · cases ht; exact h.frameTail

theorem State.Inv.powerOnHost (s : State) : s.powerOnHost.Inv :=
  State.Inv.of_parts resetHasInvariant rfl rfl rfl rfl rfl (Nat.zero_le _)

theorem audioBatch_inv {s t : State} (h : s.Inv) (n : Nat)
    (ht : ofExcept (generateSamples Config.apu n s) = .next t) : t.Inv := by
  have htempo : 0 ≤ Config.apu.tempo ∧ Config.apu.tempo ≤ 1024 := by
    rw [Config.apu_tempo]
    norm_num
  cases hg : generateSamples Config.apu n s with
  | error e => rw [hg] at ht; cases ht
  | ok u =>
    rw [hg] at ht
    cases ht
    exact generateSamples_inv Config.apu_lawful htempo n h hg

theorem hostStep_inv {s t : State} (op : HostOp) (h : s.Inv) (ht : hostStep op s = .next t) : t.Inv := by
  cases op with
  | powerOn => cases ht; exact .powerOnHost s
  | loadBios img => cases ht; exact h.loadBios img
  | loadCartridge img => cases ht; exact h.loadCartridge img
  | loadBanks images => cases ht; exact h.loadBanks images
  | reset => cases ht; exact h.cpuReset
  | halt => cases ht; exact h.halted (by decide)
  | saveView => cases ht; exact h.of_parts rfl rfl rfl rfl rfl h.budget
  | saveLoad buf => cases ht; exact h.saveLoad buf
  | generateSamples n => exact audioBatch_inv h n ht

/-- Settles O8, by whose move the step is: a host or audio operation that is due, or the frame agent's
instruction or tail of the frame step. -/
theorem stepKeepsInvariant : Obligations.StepKeepsInvariant := by
  intro s t h ht
  unfold step move at ht
  split at ht
  · exact hostStep_inv _ (h.setSchedule _) ht
  · exact frameMove_inv (h.setSchedule _) ht
  · exact frameMove_inv h ht

end Sys2Proof.Machine
end

section
/-! What every instruction leaves as it was: behind the bus, and of the CPU. -/

namespace Sys2Proof.Machine

/-! ## Behind the bus -/

/-- What instruction i may not change behind the bus, by its constructor (R36, R37, R39, R91). -/
structure BusFrame (i : Instr) (s t : State) : Prop where
  bios : t.bus.bios = s.bus.bios
  header : t.bus.cartHeader = s.bus.cartHeader
  bankCount : t.bus.banks.length = s.bus.banks.length
  selection : (∀ a, i ≠ .bank a) → t.bus.selectedBank = s.bus.selectedBank
  banks : i.storesOverBus = false → t.bus.banks = s.bus.banks
  untouched : i.touchesBus = false → t.bus = s.bus

theorem BusFrame.of_bus {i : Instr} {s t : State} (h : t.bus = s.bus) : BusFrame i s t := by
  constructor <;> simp [h]

theorem BusFrame.of_effect {i : Instr} {s u t : State} (hu : UnitEffect i s u) (h : t.bus = u.bus) :
    BusFrame i s t where
  bios := by rw [h, hu.bus]
  header := by rw [h, hu.bus]
  bankCount := by rw [h, hu.bus]
  selection hi := by rw [h, hu.selection hi]
  banks _ := by rw [h, hu.bus]
  untouched hi := by rw [h, hu.untouched hi]

/-- A change of `ram` and the modes alone is in the frame of an instruction that touches the bus. -/
theorem BusFrame.of_touch {i : Instr} {s t : State} (hi : i.touchesBus = true)
    (h : t.bus = { s.bus with ram := t.bus.ram, bootMode := t.bus.bootMode }) : BusFrame i s t where
  bios := by rw [h]
  header := by rw [h]
  bankCount := by rw [h]
  selection _ := by rw [h]
  banks _ := by rw [h]
  untouched hf := absurd (hi.symm.trans hf) (by decide)

theorem touchesBus_of_storesOverBus {i : Instr} (h : i.storesOverBus = true) : i.touchesBus = true := by
  cases i with
  | stm _ _ | altStm _ _ | altIadd _ _ | altIsub _ _ => rfl
  | _ => cases h

/-- A store, before which the flags may have been written, changes `ram`, bytes of banks and the modes,
however it ends. -/
theorem BusFrame.of_store {i : Instr} {s u t : State} {f : Flags} (hi : i.storesOverBus = true)
    (hu : StoreFrame (s.setFlags f) u)
    (h : t.bus = { u.bus with ram := t.bus.ram, bootMode := t.bus.bootMode, powerOn := t.bus.powerOn }) :
    BusFrame i s t where
  bios := by rw [h, hu.bus, State.setFlags_bus]
  header := by rw [h, hu.bus, State.setFlags_bus]
  bankCount := by rw [h]; exact hu.bankCount
  selection _ := by rw [h, hu.bus, State.setFlags_bus]
  banks hf := absurd (hi.symm.trans hf) (by decide)
  untouched hf := absurd ((touchesBus_of_storesOverBus hi).symm.trans hf) (by decide)

/-- Every way an instruction can end stays in its frame behind the bus. -/
theorem ExecEnd.busFrame {i : Instr} {s t : State} {o : Host.Outcome State Fault Refusal}
    (he : ExecEnd i s o) (ho : o = .next t) : BusFrame i s t := by
  cases he with
  | result | compare | jump | transfer | halt | await => cases ho; exact .of_bus rfl
  | load _ _ _ _ hu => cases ho; exact .of_effect hu rfl
  | device _ hu => cases ho; exact .of_effect hu rfl
  | store f len hi _ hend =>
    cases hend with
    | goOn hu => cases ho; exact .of_store hi hu rfl
    | fault hu => cases ho; exact .of_store hi hu rfl
    | handoff hu => cases ho; exact .of_store hi hu rfl
  | raise kind len hi =>
    have htouch : i.touchesBus = true := by rcases hi with rfl | ⟨a, rfl⟩ <;> rfl
    unfold takeFault at ho
    split at ho
    · cases ho; exact .of_bus rfl
    · cases ho; exact .of_touch htouch rfl

/-- Settles O13, by the ways an instruction can end. -/
theorem memoryWrittenOnlyByWriters : Obligations.MemoryWrittenOnlyByWriters := by
  intro i s t h
  have hf := (exec_end i s).busFrame h
  exact ⟨hf.bios, hf.header, hf.bankCount, hf.selection, hf.banks,
    fun hi => ⟨hf.untouched hi, busRead8_congr (hf.untouched hi)⟩⟩

/-! ## Of the CPU -/

/-- What instruction i may not change of the CPU, by its constructor (R29, R30, R31, R32, R260). -/
structure CpuFrame (i : Instr) (s t : State) : Prop where
  regs : ∀ r, i.dest ≠ some r → t.reg r = s.reg r
  flags : i.writesFlags = false → t.cpu.flags = s.cpu.flags
  stack : (∀ a, i ≠ .call a) → i ≠ .ret → t.cpu.stack = s.cpu.stack
  awaiting : i ≠ .vblnk → t.cpu.awaitingVblank = s.cpu.awaitingVblank
  run : i ≠ .halt →
    (t.cpu.run = s.cpu.run ∧ t.cpu.haltCause = s.cpu.haltCause) ∨ ∃ kind, t.EndedByFault kind

/-- Where the control part of the CPU stays, the registers and flags remain to be looked at. -/
theorem CpuFrame.of_control {i : Instr} {s t : State} (hregs : ∀ r, i.dest ≠ some r → t.reg r = s.reg r)
    (hflags : i.writesFlags = false → t.cpu.flags = s.cpu.flags) (h : ControlKept s t) : CpuFrame i s t :=
  ⟨hregs, hflags, fun _ _ => h.stack, fun _ => h.awaiting, fun _ => .inl ⟨h.run, h.cause⟩⟩

/-- An instruction that changed pc alone. -/
theorem CpuFrame.of_pc {i : Instr} {s t : State} (h : t.cpu = { s.cpu with pc := t.cpu.pc }) :
    CpuFrame i s t :=
  .of_control (fun r _ => State.reg_congr (by rw [h]) r) (fun _ => by rw [h])
    ⟨by rw [h], by rw [h], by rw [h], by rw [h]⟩

/-- An instruction that wrote its destination on a state with the CPU of s. -/
theorem CpuFrame.of_load {i : Instr} {s u : State} {r : Reg} (v : Word) (len : Nat) (hd : i.dest = some r)
    (hu : u.cpu = s.cpu) : CpuFrame i s ((u.setReg r v).advance len) := by
  refine .of_control (fun q hq => ?_) (fun _ => by simp [hu])
    ⟨by simp [hu], by simp [hu], by simp [hu], by simp [hu]⟩
  have hne : q ≠ r := fun e => hq (e ▸ hd)
  rw [State.reg_advance, State.reg_setReg_ne u v hne]
  exact State.reg_congr (congrArg Cpu.regs hu) q

/-- An instruction that took a fault after it may have written the flags f. -/
theorem CpuFrame.of_fault {i : Instr} {s u : State} {f : Flags} (kind : FaultKind)
    (hu : u.cpu = (s.setFlags f).cpu) (hf : f = s.cpu.flags ∨ i.writesFlags = true) :
    CpuFrame i s (u.faultHandler kind) := by
  have ht := faultHandler_taken kind u
  have hcpu := ht.cpu
  rw [hu] at hcpu
  exact
    { regs := fun r _ => State.reg_congr (by rw [hcpu, State.setFlags_regs]) r
      flags := fun hw => by
        rw [hcpu]
        exact hf.resolve_right (by rw [hw]; decide)
      stack := fun _ _ => by rw [hcpu, State.setFlags_stack]
      awaiting := fun _ => by rw [hcpu, State.setFlags_awaitingVblank]
      run := fun _ => .inr ⟨kind, ht.halted⟩ }

/-- Every way an instruction can end, but the handoff, stays in its frame of the CPU. -/
theorem ExecEnd.cpuFrame {i : Instr} {s t : State} {o : Host.Outcome State Fault Refusal}
    (he : ExecEnd i s o) (ho : o = .next t) (hno : ¬ HandedOff s t) : CpuFrame i s t := by
  cases he with
  | result r res len hd hf =>
    obtain ⟨t', ht', hcomp⟩ := writeResult_computed len r res s
    rw [ht'] at ho
    cases ho
    exact .of_control (fun q hq => hcomp.others q fun e => hq (e ▸ hd))
      (fun hw => absurd (hf.symm.trans hw) (by decide)) hcomp.control
  | compare res len hf =>
    obtain ⟨t', ht', hcomp⟩ := writeFlags_compared len res s
    rw [ht'] at ho
    cases ho
    exact .of_control (fun q _ => hcomp.regs q) (fun hw => absurd (hf.symm.trans hw) (by decide))
      hcomp.control
  | load r v len hd hu => cases ho; exact .of_load v len hd hu.cpu
  | device len hu =>
    cases ho
    have hadv := advance_advanced len hu.cpu
    exact .of_control (fun q _ => hadv.regs q) (fun _ => hadv.flags) hadv.control
  | store f len _ hf hend =>
    cases hend with
    | @goOn u hu =>
      cases ho
      have hadv := advance_advanced len hu.cpu
      obtain ⟨hstack, hrun, hawaiting, hcause⟩ := hadv.control
      exact .of_control (fun q _ => hadv.regs q)
        (fun hw => hadv.flags.trans (hf.resolve_right (by rw [hw]; decide)))
        ⟨hstack, hrun, hawaiting, hcause⟩
    | fault hu => cases ho; exact .of_fault .reservedWrite hu.cpu hf
    | handoff _ hb => cases ho; exact absurd ⟨hb, rfl⟩ hno
  | jump a => cases ho; exact .of_pc rfl
  | transfer l a hi =>
    cases ho
    exact
      { regs := fun _ _ => rfl
        flags := fun _ => rfl
        stack := fun hcall hret => absurd hi (by simp [hcall, hret])
        awaiting := fun _ => rfl
        run := fun _ => .inl ⟨rfl, rfl⟩ }
  | raise kind len =>
    unfold takeFault at ho
    split at ho
    · cases ho; exact .of_pc rfl
    · cases ho; exact .of_fault kind (f := s.cpu.flags) rfl (.inl rfl)
  | halt hi =>
    cases ho
    exact ⟨fun _ _ => rfl, fun _ => rfl, fun _ _ => rfl, fun _ => rfl, fun h => absurd hi h⟩
  | await hi =>
    cases ho
    exact ⟨fun _ _ => rfl, fun _ => rfl, fun _ _ => rfl, fun h => absurd hi h, fun _ => .inl ⟨rfl, rfl⟩⟩

/-- Settles O14, by the ways an instruction can end. -/
theorem cpuStateWrittenOnlyByWriters : Obligations.CpuStateWrittenOnlyByWriters := by
  intro i s t h hno
  have hf := (exec_end i s).cpuFrame h hno
  exact ⟨hf.regs, hf.flags, hf.stack, hf.awaiting, hf.run⟩

end Sys2Proof.Machine
end

section
/-! The flags read by the conditional jumps alone (R29, R231, R510): every other instruction, run on states
that differ in the flags alone, ends in states that differ in the flags alone. -/

namespace Sys2Proof.Machine

/-- A meaning that may write the flags but does not read them: on another setting of them it ends alike,
flags apart. -/
def FlagsUnread (m : State → Host.Outcome State Fault Refusal) : Prop :=
  ∀ s t f, m s = .next t → ∃ f', m (s.setFlags f) = .next (t.setFlags f')

/-! ## Triggers do not look at the CPU -/

theorem playNote_setFlags (s : State) (f : Flags) (ch : Nat) (note : Byte) (ins : BitVec 4) (override : Bool) :
    (s.setFlags f).playNote ch note ins override = (s.playNote ch note ins override).setFlags f := by
  unfold State.playNote
  split
  · unfold State.playChannel
    rw [State.setFlags_audio]
    split <;> rfl
  · rfl

theorem stopChannel_setFlags (s : State) (f : Flags) (ch : Nat) :
    (s.setFlags f).stopChannel ch = (s.stopChannel ch).setFlags f := by
  unfold State.stopChannel
  split <;> rfl

theorem stopAll_setFlags (s : State) (f : Flags) : (s.setFlags f).stopAll = s.stopAll.setFlags f := by
  unfold State.stopAll
  generalize List.finRange 8 = l
  induction l generalizing s with
  | nil => rfl
  | cons c l ih => exact ih (s.releaseChannel c)

theorem muteAll_setFlags (s : State) (f : Flags) (immediate : Bool) :
    (s.setFlags f).muteAll immediate = (s.muteAll immediate).setFlags f := by
  have h := stopAll_setFlags { s with audio := { s.audio with seqEnabled := false } } f
  have hseq : ({ s.setFlags f with audio := { s.audio with seqEnabled := false } } : State) =
      ({ s with audio := { s.audio with seqEnabled := false } } : State).setFlags f := rfl
  unfold State.muteAll
  rw [State.setFlags_audio, hseq, h]
  cases immediate <;> rfl

theorem setInstrument_setFlags (s : State) (f : Flags) (k ad sr : Word) :
    (s.setFlags f).setInstrument k ad sr = (s.setInstrument k ad sr).setFlags f := by
  unfold State.setInstrument
  split <;> rfl

theorem selectBank_setFlags (s : State) (f : Flags) (v : Word) :
    (s.setFlags f).selectBank v = (s.selectBank v).setFlags f := by
  unfold State.selectBank
  rw [State.setFlags_bus]
  split <;> rfl

theorem stringAt_setFlags (s : State) (f : Flags) (p : Word) (n : Nat) :
    stringAt (s.setFlags f) p n = stringAt s p n := by
  induction n generalizing p with
  | zero => rfl
  | succ n ih => simp only [stringAt, busRead8_setFlags, ih]

/-! ## Parts of an instruction that can end it -/

/-- The flags of the state a part of an instruction leaves, set to f. -/
def Flow.setFlags (fl : Flow) (f : Flags) : Flow :=
  match fl with
  | .goOn s => .goOn (s.setFlags f)
  | .ended s => .ended (s.setFlags f)

theorem finish_setFlags {fl : Flow} {n : Nat} {t : State} (f : Flags) (h : fl.finish n = .next t) :
    (fl.setFlags f).finish n = .next (t.setFlags f) := by
  cases fl <;> cases h <;> rfl

theorem takeFault_setFlags (kind : FaultKind) (s : State) (f : Flags) :
    takeFault kind (s.setFlags f) = (takeFault kind s).setFlags f := by
  unfold takeFault
  rw [State.setFlags_bus]
  split <;> rfl

theorem place_setFlags (s : State) (f : Flags) (a : Word) (b : Byte) :
    (s.setFlags f).place a b = (s.place a b).setFlags f := by
  have hbanked : (s.setFlags f).banked a = s.banked a := rfl
  unfold State.place
  rw [hbanked]
  split <;> rfl

/-- A byte write ends alike on another setting of the flags: it keeps them, or, where it hands off, resets
them. -/
theorem busWrite8_setFlags (a : Word) (b : Byte) (s : State) (f : Flags) :
    ∃ f', busWrite8 a b (s.setFlags f) = (busWrite8 a b s).setFlags f' := by
  by_cases hp : s.Protected a
  · have hp' : (s.setFlags f).Protected a := hp
    exact ⟨f, by rw [busWrite8_protected hp, busWrite8_protected hp', takeFault_setFlags]⟩
  · by_cases ht : s.Triggers a b
    · have ht' : (s.setFlags f).Triggers a b := ht
      exact ⟨Cpu.reset.flags, by rw [busWrite8_handoff ht, busWrite8_handoff ht']; rfl⟩
    · have ha : s.Accepts a b := ⟨hp, ht⟩
      have ha' : (s.setFlags f).Accepts a b := ha
      exact ⟨f, by rw [busWrite8_accepted ha, busWrite8_accepted ha', place_setFlags]; rfl⟩

theorem memWrite16_setFlags (a v : Word) (s : State) (f : Flags) :
    ∃ f', memWrite16 a v (s.setFlags f) = (memWrite16 a v s).setFlags f' := by
  obtain ⟨f', h⟩ := busWrite8_setFlags a (loByte v) s f
  unfold memWrite16
  rw [h]
  cases busWrite8 a (loByte v) s with
  | goOn t => exact busWrite8_setFlags (a + 1) (hiByte v) t f'
  | ended t => exact ⟨f', rfl⟩

/-! ## The ends of an instruction -/

theorem done_unread {u : State → State} (len : Nat) (hu : ∀ s f, u (s.setFlags f) = (u s).setFlags f) :
    FlagsUnread fun s => done len (u s) := by
  intro s t f h
  cases h
  exact ⟨f, congrArg (done len) (hu s f)⟩

theorem writeReg_unread {u : State → State} {v : State → Word} (r : Reg) (len : Nat)
    (hv : ∀ s f, v (s.setFlags f) = v s) (hu : ∀ s f, u (s.setFlags f) = (u s).setFlags f) :
    FlagsUnread fun s => writeReg r (v s) len (u s) := by
  intro s t f h
  cases h
  refine ⟨f, ?_⟩
  show writeReg r (v (s.setFlags f)) len (u (s.setFlags f)) = _
  rw [hv, hu]
  rfl

/-- The new flags may depend on the old ones, as those of the logic instructions do. -/
theorem writeResult_unread {res : State → Word × Flags} (r : Reg) (len : Nat)
    (hres : ∀ s f, (res (s.setFlags f)).1 = (res s).1) : FlagsUnread fun s => writeResult r (res s) len s := by
  intro s t f h
  cases h
  refine ⟨(res (s.setFlags f)).2, ?_⟩
  show done len (((s.setFlags f).setReg r (res (s.setFlags f)).1).setFlags _) = _
  rw [hres]
  rfl

theorem writeFlags_unread (res : State → Word × Flags) (len : Nat) :
    FlagsUnread fun s => writeFlags (res s) len s := by
  intro s t f h
  cases h
  exact ⟨(res (s.setFlags f)).2, rfl⟩

theorem finish_unread {m : State → Flow} (len : Nat)
    (hm : ∀ s f, ∃ f', m (s.setFlags f) = (m s).setFlags f') : FlagsUnread fun s => (m s).finish len := by
  intro s t f h
  obtain ⟨f', hf'⟩ := hm s f
  exact ⟨f', (congrArg (Flow.finish len) hf').trans (finish_setFlags f' h)⟩

/-- The pointer forms overwrite the flags before they store. -/
theorem writeBack_unread {res : State → Word × Flags} (r : Reg) (hres : ∀ s f, res (s.setFlags f) = res s) :
    FlagsUnread fun s => writeBack r (res s) s := by
  intro s t f h
  have hsame : writeBack r (res (s.setFlags f)) (s.setFlags f) = writeBack r (res s) s := by
    rw [hres]
    rfl
  exact ⟨t.cpu.flags, hsame.trans h⟩

theorem call_unread (a : Word) : FlagsUnread (exec (.call a)) := by
  intro s t f h
  cases h
  exact ⟨f, rfl⟩

theorem jmp_unread (a : Word) : FlagsUnread (exec (.jmp a)) := by
  intro s t f h
  cases h
  exact ⟨f, rfl⟩

theorem ret_unread : FlagsUnread execRet := by
  intro s t f h
  unfold execRet at h ⊢
  rw [State.setFlags_stack]
  split at h
  · exact ⟨f, by rw [takeFault_setFlags]; exact finish_setFlags f h⟩
  · cases h
    exact ⟨f, rfl⟩

theorem setOamCursor_setFlags (v : Word) (s : State) (f : Flags) :
    ∃ f', setOamCursor v (s.setFlags f) = (setOamCursor v s).setFlags f' := by
  refine ⟨f, ?_⟩
  unfold setOamCursor
  split
  · exact takeFault_setFlags _ s f
  · rfl

/-- No instruction but the conditional jumps reads the flags. -/
theorem exec_flagsUnread (i : Instr) (hi : i.readsFlags = false) : FlagsUnread (exec i) := by
  cases i with
  | jeq _ | jne _ | jgt _ | jlt _ | jge _ | jle _ => cases hi
  | halt | vblnk => exact done_unread 1 fun _ _ => rfl
  | ret => exact ret_unread
  | call a => exact call_unread a
  | jmp a => exact jmp_unread a
  | add a _ | sub a _ | div a _ | mod a _ | and a _ | or a _ | xor a _ | shl a _ | shr a _ =>
    exact writeResult_unread a 2 fun _ _ => rfl
  | inc a | dec a | neg a | not a => exact writeResult_unread a 2 fun _ _ => rfl
  | iadd r _ | isub r _ => exact writeResult_unread r 3 fun _ _ => rfl
  | adc _ _ => exact done_unread (u := id) 2 fun _ _ => rfl
  | cmp _ _ => exact writeFlags_unread _ 2
  | icmp _ _ => exact writeFlags_unread _ 3
  | altIcmp _ _ => exact writeFlags_unread _ 4
  | ldi r _ | ldm r _ => exact writeReg_unread (u := id) r 3 (fun _ _ => rfl) fun _ _ => rfl
  | ldp a _ | input a _ | col a _ => exact writeReg_unread (u := id) a 2 (fun _ _ => rfl) fun _ _ => rfl
  | altLdm r _ => exact writeReg_unread (u := id) r 4 (fun _ _ => rfl) fun _ _ => rfl
  | altLdp a _ => exact writeReg_unread (u := id) a 3 (fun _ _ => rfl) fun _ _ => rfl
  | rnd r => exact writeReg_unread r 1 (fun _ _ => rfl) fun _ _ => rfl
  | stm r a => exact finish_unread 3 fun s f => memWrite16_setFlags a (s.reg r) s f
  | altStm r a => exact finish_unread 4 fun s f => busWrite8_setFlags a (loByte (s.reg r)) s f
  | altIadd r _ | altIsub r _ => exact writeBack_unread r fun _ _ => rfl
  | cls | song _ => exact done_unread 1 fun _ _ => rfl
  | altCls | text _ | attr _ | setcrs _ _ | cam _ _ | cammv _ _ | swc _ _ | outR _ =>
    exact done_unread 2 fun _ _ => rfl
  | draw _ _ _ _ | altSetcrs _ _ => exact done_unread 3 fun _ _ => rfl
  | outS a => exact done_unread 2 fun s f => by rw [stringAt_setFlags]; rfl
  | play _ _ _ => exact done_unread 3 fun s f => playNote_setFlags s f _ _ _ _
  | stop _ => exact done_unread 2 fun s f => stopChannel_setFlags s f _
  | mute => exact done_unread 1 fun s f => muteAll_setFlags s f false
  | altMute => exact done_unread 2 fun s f => muteAll_setFlags s f true
  | instr _ _ _ => exact done_unread 2 fun s f => setInstrument_setFlags s f _ _ _
  | bank _ => exact done_unread 2 fun s f => selectBank_setFlags s f _
  | setoam a => exact finish_unread 2 fun s f => setOamCursor_setFlags (s.reg a) s f

/-- Settles O15: the state the other run ends in is this one's with other flags. -/
theorem flagsReadOnlyByJumps : Obligations.FlagsReadOnlyByJumps := by
  intro i s t f hi h
  obtain ⟨f', hf'⟩ := exec_flagsUnread i hi s t f h
  exact ⟨t.setFlags f', hf', fun _ => rfl⟩

end Sys2Proof.Machine
end

section
/-! CALL and RET (R30, R232, R234, R455, R461). -/

namespace Sys2Proof.Machine

theorem setStack_setPc_transferred (s : State) (l : List Word) (a : Word) :
    Transferred a l s ((s.setStack l).setPc a) where
  pc := rfl
  stack := rfl
  regs _ := rfl
  flags := rfl
  run := rfl
  awaiting := rfl
  cause := rfl
  devices := ⟨rfl, rfl, rfl, rfl, fun _ => rfl⟩

/-- With no bound on the call stack CALL always pushes. -/
theorem exec_call (s : State) (a : Word) :
    exec (.call a) s = .next ((s.setStack ((s.cpu.pc + 3) :: s.cpu.stack)).setPc a) := rfl

theorem exec_ret_of_cons {s : State} {top : Word} {rest : List Word} (h : s.cpu.stack = top :: rest) :
    exec .ret s = .next ((s.setStack rest).setPc top) := by
  show execRet s = _
  unfold execRet
  rw [h]

theorem exec_ret_of_nil {s : State} (h : s.cpu.stack = []) :
    exec .ret s = (takeFault .stackUnderflow s).finish 1 := by
  show execRet s = _
  unfold execRet
  rw [h]

theorem ret_transferred {s : State} {top : Word} {rest : List Word} (h : s.cpu.stack = top :: rest) :
    ∃ t, exec .ret s = .next t ∧ Transferred top rest s t :=
  ⟨_, exec_ret_of_cons h, setStack_setPc_transferred s rest top⟩

/-- Settles O35, by the call stack and, where it is empty, by `power_on`. -/
theorem callAndReturn : Obligations.CallAndReturn := by
  intro s a
  refine ⟨⟨_, exec_call s a, setStack_setPc_transferred s _ a, fun u hu => ret_transferred hu⟩,
    fun top rest h => ret_transferred h, fun h hp => ?_, fun h hp => ?_⟩
  · exact ⟨_, by rw [exec_ret_of_nil h, takeFault_taken hp]; rfl, faultHandler_taken .stackUnderflow s⟩
  · exact ⟨_, by rw [exec_ret_of_nil h, takeFault_suppressed hp]; rfl, advance_kept s 1⟩

end Sys2Proof.Machine
end

section
/-! Memory behind the bus: where a byte read comes from (R80 to R83), and the protected region, which in
cartridge mode changes only by SWC and by a fault's error code (R85, R91). -/

namespace Sys2Proof.Machine

/-! ## Reading the bus -/

theorem banked_iff (s : State) (a : Word) :
    s.banked a = true ↔
      s.bus.bootMode = false ∧ s.bus.banks ≠ [] ∧ 0x8000 ≤ a.toNat ∧ a.toNat ≤ 0xBFFF := by
  unfold State.banked inBankWindow
  rw [cfg_bankBase, cfg_bankEnd]
  simp [List.length_pos_iff, and_assoc]

/-- The boot overlay (R80, R81). -/
theorem busRead8_overlay {s : State} {a : Word} (hb : s.bus.bootMode = true) (ha : a.toNat ≤ 0xDFFF) :
    busRead8 s a = s.bus.bios.read .bios a.toNat := by
  unfold busRead8
  rw [if_pos (by simp [hb, ha])]

/-- In cartridge mode a read is the selected bank's where the address is banked and `ram`'s elsewhere
(R80, R82). -/
theorem busRead8_cartridge {s : State} (hb : s.bus.bootMode = false) (a : Word) :
    busRead8 s a = if s.banked a then s.bank.read .bank (a.toNat - 0x8000) else s.ramRead a.toNat := by
  unfold busRead8
  rw [if_neg (by simp [hb]), cfg_bankBase]

/-- Settles O60, by the mode and, in cartridge mode, by whether the address is banked. -/
theorem busReadPaths : Obligations.BusReadPaths := by
  intro s a
  refine ⟨busRead8_overlay, fun _ ha => busRead8_ram s (by omega), fun hb hbanks hlo hhi => ?_,
    fun hb hout => ?_⟩
  · rw [busRead8_cartridge hb, if_pos ((banked_iff s a).mpr ⟨hb, hbanks, hlo, hhi⟩)]
    rfl
  · rw [busRead8_cartridge hb, if_neg]
    intro hbanked
    obtain ⟨-, hbanks, hwindow⟩ := (banked_iff s a).mp hbanked
    exact hout.elim hbanks fun h => h hwindow

/-! ## The protected region -/

/-- From RESERVED_BASE up every byte of `ram` is as it was. -/
def ReservedKept (s t : State) : Prop := ∀ a, 0xF800 ≤ a → t.ramRead a = s.ramRead a

/-- From RESERVED_BASE up every byte of `ram` is as it was, but for the error code where t ended by a
fault. -/
def ReservedHeld (s t : State) : Prop :=
  ∀ a, 0xF800 ≤ a →
    t.ramRead a = s.ramRead a ∨ (a = 0xFFEA ∧ ∃ kind, t.EndedByFault kind ∧ t.bus.bootMode = true)

theorem ReservedKept.refl (s : State) : ReservedKept s s := fun _ _ => rfl

theorem ReservedKept.held {s t : State} (h : ReservedKept s t) : ReservedHeld s t :=
  fun a ha => .inl (h a ha)

theorem ReservedKept.of_bus {s t : State} (h : t.bus = s.bus) : ReservedKept s t :=
  fun a _ => ramRead_congr h a

/-! Audio triggers write below the region: channel registers and the instrument table (R42, R43). -/

theorem playNote_reservedKept (s : State) (ch : Nat) (note : Byte) (ins : BitVec 4) (override : Bool) :
    ReservedKept s (s.playNote ch note ins override) := by
  intro a ha
  unfold State.playNote
  split
  · next hch =>
    cases hp : (s.audio.channels.get ⟨ch, hch⟩).priority && !override with
    | true => rw [State.playChannel, if_pos hp]
    | false =>
      have hfree : (s.audio.channels.get ⟨ch, hch⟩).priority = false ∨ override = true := by
        rwa [Bool.and_eq_false_iff, Bool.not_eq_false'] at hp
      obtain ⟨hram, -⟩ := playChannel_spec s ⟨ch, hch⟩ note ins override hfree
      rw [hram, if_neg (by simp only; omega), if_neg (by simp only; omega), if_neg (by simp only; omega)]
  · rfl

theorem stopChannel_reservedKept (s : State) (ch : Nat) : ReservedKept s (s.stopChannel ch) := by
  intro a ha
  unfold State.stopChannel
  split
  · rw [ramRead_releaseChannel, if_neg (by simp only; omega)]
  · rfl

theorem stopAll_reservedKept (s : State) : ReservedKept s s.stopAll := by
  intro a ha
  obtain ⟨hram, -⟩ := releaseAll_spec s (List.finRange 8)
  rw [State.stopAll, hram, if_neg]
  rintro ⟨c, -, rfl⟩
  omega

theorem muteAll_reservedKept (s : State) (immediate : Bool) : ReservedKept s (s.muteAll immediate) := by
  have h := stopAll_reservedKept { s with audio := { s.audio with seqEnabled := false } }
  unfold State.muteAll
  split <;> exact h

theorem setInstrument_reservedKept (s : State) (k ad sr : Word) :
    ReservedKept s (s.setInstrument k ad sr) := by
  intro a ha
  unfold State.setInstrument
  split
  · next hk =>
    rw [cfg_nInstr] at hk
    exact ramRead_ramLoad_out s (by simp only [cfg_instrBase, List.length_cons, List.length_nil]; omega)
  · rfl

theorem selectBank_reservedKept (s : State) (v : Word) : ReservedKept s (s.selectBank v) := by
  unfold State.selectBank
  split <;> exact fun _ _ => rfl

/-- A palette write lands in the palette (R424). -/
theorem ramRead_swapColor_of_lt (s : State) (i : BitVec 4) (v : Byte) {a : Nat} (ha : a < 0xFFF0) :
    (s.swapColor i v).ramRead a = s.ramRead a := by
  rw [State.swapColor, ramRead_ramWrite, cfg_paletteBase, if_neg (by omega)]

/-! Parts of an instruction that can end it. -/

/-- Of the region the fault handler writes the error code alone (R460). -/
theorem ReservedKept.faultHandler {s u : State} (h : ReservedKept s u) (kind : FaultKind) :
    ReservedHeld s (u.faultHandler kind) := by
  have hf := faultHandler_taken kind u
  intro a ha
  by_cases hcode : a = 0xFFEA
  · exact .inr ⟨hcode, kind, hf.halted, hf.bootMode⟩
  · exact .inl ((hf.kept a (by omega) (by omega) hcode).trans (h a ha))

theorem takeFault_reservedHeld {kind : FaultKind} {s t : State} {len : Nat}
    (ht : (takeFault kind s).finish len = .next t) : ReservedHeld s t := by
  unfold takeFault at ht
  split at ht
  · cases ht; exact (ReservedKept.refl s).held
  · cases ht; exact (ReservedKept.refl s).faultHandler kind

/-- In cartridge mode a store is turned away from the region (R85). -/
theorem StoreEnd.reservedHeld {s t : State} {fl : Flow} {len : Nat} (hend : StoreEnd s fl)
    (hb : s.bus.bootMode = false) (ht : fl.finish len = .next t) : ReservedHeld s t := by
  cases hend with
  | goOn hu => cases ht; exact ReservedKept.held (hu.reserved hb)
  | fault hu => cases ht; exact ReservedKept.faultHandler (hu.reserved hb) _
  | handoff _ hboot => exact absurd (hboot.symm.trans hb) (by decide)

theorem writeBack_reservedHeld {r : Reg} {res : Word × Flags} {s t : State} (hb : s.bus.bootMode = false)
    (ht : writeBack r res s = .next t) : ReservedHeld s t :=
  (memWrite16_end _ _ (s.setFlags res.2)).reservedHeld hb ht

theorem execRet_reservedHeld {s t : State} (ht : execRet s = .next t) : ReservedHeld s t := by
  unfold execRet at ht
  split at ht
  · exact takeFault_reservedHeld ht
  · cases ht; exact (ReservedKept.of_bus rfl).held

theorem execSetoam_reservedHeld {a : Reg} {s t : State} (ht : execSetoam a s = .next t) :
    ReservedHeld s t := by
  unfold execSetoam setOamCursor at ht
  split at ht
  · exact takeFault_reservedHeld ht
  · cases ht; exact (ReservedKept.of_bus rfl).held

/-- No instruction but SWC changes the region in cartridge mode other than by a fault: a store is turned
away, an internal write lands elsewhere, and what does not touch the bus cannot. -/
theorem exec_reservedHeld {i : Instr} {s t : State} (hb : s.bus.bootMode = false)
    (hi : ∀ x y, i ≠ .swc x y) (h : exec i s = .next t) : ReservedHeld s t := by
  have hframe := (exec_end i s).busFrame h
  cases i with
  | stm r a => exact (memWrite16_end a _ s).reservedHeld hb h
  | altStm r a => exact (busWrite8_end a _ s).reservedHeld hb h
  | altIadd _ _ | altIsub _ _ => exact writeBack_reservedHeld hb h
  | play _ _ _ => cases h; exact (playNote_reservedKept s _ _ _ _).held
  | stop _ => cases h; exact (stopChannel_reservedKept s _).held
  | mute => cases h; exact (muteAll_reservedKept s false).held
  | altMute => cases h; exact (muteAll_reservedKept s true).held
  | instr _ _ _ => cases h; exact (setInstrument_reservedKept s _ _ _).held
  | bank _ => cases h; exact (selectBank_reservedKept s _).held
  | ret => exact execRet_reservedHeld h
  | setoam _ => exact execSetoam_reservedHeld h
  | swc x y => exact absurd rfl (hi x y)
  | _ => exact (ReservedKept.of_bus (hframe.untouched rfl)).held

/-- Settles O12: SWC writes a palette byte alone, and every other instruction holds the region. -/
theorem protectedRegionHolds : Obligations.ProtectedRegionHolds := by
  intro i s t hb h a ha _
  by_cases hswc : ∃ x y, i = .swc x y
  · by_cases hpal : 0xFFF0 ≤ a
    · exact .inr (.inl ⟨hpal, hswc⟩)
    · obtain ⟨x, y, rfl⟩ := hswc
      cases h
      exact .inl (ramRead_swapColor_of_lt s _ _ (by omega))
  · have hheld := exec_reservedHeld hb (fun x y e => hswc ⟨x, y, e⟩) h
    exact (hheld a ha).imp_right .inr

end Sys2Proof.Machine
end

section
/-! Decoding and encoding (R120 to R145): the tables give a format to each assigned code, and what a format
reads is what the encoder writes, but for the nibble some formats ignore. -/

namespace Sys2Proof

/-! ## Rows of the two tables -/

/-- The bytes `pre` select a row of the tables, with the operand layout `f` (R121, R140, R141). -/
inductive Lookup : List Byte → Format → Prop
  | primary {op : Byte} {f : Format} (hne : op ≠ 0xFE) (hf : primaryTable op = some f) : Lookup [op] f
  | alt {op2 : Byte} {f : Format} (hf : altTable op2 = some f) : Lookup [0xFE, op2] f

/-- A row of a family other than 0xF, which the high nibble of its first byte selects. -/
theorem Lookup.family {h r : BitVec 4} {f : Format} (hne : h ≠ 0xF) (hf : primaryTable (nibbles h r) = some f) :
    Lookup [nibbles h r] f := .primary (nibbles_ne_alt h r hne) hf

/-- After a successful lookup the decoder reads the operand bytes of the row (R121). -/
theorem Lookup.decode_append {pre : List Byte} {f : Format} (h : Lookup pre f) (l : List Byte) :
    decode (pre ++ l) = f.read l := by
  cases h with
  | primary hne hf => exact (decode_primary hne l).trans (by rw [hf])
  | @alt op2 _ hf => exact (decode_alt op2 l).trans (by rw [hf])

/-- Bytes that decode begin with those of a row, whose layout the rest is read by. -/
theorem exists_lookup_of_decode {bytes rest : List Byte} {i : Instr} (h : decode bytes = .ok (i, rest)) :
    ∃ pre f l, Lookup pre f ∧ bytes = pre ++ l ∧ f.read l = .ok (i, rest) := by
  match bytes with
  | [] => cases h
  | op :: l =>
    by_cases hop : op = 0xFE
    · subst hop
      match l with
      | [] => cases h
      | op2 :: l =>
        rw [decode_alt] at h
        split at h
        · next f hf => exact ⟨_, f, l, .alt hf, rfl, h⟩
        · cases h
    · rw [decode_primary hop] at h
      split at h
      · next f hf => exact ⟨_, f, l, .primary hop hf, rfl, h⟩
      · cases h

/-! ## Decoding what was encoded -/

section
variable {pre : List Byte}

theorem Lookup.decode_n {i : Instr} (h : Lookup pre (.n i)) (rest : List Byte) :
    decode (pre ++ rest) = .ok (i, rest) := by
  rw [h.decode_append, Format.read_n]

theorem Lookup.decode_a {mk : Word → Instr} (h : Lookup pre (.a mk)) (w : Word) (rest : List Byte) :
    decode (pre ++ literalBytes w ++ rest) = .ok (mk w, rest) := by
  rw [List.append_assoc, h.decode_append]
  simp [literalBytes]

theorem Lookup.decode_rr {mk : Reg → Reg → Instr} (h : Lookup pre (.rr mk)) (a b : Reg) (rest : List Byte) :
    decode (pre ++ [nibbles a b] ++ rest) = .ok (mk a b, rest) := by
  rw [List.append_assoc, h.decode_append]
  simp

theorem Lookup.decode_r {mk : Reg → Instr} (h : Lookup pre (.r mk)) (a b : Reg) (rest : List Byte) :
    decode (pre ++ [nibbles a b] ++ rest) = .ok (mk a, rest) := by
  rw [List.append_assoc, h.decode_append]
  simp

theorem Lookup.decode_rri {mk : Reg → Reg → Byte → Instr} (h : Lookup pre (.rri mk)) (a b : Reg) (imm : Byte)
    (rest : List Byte) : decode (pre ++ [nibbles a b, imm] ++ rest) = .ok (mk a b imm, rest) := by
  rw [List.append_assoc, h.decode_append]
  simp

theorem Lookup.decode_fd {mk : Reg → Reg → Reg → Instr} (h : Lookup pre (.fd mk)) (y t a b : Reg)
    (rest : List Byte) : decode (pre ++ [nibbles y t, nibbles a b] ++ rest) = .ok (mk y t a, rest) := by
  rw [List.append_assoc, h.decode_append]
  simp

end

/-- Settles O1: the encoder writes the bytes of a row of the tables and operand bytes which the row's layout
reads back. -/
theorem decodeOfEncode : Obligations.DecodeOfEncode := by
  intro i rest
  cases i with
  | halt | ret | vblnk | cls | mute => exact Lookup.decode_n (.primary (by decide) (by rfl)) rest
  | jmp w | jeq w | jne w | jgt w | jlt w | jge w | jle w | call w =>
    exact Lookup.decode_a (.primary (by decide) (by rfl)) w rest
  | add a b | sub a b | adc a b | cmp a b | div a b | mod a b | and a b | or a b | xor a b | shl a b
  | shr a b | ldp a b | input a b | swc a b | col a b | setcrs a b | cam a b | cammv a b =>
    exact Lookup.decode_rr (.primary (by decide) (by rfl)) a b rest
  | inc a | dec a | neg a | not a | stop a | text a | attr a | setoam a | bank a | outR a | outS a =>
    exact Lookup.decode_r (.primary (by decide) (by rfl)) a 0 rest
  | play a b imm => exact Lookup.decode_rri (.primary (by decide) (by rfl)) a b imm rest
  | rnd r | song r => exact Lookup.decode_n (.family (by decide) (by simp [primaryTable])) rest
  | ldi r w | ldm r w | stm r w | iadd r w | isub r w | icmp r w =>
    exact Lookup.decode_a (.family (by decide) (by simp [primaryTable])) w rest
  | instr r a b => exact Lookup.decode_rr (.family (by decide) (by simp [primaryTable])) a b rest
  | draw r y t a => exact Lookup.decode_fd (.family (by decide) (by simp [primaryTable])) y t a 0 rest
  | altCls | altMute => exact Lookup.decode_n (.alt (by rfl)) rest
  | altLdp a b | altSetcrs a b => exact Lookup.decode_rr (.alt (by rfl)) a b rest
  | altLdm r w | altStm r w | altIadd r w | altIsub r w | altIcmp r w =>
    exact Lookup.decode_a (.alt (by simp [altTable])) w rest

/-! ## The bytes that decode to an instruction -/

/-- The instruction's encoding, and the operand byte whose low nibble its format ignores. -/
structure Encodes (i : Instr) (bytes : List Byte) (ignored : Option Nat) : Prop where
  bytes_eq : encode i = bytes
  ignored_eq : i.ignoredNibble = ignored

/-- Every instruction a row makes is encoded as the row's own bytes and then its operands, and the last byte
has an ignored nibble where the layout says so (R122 to R133, R135). -/
def Format.Encoded (pre : List Byte) : Format → Prop
  | .n i => Encodes i pre none
  | .a mk => ∀ w, Encodes (mk w) (pre ++ literalBytes w) none
  | .rr mk => ∀ a b, Encodes (mk a b) (pre ++ [nibbles a b]) none
  | .r mk => ∀ a, Encodes (mk a) (pre ++ [nibbles a 0]) (some pre.length)
  | .rri mk => ∀ a b imm, Encodes (mk a b imm) (pre ++ [nibbles a b, imm]) none
  | .fd mk => ∀ y t a, Encodes (mk y t a) (pre ++ [nibbles y t, nibbles a 0]) (some (pre.length + 1))

theorem primaryTable_encoded {h l : BitVec 4} {f : Format} (hf : primaryTable (nibbles h l) = some f) :
    f.Encoded [nibbles h l] := by
  unfold primaryTable at hf
  rw [hiNibble_nibbles, loNibble_nibbles] at hf
  split at hf <;> cases hf
  all_goals
    simp only [Format.Encoded, List.cons_append, List.nil_append]
    intros
    exact ⟨rfl, rfl⟩

theorem altTable_encoded {h l : BitVec 4} {f : Format} (hf : altTable (nibbles h l) = some f) :
    f.Encoded [0xFE, nibbles h l] := by
  unfold altTable at hf
  rw [hiNibble_nibbles, loNibble_nibbles] at hf
  split at hf <;> cases hf
  all_goals
    simp only [Format.Encoded, List.cons_append, List.nil_append]
    intros
    exact ⟨rfl, rfl⟩

/-- The encoder agrees with every row of the two tables. -/
theorem Lookup.encoded {pre : List Byte} {f : Format} (h : Lookup pre f) : f.Encoded pre := by
  cases h with
  | @primary op _ _ hf =>
    rw [← nibbles_split op] at hf ⊢
    exact primaryTable_encoded hf
  | @alt op2 _ hf =>
    rw [← nibbles_split op2] at hf ⊢
    exact altTable_encoded hf

/-- The bytes are the instruction's encoding, but for the low nibble of the last byte where the format
ignores it (R125, R133, R135). -/
inductive EncodingOf (i : Instr) : List Byte → Prop
  | encoded {head : List Byte} (henc : encode i = head) : EncodingOf i head
  | ignored (front : List Byte) (c : Byte)
      (h : Encodes i (front ++ [nibbles (hiNibble c) 0]) (some front.length)) : EncodingOf i (front ++ [c])

theorem encode_length (i : Instr) : (encode i).length = i.length := by
  cases i <;> rfl

theorem EncodingOf.length_eq {i : Instr} {head : List Byte} (h : EncodingOf i head) :
    head.length = i.length := by
  rw [← encode_length]
  cases h with
  | encoded henc => rw [henc]
  | ignored front c h => simp [h.bytes_eq]

theorem EncodingOf.getD_eq {i : Instr} {head : List Byte} (h : EncodingOf i head) (k : Nat) :
    head.getD k 0 = (encode i).getD k 0 ∨
      (i.ignoredNibble = some k ∧ (head.getD k 0).toNat / 16 = ((encode i).getD k 0).toNat / 16) := by
  cases h with
  | encoded henc => exact .inl (by rw [henc])
  | ignored front c h =>
    rw [h.bytes_eq]
    rcases Nat.lt_trichotomy k front.length with hk | rfl | hk
    · left
      rw [List.getD_append _ _ _ _ hk, List.getD_append _ _ _ _ hk]
    · right
      exact ⟨h.ignored_eq, by simp [← hiNibble_toNat]⟩
    · left
      rw [List.getD_eq_default _ _ (by simpa using hk), List.getD_eq_default _ _ (by simpa using hk)]

theorem loByte_joinBytes (hi lo : Byte) : loByte (joinBytes hi lo) = lo := by
  apply BitVec.eq_of_toNat_eq
  rw [Machine.loByte_toNat, Machine.joinBytes_toNat]
  omega

theorem hiByte_joinBytes (hi lo : Byte) : hiByte (joinBytes hi lo) = hi := by
  apply BitVec.eq_of_toNat_eq
  rw [Machine.hiByte_toNat, Machine.joinBytes_toNat]
  omega

theorem literalBytes_joinBytes (hi lo : Byte) : literalBytes (joinBytes hi lo) = [lo, hi] := by
  rw [literalBytes, loByte_joinBytes, hiByte_joinBytes]

/-- A layout reads its operand bytes alone: what follows them does not matter (R121). -/
theorem Format.operands_of_read {f : Format} {l rest : List Byte} {i : Instr} (h : f.read l = .ok (i, rest)) :
    ∃ ops, l = ops ++ rest ∧ f.read ops = .ok (i, []) := by
  unfold Format.read at h
  split at h <;> cases h
  case h_1 => exact ⟨[], rfl, rfl⟩
  case h_2 mk lo hi => exact ⟨[lo, hi], rfl, rfl⟩
  case h_3 mk b => exact ⟨[b], rfl, rfl⟩
  case h_4 mk b => exact ⟨[b], rfl, rfl⟩
  case h_5 mk b imm => exact ⟨[b, imm], rfl, rfl⟩
  case h_6 mk b c => exact ⟨[b, c], rfl, rfl⟩

/-- The operand bytes read are those the encoder writes, but for the nibble the layout ignores. -/
theorem Format.Encoded.encodingOf_read {pre ops : List Byte} {f : Format} {i : Instr} (hf : f.Encoded pre)
    (h : f.read ops = .ok (i, [])) : EncodingOf i (pre ++ ops) := by
  unfold Format.read at h
  split at h <;> cases h
  case h_1 => exact .encoded (hf.bytes_eq.trans (List.append_nil pre).symm)
  case h_2 mk lo hi => exact .encoded ((hf _).bytes_eq.trans (by rw [literalBytes_joinBytes]))
  case h_3 mk b => exact .encoded ((hf _ _).bytes_eq.trans (by rw [nibbles_split]))
  case h_4 mk b => exact .ignored pre b (hf _)
  case h_5 mk b imm => exact .encoded ((hf _ _ _).bytes_eq.trans (by rw [nibbles_split]))
  case h_6 mk b c =>
    have henc := hf (hiNibble b) (loNibble b) (hiNibble c)
    rw [nibbles_split, List.append_cons] at henc
    rw [List.append_cons]
    exact .ignored (pre ++ [b]) c (by rwa [List.length_append])

/-- Bytes that decode are those of a row and its operand bytes, an encoding of the instruction, and then
the bytes that follow. -/
theorem decode_inv {bytes rest : List Byte} {i : Instr} (h : decode bytes = .ok (i, rest)) :
    ∃ head, bytes = head ++ rest ∧ decode head = .ok (i, []) ∧ EncodingOf i head := by
  obtain ⟨pre, f, l, hrow, rfl, hread⟩ := exists_lookup_of_decode h
  obtain ⟨ops, rfl, hops⟩ := Format.operands_of_read hread
  exact ⟨pre ++ ops, (List.append_assoc ..).symm, (hrow.decode_append ops).trans hops,
    hrow.encoded.encodingOf_read hops⟩

/-- Settles O2: the bytes before those that follow are an encoding of the instruction. -/
theorem decodedBytesAreTheEncoding : Obligations.DecodedBytesAreTheEncoding := by
  intro bytes rest i h
  obtain ⟨head, hbytes, hdec, henc⟩ := decode_inv h
  exact ⟨head, hbytes, henc.length_eq, encode_length i, hdec, fun k _ => henc.getD_eq k⟩

/-! ## The assigned codes and their lengths -/

/-- The number of operand bytes a layout reads (R122 to R133). -/
def Format.operands : Format → Nat
  | .n _ => 0
  | .a _ | .rri _ | .fd _ => 2
  | .rr _ | .r _ => 1

theorem Format.operands_le_two (f : Format) : f.operands ≤ 2 := by
  cases f <;> simp [Format.operands]

/-- A layout reads any bytes that are long enough. -/
theorem Format.read_of_operands_le (f : Format) {l : List Byte} (h : f.operands ≤ l.length) :
    ∃ i, f.read l = .ok (i, l.drop f.operands) := by
  match f, l, h with
  | .n i, l, _ => exact ⟨i, Format.read_n i l⟩
  | .a mk, lo :: hi :: l, _ => exact ⟨_, rfl⟩
  | .rr mk, b :: l, _ => exact ⟨_, rfl⟩
  | .r mk, b :: l, _ => exact ⟨_, rfl⟩
  | .rri mk, b :: imm :: l, _ => exact ⟨_, rfl⟩
  | .fd mk, b :: c :: l, _ => exact ⟨_, rfl⟩

theorem primaryTable_eq_none_iff (op : Byte) : primaryTable op = none ↔ Unassigned op ∨ op = 0xFE := by
  rw [← Option.isNone_iff_eq_none]
  unfold Unassigned
  revert op
  decide

theorem altTable_eq_none_iff (op2 : Byte) : altTable op2 = none ↔ ¬ AltAssigned op2 := by
  rw [← Option.isNone_iff_eq_none]
  unfold AltAssigned
  revert op2
  decide

theorem Unassigned.ne_alt {op : Byte} (h : Unassigned op) : op ≠ 0xFE := by
  unfold Unassigned at h
  revert op
  decide

/-- Only the first byte 0xFE needs the second to tell the length (R142). -/
theorem lengthByTable_of_ne_alt {op : Byte} (h : op ≠ 0xFE) (m : Byte) :
    lengthByTable op m = lengthByTable op 0 := by
  have hop : op.toNat ≠ 0xFE := fun e => h (BitVec.eq_of_toNat_eq e)
  simp [lengthByTable, hop]

theorem primaryTable_length : ∀ op : Byte, ∀ f ∈ primaryTable op, lengthByTable op 0 = 1 + f.operands := by
  decide

theorem altTable_length : ∀ op2 : Byte, ∀ f ∈ altTable op2, lengthByTable 0xFE op2 = 2 + f.operands := by
  decide

theorem Unassigned.length {op : Byte} (h : Unassigned op) (m : Byte) : lengthByTable op m = 1 := by
  rw [lengthByTable_of_ne_alt h.ne_alt]
  unfold Unassigned at h
  revert op
  decide

theorem lengthByTable_of_not_altAssigned {op2 : Byte} (h : ¬ AltAssigned op2) : lengthByTable 0xFE op2 = 1 := by
  unfold AltAssigned at h
  revert op2
  decide

/-! ## What the decoder does with fetched bytes -/

theorem decode_of_unassigned {op : Byte} (h : Unassigned op) (l : List Byte) :
    decode (op :: l) = .error (.unassigned op) := by
  rw [decode_primary h.ne_alt, (primaryTable_eq_none_iff op).2 (.inl h)]

theorem decode_of_not_altAssigned {op2 : Byte} (h : ¬ AltAssigned op2) (l : List Byte) :
    decode (0xFE :: op2 :: l) = .error (.unassignedAlt op2) := by
  rw [decode_alt, (altTable_eq_none_iff op2).2 h]

/-- Fetched bytes whose first, and for 0xFE whose second, is assigned begin with those of a row, which are
as many, with its operand bytes, as the table of R142 says; the other bytes are enough for the operands. -/
theorem exists_lookup_of_assigned {b0 b1 : Byte} (h0 : ¬ Unassigned b0) (h1 : ¬ (b0 = 0xFE ∧ ¬ AltAssigned b1))
    (b2 b3 : Byte) :
    ∃ pre f l, Lookup pre f ∧ [b0, b1, b2, b3] = pre ++ l ∧ lengthByTable b0 b1 = pre.length + f.operands ∧
      f.operands ≤ l.length := by
  by_cases hop : b0 = 0xFE
  · subst hop
    have hsome : altTable b1 ≠ none := fun e => h1 ⟨rfl, (altTable_eq_none_iff b1).1 e⟩
    obtain ⟨f, hf⟩ := Option.ne_none_iff_exists'.1 hsome
    exact ⟨[0xFE, b1], f, [b2, b3], .alt hf, rfl, altTable_length b1 f hf, f.operands_le_two⟩
  · have hsome : primaryTable b0 ≠ none := fun e => ((primaryTable_eq_none_iff b0).1 e).elim h0 hop
    obtain ⟨f, hf⟩ := Option.ne_none_iff_exists'.1 hsome
    have hlen := (lengthByTable_of_ne_alt hop b1).trans (primaryTable_length b0 f hf)
    exact ⟨[b0], f, [b1, b2, b3], .primary hop hf, rfl, hlen, f.operands_le_two.trans (by simp)⟩

theorem decode_of_assigned {b0 b1 : Byte} (h0 : ¬ Unassigned b0) (h1 : ¬ (b0 = 0xFE ∧ ¬ AltAssigned b1))
    (b2 b3 : Byte) :
    ∃ i rest, decode [b0, b1, b2, b3] = .ok (i, rest) ∧ i.length = lengthByTable b0 b1 ∧
      rest.length + i.length = 4 := by
  obtain ⟨pre, f, l, hrow, hbytes, hlen, hops⟩ := exists_lookup_of_assigned h0 h1 b2 b3
  obtain ⟨i, hread⟩ := f.read_of_operands_le hops
  have hdec : decode [b0, b1, b2, b3] = .ok (i, l.drop f.operands) := by
    rw [hbytes, hrow.decode_append, hread]
  obtain ⟨head, hhead, _, henc⟩ := decode_inv hdec
  have hfour : 4 = pre.length + l.length := by simpa using congrArg List.length hbytes
  have hsplit : 4 = i.length + (l.length - f.operands) := by
    simpa [henc.length_eq] using congrArg List.length hhead
  refine ⟨i, _, hdec, ?_, ?_⟩
  · omega
  · rw [List.length_drop]; omega

/-- Settles O3, by what the first byte and, for 0xFE, the second are: an unassigned code, or an assigned
one. -/
theorem decoderAcceptsExactlyTheTable : Obligations.DecoderAcceptsExactlyTheTable := by
  intro b0 b1 b2 b3
  by_cases h0 : Unassigned b0
  · rw [decode_of_unassigned h0]
    exact ⟨⟨fun _ => h0, fun _ => rfl⟩, ⟨nofun, fun h => absurd h.1 h0.ne_alt⟩, fun h => absurd h0 h,
      fun _ _ => h0.length b1⟩
  · by_cases h1 : b0 = 0xFE ∧ ¬ AltAssigned b1
    · obtain ⟨rfl, hop2⟩ := h1
      rw [decode_of_not_altAssigned hop2]
      exact ⟨⟨nofun, fun h => absurd h h0⟩, ⟨fun _ => ⟨rfl, hop2⟩, fun _ => rfl⟩,
        fun _ h => absurd ⟨rfl, hop2⟩ h, fun _ _ => lengthByTable_of_not_altAssigned hop2⟩
    · obtain ⟨i, rest, hdec, hlen, hrest⟩ := decode_of_assigned h0 h1 b2 b3
      rw [hdec]
      exact ⟨⟨nofun, fun h => absurd h h0⟩, ⟨nofun, fun h => absurd h h1⟩,
        fun _ _ => ⟨i, rest, rfl, hlen, hrest⟩, nofun⟩

end Sys2Proof
end

section
/-! The frame agent's instruction (R121, R413): the bytes at pc decode and the instruction executes, or they
are an unassigned code (R452). -/

namespace Sys2Proof.Machine

theorem State.setSchedule_self {s : State} {l : List (Nat × HostOp)} (h : s.env.schedule = l) :
    s.setSchedule l = s := by
  subst h; rfl

theorem executeInstruction_of_decode {s : State} {i : Instr} {rest : List Byte}
    (h : decode (fetchBytes s) = .ok (i, rest)) : executeInstruction s = exec i s := by
  rw [executeInstruction, h]

theorem executeInstruction_of_reject {s : State} {e : Reject} (h : decode (fetchBytes s) = .error e) :
    executeInstruction s = .next (s.unknownOpcode (rejectEvent s e)) := by
  rw [executeInstruction, h]

/-- Where the loop of the frame step goes on, the move is one counted instruction (R413). -/
theorem frameMove_of_running {s : State} (hrun : s.cpu.run = .running) (hawait : s.cpu.awaitingVblank = false)
    (hcount : s.env.frameCount < 16000) : frameMove s = executeInstruction s.countInstruction := by
  have hruns : s.runsInstruction = true := by
    simp [State.runsInstruction, hrun, hawait, hcount]
  rw [frameMove, if_pos hruns]

theorem State.FrameAgentMoves.step_of_running {s : State} {later : List (Nat × HostOp)}
    (h : s.FrameAgentMoves later) (hrun : s.cpu.run = .running) (hawait : s.cpu.awaitingVblank = false)
    (hcount : s.env.frameCount < 16000) :
    step s = executeInstruction (s.setSchedule later).countInstruction :=
  h.step_eq.trans (frameMove_of_running (s := s.setSchedule later) hrun hawait hcount)

/-- Settles O5: the step is the frame agent's move, and that move the decoded instruction's execution. -/
theorem stepRunsDecodedInstruction : Obligations.StepRunsDecodedInstruction := by
  intro s i rest hrun hawait hcount hdec
  have hstep : ∀ later, s.FrameAgentMoves later → step s = exec i (s.setSchedule later).countInstruction :=
    fun later hmoves => (hmoves.step_of_running hrun hawait hcount).trans (executeInstruction_of_decode hdec)
  constructor
  · intro hempty
    rw [hstep [] (.inl ⟨hempty, rfl⟩), State.setSchedule_self hempty]
  · intro n op later hnext
    exact hstep _ (.inr ⟨n, op, later, hnext, rfl⟩)

/-- An unassigned code at pc is refused, by the reason that raises its event (R145, R440, R452). -/
theorem decode_fetchBytes_of_unassigned {s : State} {event : DebugEvent}
    (h : (Unassigned (busRead8 s s.cpu.pc) ∧ event = .unknownOpcode s.cpu.pc (busRead8 s s.cpu.pc)) ∨
      (busRead8 s s.cpu.pc = 0xFE ∧ ¬ AltAssigned (busRead8 s (s.cpu.pc + 1)) ∧
        event = .unknownAltOpcode s.cpu.pc (busRead8 s (s.cpu.pc + 1)))) :
    ∃ e, decode (fetchBytes s) = .error e ∧ rejectEvent s e = event := by
  rcases h with ⟨hop, rfl⟩ | ⟨hop, hop2, rfl⟩
  · exact ⟨_, decode_of_unassigned hop _, rfl⟩
  · refine ⟨.unassignedAlt _, ?_, rfl⟩
    rw [fetchBytes, hop]
    exact decode_of_not_altAssigned hop2 _

/-- Settles O6: the step is the frame agent's move, whose bytes are refused. -/
theorem unknownOpcodeHalts : Obligations.UnknownOpcodeHalts := by
  intro s later hmoves hrun hawait hcount event hevent
  obtain ⟨e, hdec, rfl⟩ := decode_fetchBytes_of_unassigned hevent
  exact (hmoves.step_of_running hrun hawait hcount).trans (executeInstruction_of_reject hdec)

end Sys2Proof.Machine
end

section
/-! Data movement (R160 to R167): the loads, the stores where the bus accepts them, and words written out in
the spec. -/

namespace Sys2Proof.Machine

/-! ## Loads -/

/-- A word operand in memory is the two bytes the bus reads from its address up (R88, R160). -/
theorem Ea.loadWord_eq (e : Ea) (s : State) :
    e.loadWord s = wordOf (busRead8 s (e.addr s)) (busRead8 s (e.addr s + 1)) := memRead16_eq s _

/-- A byte operand in memory is the byte the bus reads, as a number (R160). -/
theorem Ea.loadByte_eq (e : Ea) (s : State) :
    e.loadByte s = BitVec.ofNat 16 (busRead8 s (e.addr s)).toNat := (BitVec.ofNat_toNat 16 _).symm

theorem loadWord_computed (len : Nat) (r : Reg) (e : Ea) (s : State) :
    ∃ t, writeReg r (e.loadWord s) len s = .next t ∧
      Computed len r (wordOf (busRead8 s (e.addr s)) (busRead8 s (e.addr s + 1))) s.cpu.flags s t := by
  rw [← Ea.loadWord_eq]
  exact writeReg_computed len r _ s

theorem loadByte_computed (len : Nat) (r : Reg) (e : Ea) (s : State) :
    ∃ t, writeReg r (e.loadByte s) len s = .next t ∧
      Computed len r (BitVec.ofNat 16 (busRead8 s (e.addr s)).toNat) s.cpu.flags s t := by
  rw [← Ea.loadByte_eq]
  exact writeReg_computed len r _ s

/-- Settles O19: each load writes its operand, of either width and in either form, to a register and no
flag. -/
theorem loads : Obligations.Loads := fun s r b w =>
  ⟨writeReg_computed 3 r w s,
   loadWord_computed 3 r (.absolute w) s,
   loadWord_computed 2 r (.indirect b) s,
   loadByte_computed 4 r (.absolute w) s,
   loadByte_computed 3 r (.indirect b) s⟩

/-! ## Stores the bus accepts -/

theorem exec_stm (r : Reg) (a : Word) (s : State) :
    exec (.stm r a) s = (memWrite16 a (s.reg r) s).finish 3 := rfl

theorem exec_altStm (r : Reg) (a : Word) (s : State) :
    exec (.altStm r a) s = (busWrite8 a (loByte (s.reg r)) s).finish 4 := rfl

/-- The two bytes of an accepted word write change nothing but `ram` and the banks' bytes (R89). -/
theorem StoreFrame.placeWord {s : State} {a v : Word} (h1 : s.Accepts a (loByte v))
    (h2 : s.Accepts (a + 1) (hiByte v)) :
    StoreFrame s ((s.place a (loByte v)).place (a + 1) (hiByte v)) :=
  have hnext := (Accepts_place (a := a) (b := loByte v)).mpr h2
  (StoreFrame.place h1.1).trans (StoreFrame.place hnext.1)

/-- A store that went on ends its instruction with the bytes stored and the CPU advanced (R26, R463). -/
theorem StoreFrame.finish_goOn {l : List (Word × Byte)} {s u : State} (hframe : StoreFrame s u)
    (hstored : StoredBytes l s u) (len : Nat) :
    ∃ t, (Flow.goOn u).finish len = .next t ∧ CpuAdvanced len s t ∧ UnitsKept s t ∧ StoredBytes l s t :=
  ⟨_, rfl, advance_advanced len hframe.cpu, ⟨hframe.ppu, hframe.audio, hframe.env⟩, hstored.advance len⟩

/-- Settles O20: an accepted byte lands and nothing more happens, and a word is two such bytes. -/
theorem acceptedStores : Obligations.AcceptedStores := by
  intro s r a hbank
  constructor
  · intro hlo
    rw [exec_altStm, busWrite8_accepted hlo, ← loByte_eq]
    exact (StoreFrame.place hlo.1).finish_goOn (place_stores hbank a _) 4
  · intro hlo hhi
    rw [exec_stm, memWrite16_accepted hlo hhi, ← loByte_eq, ← hiByte_eq]
    exact (StoreFrame.placeWord hlo hhi).finish_goOn (memWrite16_stores hbank a _) 3

/-! ## Words of the spec's examples -/

/-- Settles O4: each word is its instruction's encoding, but for the nibble that INC's format ignores
(R125). -/
theorem specWordsDecode : Obligations.SpecWordsDecode :=
  ⟨decodeOfEncode (.ldm 1 0xE000) [],
   decodeOfEncode (.stm 0 0xE010) [],
   decodeOfEncode (.instr 2 0 1) [],
   decodeOfEncode (.draw 0 1 2 3) [],
   decodeOfEncode (.play 0 1 0x82) [],
   Lookup.decode_r (.primary (op := 0x1C) (by decide) rfl) 4 7 [],
   decodeOfEncode (.altIadd 1 0x0001) [],
   decodeOfEncode (.call 0x0300) [],
   decodeOfEncode (.rnd 3) []⟩

end Sys2Proof.Machine
end

section
/-! Arithmetic (R180 to R199): sums, differences and comparisons with their flags, division, and the two forms
that compute on the word a register points at. -/

namespace Sys2Proof.Machine

/-! ## Sums -/

/-- An instruction that writes the sum of two words and a carry in leaves it and its exact flags (R180,
R185). -/
theorem writeResult_addCarry16 (len : Nat) (r : Reg) (x y : Word) (c : Bool) (s : State) :
    ∃ t f, writeResult r (addCarry16 x y c) len s = .next t ∧ SumFlags x y c.toNat f ∧
      Computed len r (BitVec.ofNat 16 (x.toNat + y.toNat + c.toNat)) f s t := by
  obtain ⟨t, ht, hcomputed⟩ := writeResult_computed len r (addCarry16 x y c) s
  exact ⟨t, _, ht, addCarry16_flags x y c, hcomputed⟩

theorem writeResult_add16 (len : Nat) (r : Reg) (x y : Word) (s : State) :
    ∃ t f, writeResult r (add16 x y) len s = .next t ∧ SumFlags x y 0 f ∧
      Computed len r (BitVec.ofNat 16 (x.toNat + y.toNat)) f s t :=
  writeResult_addCarry16 len r x y false s

/-- Settles O24: the three instructions write a sum of the same law, of two registers, a register and the
literal, and a register and 1. -/
theorem additions : Obligations.Additions := fun s a b w =>
  ⟨writeResult_add16 2 a (s.reg a) (s.reg b) s,
   writeResult_add16 3 a (s.reg a) w s,
   writeResult_add16 2 a (s.reg a) 1 s⟩

/-- A carry counts 1 in a sum (R185). -/
theorem carry_toNat (c : Bool) : c.toNat = if c then 1 else 0 := cond_eq_ite c 1 0

/-- Settles O27: the default only advances, and the written-back sum is that of `addCarry16`. -/
theorem adcBothWays : Obligations.AdcBothWays := by
  intro s a b
  refine ⟨⟨_, rfl, advance_kept s 2⟩, rfl, ?_⟩
  rw [← carry_toNat]
  exact writeResult_addCarry16 2 a (s.reg a) (s.reg b) s.cpu.flags.c s

/-! ## Differences -/

theorem writeResult_sub16 (len : Nat) (r : Reg) (x y : Word) (s : State) :
    ∃ t f, writeResult r (sub16 x y) len s = .next t ∧ DiffFlags x y f ∧
      Computed len r (BitVec.ofNat 16 (x.toNat + 65536 - y.toNat)) f s t := by
  obtain ⟨t, ht, hcomputed⟩ := writeResult_computed len r (sub16 x y) s
  rw [sub16_result] at hcomputed
  exact ⟨t, _, ht, sub16_flags x y, hcomputed⟩

/-- Settles O25: the four instructions write a difference of the same law; NEG's is from 0. -/
theorem subtractions : Obligations.Subtractions := fun s a b w =>
  ⟨writeResult_sub16 2 a (s.reg a) (s.reg b) s,
   writeResult_sub16 3 a (s.reg a) w s,
   writeResult_sub16 2 a (s.reg a) 1 s,
   writeResult_sub16 2 a 0 (s.reg a) s⟩

theorem writeFlags_sub16 (len : Nat) (x y : Word) (s : State) :
    ∃ t f, writeFlags (sub16 x y) len s = .next t ∧ DiffFlags x y f ∧ Compared len f s t := by
  obtain ⟨t, ht, hcompared⟩ := writeFlags_compared len (sub16 x y) s
  exact ⟨t, _, ht, sub16_flags x y, hcompared⟩

theorem exec_altIcmp (r : Reg) (w : Word) (s : State) :
    exec (.altIcmp r w) s = writeFlags (sub16 ((Ea.indirect r).loadWord s) w) 4 s := rfl

/-- Settles O26: a comparison is a difference that is discarded, ALT ICMP's of the word in memory. -/
theorem comparisons : Obligations.Comparisons := by
  intro s a b w
  refine ⟨writeFlags_sub16 2 (s.reg a) (s.reg b) s, writeFlags_sub16 3 (s.reg a) w s, ?_⟩
  obtain ⟨t, f, ht, hflags, hcompared⟩ := writeFlags_sub16 4 ((Ea.indirect a).loadWord s) w s
  rw [Ea.loadWord_eq] at hflags
  exact ⟨t, f, (exec_altIcmp a w s).trans ht, hcompared, hflags⟩

/-! ## A sum and the difference that undoes it -/

/-- ADD is addition of words, and leaves the other registers (R183). -/
theorem exec_add_regs {s t : State} {a b : Reg} (h : exec (.add a b) s = .next t) :
    t.reg a = s.reg a + s.reg b ∧ ∀ q, q ≠ a → t.reg q = s.reg q := by
  obtain ⟨t', f, ht, -, hcomputed⟩ := (additions s a b 0).1
  obtain rfl : t' = t := Host.Outcome.next.inj (ht.symm.trans h)
  exact ⟨hcomputed.result.trans (BitVec.add_def _ _).symm, hcomputed.others⟩

/-- SUB is subtraction of words (R184). -/
theorem exec_sub_result {s t : State} {a b : Reg} (h : exec (.sub a b) s = .next t) :
    t.reg a = s.reg a - s.reg b := by
  obtain ⟨t', f, ht, -, hcomputed⟩ := (subtractions s a b 0).1
  obtain rfl : t' = t := Host.Outcome.next.inj (ht.symm.trans h)
  rw [hcomputed.result, sub_eq_ofNat]

/-- Settles O30: between distinct registers SUB takes away the operand that ADD left standing; of one
register with itself the difference is 0. -/
theorem addThenSubRestores : Obligations.AddThenSubRestores := by
  intro s t u a b hadd hsub
  obtain ⟨hsum, hothers⟩ := exec_add_regs hadd
  have hdiff := exec_sub_result hsub
  constructor
  · intro hne
    rw [hdiff, hsum, hothers b (Ne.symm hne), BitVec.add_sub_cancel]
  · rintro rfl
    exact hdiff.trans (BitVec.sub_self _)

/-! ## Division -/

theorem div16_of_ne_zero {x y : Word} (h : y ≠ 0) :
    div16 x y = (BitVec.ofNat 16 (x.toNat / y.toNat), divFlags (BitVec.ofNat 16 (x.toNat / y.toNat))) :=
  if_neg h

theorem mod16_of_ne_zero {x y : Word} (h : y ≠ 0) :
    mod16 x y = (BitVec.ofNat 16 (x.toNat % y.toNat), divFlags (BitVec.ofNat 16 (x.toNat % y.toNat))) :=
  if_neg h

/-- A quotient or remainder is written with the flags of its value: it is at most the dividend, so a word
holds it. -/
theorem writeResult_divFlags {q : Nat} {x : Word} (hq : q ≤ x.toNat) (len : Nat) (r : Reg) (s : State) :
    ∃ t p, writeResult r (BitVec.ofNat 16 q, divFlags (BitVec.ofNat 16 q)) len s = .next t ∧ p = q ∧
      Computed len r (BitVec.ofNat 16 p) ⟨false, decide (p = 0), false, decide (32768 ≤ p)⟩ s t := by
  obtain ⟨t, ht, hcomputed⟩ := writeResult_computed len r (BitVec.ofNat 16 q, divFlags (BitVec.ofNat 16 q)) s
  rw [divFlags_eq (hq.trans_lt x.isLt)] at hcomputed
  exact ⟨t, q, ht, rfl, hcomputed⟩

theorem exec_div (a b : Reg) (s : State) :
    exec (.div a b) s = writeResult a (div16 (s.reg a) (s.reg b)) 2 s := rfl

theorem exec_mod (a b : Reg) (s : State) :
    exec (.mod a b) s = writeResult a (mod16 (s.reg a) (s.reg b)) 2 s := rfl

/-- Settles O28: neither the quotient nor the remainder exceeds the dividend. -/
theorem divisions : Obligations.Divisions := by
  intro s a b hb
  rw [exec_div, exec_mod, div16_of_ne_zero hb, mod16_of_ne_zero hb]
  exact ⟨writeResult_divFlags (Nat.div_le_self _ _) 2 a s, writeResult_divFlags (Nat.mod_le _ _) 2 a s⟩

/-- Settles O29: by 0 both write the result and flags of `divByZero`, for any dividend. -/
theorem divisionByZero : Obligations.DivisionByZero := by
  intro s a b hb
  have hdiv : div16 (s.reg a) (s.reg b) = divByZero := if_pos hb
  have hmod : mod16 (s.reg a) (s.reg b) = divByZero := if_pos hb
  rw [exec_div, exec_mod, hdiv, hmod]
  exact ⟨writeResult_computed 2 a divByZero s, writeResult_computed 2 a divByZero s⟩

/-! ## The word a register points at -/

/-- A write-back that the bus accepts leaves the result at the two addresses and its flags, and the registers
as they were (R193, R194). -/
theorem writeBack_accepted {s : State} {r : Reg} {res : Word × Flags}
    (hbank : s.bus.banks = [] ∨ s.bus.selectedBank < s.bus.banks.length)
    (hlo : s.Accepts (s.reg r) (loByte res.1)) (hhi : s.Accepts (s.reg r + 1) (hiByte res.1)) :
    ∃ t, writeBack r res s = .next t ∧ (∀ q, t.reg q = s.reg q) ∧ t.cpu.flags = res.2 ∧
      t.cpu.pc = s.cpu.pc + 4 ∧ ControlKept s t ∧ UnitsKept s t ∧
      StoredBytes [(s.reg r, BitVec.ofNat 8 res.1.toNat),
        (s.reg r + 1, BitVec.ofNat 8 (res.1.toNat / 256))] s t := by
  -- The flags are written first; the store does not look at them.
  have hwritten : memWrite16 (s.reg r) res.1 (s.setFlags res.2) = _ := memWrite16_accepted hlo hhi
  have hframe : StoreFrame (s.setFlags res.2) _ := .placeWord hlo hhi
  obtain ⟨t, ht, hcpu, hunits, hstored⟩ :=
    hframe.finish_goOn (memWrite16_stores (s := s.setFlags res.2) hbank (s.reg r) res.1) 4
  rw [loByte_eq, hiByte_eq] at hstored
  obtain ⟨hstack, hrun, hawaiting, hcause⟩ := hcpu.control
  exact ⟨t, (congrArg (·.finish 4) hwritten).trans ht, hcpu.regs, hcpu.flags, hcpu.pc,
    ⟨hstack, hrun, hawaiting, hcause⟩, ⟨hunits.ppu, hunits.audio, hunits.env⟩, hstored.of_setFlags⟩

theorem exec_altIadd (r : Reg) (w : Word) (s : State) :
    exec (.altIadd r w) s = writeBack r (add16 ((Ea.indirect r).loadWord s) w) s := rfl

theorem exec_altIsub (r : Reg) (w : Word) (s : State) :
    exec (.altIsub r w) s = writeBack r (sub16 ((Ea.indirect r).loadWord s) w) s := rfl

/-- Settles O21: both forms write back a result, of `add16` or of `sub16`, that the bus accepts. -/
theorem pointerArithmetic : Obligations.PointerArithmetic := by
  rintro s r w v p m rfl rfl hbank hlo hhi
  have hword : (Ea.indirect r).loadWord s = wordOf (busRead8 s (s.reg r)) (busRead8 s (s.reg r + 1)) :=
    Ea.loadWord_eq _ s
  rw [exec_altIadd, exec_altIsub, hword]
  generalize wordOf (busRead8 s (s.reg r)) (busRead8 s (s.reg r + 1)) = m
  constructor
  · rintro rfl
    obtain ⟨t, ht, hregs, hflags, hkept⟩ := writeBack_accepted (res := add16 m w) hbank hlo hhi
    exact ⟨t, ht, hregs, hflags ▸ addCarry16_flags m w false, hkept⟩
  · rintro rfl
    rw [← sub16_result] at hlo hhi ⊢
    obtain ⟨t, ht, hregs, hflags, hkept⟩ := writeBack_accepted (res := sub16 m w) hbank hlo hhi
    exact ⟨t, ht, hregs, hflags ▸ sub16_flags m w, hkept⟩

end Sys2Proof.Machine
end

section
/-! Logic and shifts (R210 to R216): a bitwise result with the logic flag law, and a shift by the whole count
with the bit shifted out. -/

namespace Sys2Proof.Machine

/-! ## Bitwise results -/

/-- A logic result is written with the flags of its value, and by default C stays (R210); its bits say which
word it is. -/
theorem writeResult_logicWith {v w : Word} (r : Reg) (s : State)
    (hbits : ∀ k, k < 16 → v.getLsbD k = w.getLsbD k) :
    ∃ t, writeResult r (logicWith cfg.logicKeepsCarry s w) 2 s = .next t ∧
      Computed 2 r v ⟨s.cpu.flags.c, decide (v.toNat = 0), false, decide (32768 ≤ v.toNat)⟩ s t := by
  obtain rfl : v = w := BitVec.eq_of_getLsbD_eq hbits
  obtain ⟨t, ht, hcomputed⟩ := writeResult_computed 2 r (logicWith cfg.logicKeepsCarry s v) s
  have hflags := logicFlags_eq cfg.logicKeepsCarry s.cpu.flags v
  rw [cfg_logicKeepsCarry, Bool.true_and] at hflags
  exact ⟨t, ht, hflags ▸ hcomputed⟩

theorem exec_and (a b : Reg) (s : State) :
    exec (.and a b) s = writeResult a (logicWith cfg.logicKeepsCarry s (s.reg a &&& s.reg b)) 2 s := rfl

theorem exec_or (a b : Reg) (s : State) :
    exec (.or a b) s = writeResult a (logicWith cfg.logicKeepsCarry s (s.reg a ||| s.reg b)) 2 s := rfl

theorem exec_xor (a b : Reg) (s : State) :
    exec (.xor a b) s = writeResult a (logicWith cfg.logicKeepsCarry s (s.reg a ^^^ s.reg b)) 2 s := rfl

/-- NOT is the complement of the register: R214 writes it as an exclusive or with 0xFFFF. -/
theorem exec_not (a : Reg) (s : State) :
    exec (.not a) s = writeResult a (logicWith cfg.logicKeepsCarry s (~~~s.reg a)) 2 s := by
  rw [← BitVec.xor_allOnes]
  rfl

/-- Settles O31: each instruction writes the word with the given bits; with the carry dropped the law is
`logicFlags_eq` again. -/
theorem logicOperations : Obligations.LogicOperations := by
  rintro s a b v f rfl
  rw [exec_and, exec_or, exec_xor, exec_not]
  refine ⟨fun hand => ?_, fun hor => ?_, fun hxor => ?_, fun hnot => ?_, logicFlags_eq false s.cpu.flags v⟩
  · exact writeResult_logicWith a s fun k hk => (hand k hk).trans BitVec.getLsbD_and.symm
  · exact writeResult_logicWith a s fun k hk => (hor k hk).trans BitVec.getLsbD_or.symm
  · exact writeResult_logicWith a s fun k hk => (hxor k hk).trans BitVec.getLsbD_xor.symm
  · refine writeResult_logicWith a s fun k hk => ?_
    rw [hnot k hk, BitVec.getLsbD_not, decide_eq_true hk, Bool.true_and]

/-! ## Shifts -/

theorem exec_shl (a b : Reg) (s : State) :
    exec (.shl a b) s = writeResult a (shl16 (s.reg a) (s.reg b)) 2 s := rfl

theorem exec_shr (a b : Reg) (s : State) :
    exec (.shr a b) s = writeResult a (shr16 (s.reg a) (s.reg b)) 2 s := rfl

/-- Settles O32: both write a shift's result, which `shl16_eq` and `shr16_eq` give as a product and a quotient
by the power of the count. -/
theorem shifts : Obligations.Shifts := by
  intro s a b x n hx hn
  rw [exec_shl, exec_shr, shl16_eq hx hn, shr16_eq hx hn]
  exact ⟨writeResult_computed 2 a _ s, writeResult_computed 2 a _ s⟩

end Sys2Proof.Machine
end

section
/-! Control transfer (R230 to R243): the jumps by their conditions on the flags, what those conditions say of
two words after they were compared, and HALT and VBLNK. -/

namespace Sys2Proof.Machine

/-! ## Jumps -/

theorem exec_jmp (a : Word) (s : State) : exec (.jmp a) s = .next (s.setPc a) := rfl

theorem exec_jeq (a : Word) (s : State) : exec (.jeq a) s = jumpIf s.cpu.flags.z a s := rfl

theorem exec_jne (a : Word) (s : State) : exec (.jne a) s = jumpIf (!s.cpu.flags.z) a s := rfl

theorem Flags.gt_eq (f : Flags) : f.gt = decide (f.z = false ∧ f.n = f.v) := by
  rw [Bool.eq_iff_iff]
  simp [Flags.gt]

theorem Flags.lt_eq (f : Flags) : f.lt = decide (f.n ≠ f.v) := by
  rw [Bool.eq_iff_iff]
  simp [Flags.lt]

theorem Flags.ge_eq (f : Flags) : f.ge = decide (f.n = f.v) := by
  rw [Bool.eq_iff_iff]
  simp [Flags.ge]

theorem Flags.le_eq (f : Flags) : f.le = decide (f.z = true ∨ f.n ≠ f.v) := by
  rw [Bool.eq_iff_iff]
  simp [Flags.le]

theorem exec_jgt (a : Word) (s : State) :
    exec (.jgt a) s = jumpIf (decide (s.cpu.flags.z = false ∧ s.cpu.flags.n = s.cpu.flags.v)) a s :=
  congrArg (jumpIf · a s) s.cpu.flags.gt_eq

theorem exec_jlt (a : Word) (s : State) :
    exec (.jlt a) s = jumpIf (decide (s.cpu.flags.n ≠ s.cpu.flags.v)) a s :=
  congrArg (jumpIf · a s) s.cpu.flags.lt_eq

theorem exec_jge (a : Word) (s : State) :
    exec (.jge a) s = jumpIf (decide (s.cpu.flags.n = s.cpu.flags.v)) a s :=
  congrArg (jumpIf · a s) s.cpu.flags.ge_eq

theorem exec_jle (a : Word) (s : State) :
    exec (.jle a) s = jumpIf (decide (s.cpu.flags.z = true ∨ s.cpu.flags.n ≠ s.cpu.flags.v)) a s :=
  congrArg (jumpIf · a s) s.cpu.flags.le_eq

theorem jumpIf_transferred (taken : Bool) (a : Word) (s : State) :
    ∃ t, jumpIf taken a s = .next t ∧
      Transferred (if taken then a else s.cpu.pc + 3) s.cpu.stack s t := by
  rw [jumpIf_eq]
  exact setPc_transferred s _ _ rfl

/-- Settles O33: each jump but JMP is `jumpIf` of its condition. -/
theorem jumps : Obligations.Jumps := by
  rintro s a go rfl
  rw [exec_jmp, exec_jeq, exec_jne, exec_jgt, exec_jlt, exec_jge, exec_jle]
  exact ⟨setPc_transferred s a a rfl, jumpIf_transferred _ a s, jumpIf_transferred _ a s,
    jumpIf_transferred _ a s, jumpIf_transferred _ a s, jumpIf_transferred _ a s, jumpIf_transferred _ a s⟩

/-! ## The conditions after a comparison (R231) -/

/-- N is the sign of the wrapped difference, and V says that the sign is wrong: they differ exactly when the
exact difference is negative. -/
theorem DiffFlags.lt_iff {x y : Word} {f : Flags} (h : DiffFlags x y f) : f.n ≠ f.v ↔ x.toInt < y.toInt := by
  have hx := x.isLt
  have hy := y.isLt
  have hn := h.n
  have hv := h.v
  rw [BitVec.toInt_eq_toNat_cond, BitVec.toInt_eq_toNat_cond] at hv ⊢
  rw [ne_eq, Bool.eq_iff_iff, hn, hv]
  omega

theorem DiffFlags.ge_iff {x y : Word} {f : Flags} (h : DiffFlags x y f) : f.n = f.v ↔ y.toInt ≤ x.toInt := by
  rw [← not_lt, ← h.lt_iff, ne_eq, not_not]

theorem DiffFlags.ne_iff {x y : Word} {f : Flags} (h : DiffFlags x y f) : f.z = false ↔ x ≠ y := by
  rw [← Bool.not_eq_true, h.z]

theorem DiffFlags.le_iff {x y : Word} {f : Flags} (h : DiffFlags x y f) :
    (f.z = true ∨ f.n ≠ f.v) ↔ x.toInt ≤ y.toInt := by
  rw [h.z, h.lt_iff, ← BitVec.toInt_inj, le_iff_eq_or_lt]

theorem DiffFlags.gt_iff {x y : Word} {f : Flags} (h : DiffFlags x y f) :
    (f.z = false ∧ f.n = f.v) ↔ y.toInt < x.toInt := by
  rw [h.ne_iff, h.ge_iff, ← BitVec.toInt_inj.ne, lt_iff_le_and_ne, and_comm, ne_comm]

/-- CMP and ICMP leave the flags of the difference of the words they compare (R186, R192). -/
theorem compare_diffFlags {s t : State} {a b : Reg} {w x y : Word}
    (h : (x = s.reg a ∧ y = s.reg b ∧ exec (.cmp a b) s = .next t) ∨
      (x = s.reg a ∧ y = w ∧ exec (.icmp a w) s = .next t)) : DiffFlags x y t.cpu.flags := by
  obtain ⟨⟨u, f, hu, hdiff, hcompared⟩, ⟨v, g, hv, hdiff', hcompared'⟩, -⟩ := comparisons s a b w
  obtain ⟨rfl, rfl, ht⟩ | ⟨rfl, rfl, ht⟩ := h
  · obtain rfl : u = t := Host.Outcome.next.inj (hu.symm.trans ht)
    exact hcompared.flags ▸ hdiff
  · obtain rfl : v = t := Host.Outcome.next.inj (hv.symm.trans ht)
    exact hcompared'.flags ▸ hdiff'

theorem jumpIf_of_iff {taken : Bool} {p : Prop} [Decidable p] (h : taken = true ↔ p) (a : Word) (s : State) :
    jumpIf taken a s = .next (s.setPc (if p then a else s.cpu.pc + 3)) := by
  rw [jumpIf_eq, if_congr h rfl rfl]

/-- Settles O34: the condition of each jump, read off the flags of the difference. -/
theorem jumpsAfterComparison : Obligations.JumpsAfterComparison := by
  intro s t a b w target x y hcompare
  have hdiff := compare_diffFlags hcompare
  rw [exec_jeq, exec_jne, exec_jgt, exec_jlt, exec_jge, exec_jle]
  exact ⟨jumpIf_of_iff hdiff.z target t,
    jumpIf_of_iff ((Bool.not_eq_true' _).to_iff.trans hdiff.ne_iff) target t,
    jumpIf_of_iff (decide_eq_true_iff.trans hdiff.gt_iff) target t,
    jumpIf_of_iff (decide_eq_true_iff.trans hdiff.lt_iff) target t,
    jumpIf_of_iff (decide_eq_true_iff.trans hdiff.ge_iff) target t,
    jumpIf_of_iff (decide_eq_true_iff.trans hdiff.le_iff) target t⟩

/-! ## HALT and VBLNK (R235, R236) -/

theorem exec_halt (s : State) : exec .halt s = .next ((s.halt .haltInstruction).advance 1) := rfl

theorem exec_vblnk (s : State) : exec .vblnk s = .next ((s.setAwaiting true).advance 1) := rfl

/-- A change of the CPU alone leaves the devices and memory. -/
theorem DevicesKept.of_cpu (s : State) (c : Cpu) : DevicesKept s { s with cpu := c } :=
  ⟨rfl, rfl, rfl, rfl, fun _ => rfl⟩

/-- Settles O36: both change the CPU alone, and the advance is pc's. -/
theorem haltAndVblnk : Obligations.HaltAndVblnk := by
  intro s
  constructor
  · exact ⟨_, exec_halt s, ⟨State.halt_run s .haltInstruction, State.halt_haltCause s _⟩, .of_cpu s _, rfl⟩
  · exact ⟨_, exec_vblnk s, .of_cpu s _, rfl⟩

end Sys2Proof.Machine
end

section
/-! Device instructions (44_device_ops.md): what one leaves as it was, and the sound instructions SONG, MUTE, PLAY
and STOP (R263, R267 to R270). -/

namespace Sys2Proof.Machine

/-! ## What a device instruction leaves as it was -/

theorem MemoryKept.of_bus {s t : State} (h : t.bus = s.bus) : MemoryKept s t := ⟨h, busRead8_congr h⟩

/-- A device part that only wrote `ram`, and there only at addresses of p, keeps the rest behind the bus through
the advance. -/
theorem OnlyRam.ramKeptBut {p : Nat → Prop} {s u : State} (h : OnlyRam s u)
    (hram : ∀ a, ¬ p a → u.ramRead a = s.ramRead a) (len : Nat) : RamKeptBut p s (u.advance len) :=
  (RamKeptBut.of_ram hram h.bus).advance len

/-! ## SONG (R263, R425) -/

theorem exec_song (r : Reg) (s : State) : exec (.song r) s = .next ((s.startSong (s.reg r)).advance 1) := rfl

/-! ## MUTE and ALT MUTE (R269, R270, R419, R425) -/

/-- The sequencer stopped where it stands: the first part of `Mute` (R425). -/
def State.stopSequencer (s : State) : State := { s with audio := { s.audio with seqEnabled := false } }

theorem muteAll_false (s : State) : s.muteAll false = s.stopSequencer.stopAll := rfl

theorem muteAll_true (s : State) : s.muteAll true =
    { s.stopSequencer.stopAll with audio := { s.stopSequencer.stopAll.audio with
      channels := s.stopSequencer.stopAll.audio.channels.map fun ch =>
        { ch with stage := .idle, volume := 0, retrig := false } } } := rfl

/-- Making the channels silent changes nothing outside the audio unit. -/
theorem muteAll_outside (s : State) (quiet : Bool) :
    (s.muteAll quiet).bus = s.stopSequencer.stopAll.bus ∧ (s.muteAll quiet).ppu = s.stopSequencer.stopAll.ppu ∧
      (s.muteAll quiet).env = s.stopSequencer.stopAll.env := by
  cases quiet
  · exact ⟨rfl, rfl, rfl⟩
  · exact ⟨rfl, rfl, rfl⟩

theorem muteAll_ppu_env (s : State) (quiet : Bool) :
    (s.muteAll quiet).ppu = s.ppu ∧ (s.muteAll quiet).env = s.env := by
  obtain ⟨-, hppu, henv⟩ := muteAll_outside s quiet
  obtain ⟨-, -, -, hstopPpu, hstopEnv, -, -⟩ := releaseAll_spec s.stopSequencer (List.finRange 8)
  exact ⟨hppu.trans hstopPpu, henv.trans hstopEnv⟩

/-- Of `ram`, MUTE clears the low half of the eight control bytes. -/
theorem ramRead_muteAll (s : State) (quiet : Bool) (x : Nat) :
    (s.muteAll quiet).ramRead x =
      if ∃ c, c < 8 ∧ x = 0xF7A3 + 4 * c then s.ramRead x &&& 0xF0 else s.ramRead x := by
  obtain ⟨hbus, -, -⟩ := muteAll_outside s quiet
  obtain ⟨hram, -⟩ := releaseAll_spec s.stopSequencer (List.finRange 8)
  have hctrl : (∃ c ∈ List.finRange 8, x = 0xF7A3 + 4 * c.val) ↔ ∃ c, c < 8 ∧ x = 0xF7A3 + 4 * c := by
    simp [Fin.exists_iff]
  exact (ramRead_congr hbus x).trans ((hram x).trans (if_congr hctrl rfl rfl))

/-- Every channel's priority is cleared, and ALT MUTE also makes it Idle and silent. -/
theorem channels_muteAll (s : State) (quiet : Bool) (c : Fin 8) :
    (s.muteAll quiet).audio.channels.get c =
      if quiet then
        { s.audio.channels.get c with priority := false, stage := .idle, volume := 0, retrig := false }
      else { s.audio.channels.get c with priority := false } := by
  obtain ⟨-, hchannels, -⟩ := releaseAll_spec s.stopSequencer (List.finRange 8)
  have hstop : s.stopSequencer.stopAll.audio.channels.get c = { s.audio.channels.get c with priority := false } :=
    (hchannels c).trans (if_pos (List.mem_finRange c))
  cases quiet with
  | false => exact hstop
  | true =>
    rw [Vector.get_eq_getElem] at hstop ⊢
    rw [muteAll_true, Vector.getElem_map, hstop]
    rfl

theorem muteAll_audio (s : State) (quiet : Bool) :
    (s.muteAll quiet).audio =
      { s.audio with channels := (s.muteAll quiet).audio.channels, seqEnabled := false } := by
  obtain ⟨-, -, -, -, -, -, haudio⟩ := releaseAll_spec s.stopSequencer (List.finRange 8)
  have hstop : s.stopSequencer.stopAll.audio =
      { s.audio with channels := s.stopSequencer.stopAll.audio.channels, seqEnabled := false } := haudio
  cases quiet with
  | false => exact hstop
  | true => rw [muteAll_true, hstop]

theorem exec_mutes (quiet : Bool) (s : State) :
    exec (if quiet then .altMute else .mute) s =
      .next ((s.muteAll quiet).advance (if quiet then 2 else 1)) := by
  cases quiet
  · rfl
  · rfl

/-- Settles O38: SONG writes the sequencer's fields alone, and both forms of MUTE are `muteAll`. -/
theorem songAndMute : Obligations.SongAndMute := by
  intro s r
  refine ⟨⟨_, exec_song r s, advance_advanced 1 rfl, .of_bus rfl, rfl, rfl, rfl⟩, fun quiet => ?_⟩
  have honly := muteAll_onlyRam s quiet
  obtain ⟨hppu, henv⟩ := muteAll_ppu_env s quiet
  refine ⟨_, exec_mutes quiet s, advance_advanced _ honly.cpu, hppu, henv,
    honly.ramKeptBut (fun x hx => ?_) _, fun c hc => ?_, muteAll_audio s quiet, channels_muteAll s quiet⟩
  · rw [ramRead_muteAll, if_neg hx]
  · rw [ramRead_advance, ramRead_muteAll, if_pos ⟨c, hc, rfl⟩]

/-! ## PLAY (R267, R361, R418) -/

theorem exec_play (a b : Reg) (imm : Byte) (s : State) :
    exec (.play a b imm) s = .next
      ((s.playNote (s.reg a).toNat (loByte (s.reg b)) (playInstrument imm) (playOverride imm)).advance 3) := rfl

/-- Bit 7 of PLAY's literal is the override. -/
theorem playOverride_eq (imm : Byte) : playOverride imm = decide (128 ≤ imm.toNat) :=
  BitVec.msb_eq_decide imm

/-- The control byte PLAY writes: the instrument over the gate. -/
theorem playControl_toNat (imm : Byte) : (nibbles (playInstrument imm) 1).toNat = 16 * (imm.toNat % 16) + 1 := by
  revert imm
  decide

theorem playNote_of_lt (s : State) (c : Fin 8) (note : Byte) (ins : BitVec 4) (override : Bool) :
    s.playNote c.val note ins override = s.playChannel c note ins override := dif_pos c.isLt

theorem playNote_of_ge (s : State) {ch : Nat} (h : 8 ≤ ch) (note : Byte) (ins : BitVec 4) (override : Bool) :
    s.playNote ch note ins override = s := dif_neg (Nat.not_lt.mpr h)

/-- A held channel turns a note without override away (R361). -/
theorem playChannel_held {s : State} {c : Fin 8} (h : (s.audio.channels.get c).priority = true) (note : Byte)
    (ins : BitVec 4) : s.playChannel c note ins false = s := by
  unfold State.playChannel
  rw [if_pos (by simp [h])]

theorem playNote_dropped {s : State} {ch : Nat} {override : Bool}
    (h : 8 ≤ ch ∨ (override = false ∧ ∃ c : Fin 8, ch = c.val ∧ (s.audio.channels.get c).priority = true))
    (note : Byte) (ins : BitVec 4) : s.playNote ch note ins override = s := by
  rcases h with hch | ⟨rfl, c, rfl, hheld⟩
  · exact playNote_of_ge s hch note ins override
  · rw [playNote_of_lt, playChannel_held hheld]

/-- Settles O39: an accepted PLAY is `playChannel`, and a dropped one advances only. -/
theorem playStartsANote : Obligations.PlayStartsANote := by
  intro s a b imm
  rw [exec_play, playOverride_eq]
  constructor
  · intro c hc hfree
    rw [hc, playNote_of_lt]
    have honly := playNote_onlyRam s c.val (loByte (s.reg b)) (playInstrument imm) (decide (128 ≤ imm.toNat))
    rw [playNote_of_lt] at honly
    obtain ⟨hram, hchannels, -, hppu, henv, -, haudio⟩ :=
      playChannel_spec s c (loByte (s.reg b)) (playInstrument imm) _ (hfree.imp_right decide_eq_true)
    refine ⟨_, rfl, advance_advanced 3 honly.cpu, hppu, henv, honly.ramKeptBut (fun x hx => ?_) 3, ?_, ?_, haudio,
      (hchannels c).trans (if_pos rfl), fun d hd => (hchannels d).trans (if_neg hd)⟩
    · rw [not_or, not_or] at hx
      obtain ⟨hlo, hhi, hctrl⟩ := hx
      rw [hram, if_neg hlo, if_neg hhi, if_neg hctrl]
    · rw [ramRead_advance, ramRead_advance, hram, hram, if_pos rfl, if_neg (by omega), if_pos rfl, wordOf_split,
        loByte_eq]
    · rw [ramRead_advance, hram, if_neg (by omega), if_neg (by omega), if_pos rfl, playControl_toNat]
  · intro hdropped
    rw [playNote_dropped (hdropped.imp_right fun ⟨himm, hheld⟩ => ⟨decide_eq_false (by omega), hheld⟩)]
    exact ⟨_, rfl, advance_kept s 3⟩

/-! ## STOP (R268, R419) -/

theorem exec_stop (a : Reg) (s : State) : exec (.stop a) s = .next ((s.stopChannel (s.reg a).toNat).advance 2) := rfl

theorem stopChannel_of_lt (s : State) (c : Fin 8) : s.stopChannel c.val = s.releaseChannel c := dif_pos c.isLt

theorem stopChannel_of_ge (s : State) {ch : Nat} (h : 8 ≤ ch) : s.stopChannel ch = s := dif_neg (Nat.not_lt.mpr h)

/-- Clearing the low half of a byte. -/
theorem and_highNibble_toNat (b : Byte) : (b &&& 0xF0).toNat = 16 * (b.toNat / 16) := by
  revert b
  decide

/-- Settles O40, by the channel number. -/
theorem stopReleasesAChannel : Obligations.StopReleasesAChannel := by
  intro s a
  rw [exec_stop]
  constructor
  · intro c hc
    rw [hc, stopChannel_of_lt]
    have honly : OnlyRam s (s.releaseChannel c) := ⟨rfl, rfl⟩
    have hchannels := channels_releaseChannel s c
    refine ⟨_, rfl, advance_advanced 2 rfl, rfl, rfl, honly.ramKeptBut (fun x hx => ?_) 2, ?_, rfl,
      (hchannels c).trans (if_pos rfl), fun d hd => (hchannels d).trans (if_neg hd)⟩
    · rw [ramRead_releaseChannel, if_neg hx]
    · rw [ramRead_advance, ramRead_releaseChannel, if_pos rfl, and_highNibble_toNat]
  · intro hge
    rw [stopChannel_of_ge s hge]
    exact ⟨_, rfl, advance_kept s 2⟩

end Sys2Proof.Machine
end

section
/-! INSTR and SWC, which write `ram` internally (R271, R275), and the picture instructions DRAW, CLS, TEXT, ATTR,
SETCRS, COL, CAM, CAMMV and SETOAM (R264 to R266, R273, R274, R276 to R281). -/

namespace Sys2Proof.Machine

/-! ## INSTR and SWC (R91, R424, R428) -/

theorem exec_instr (r a b : Reg) (s : State) :
    exec (.instr r a b) s = .next ((s.setInstrument (s.reg r) (s.reg a) (s.reg b)).advance 2) := rfl

theorem exec_swc (a b : Reg) (s : State) :
    exec (.swc a b) s = .next ((s.swapColor (paletteField (s.reg a)) (loByte (s.reg b))).advance 2) := rfl

theorem setInstrument_of_lt {s : State} {k : Word} (h : k.toNat < 16) (ad sr : Word) :
    s.setInstrument k ad sr =
      s.ramLoad (0xF7C0 + 4 * k.toNat) [loByte ad, hiByte ad, loByte sr, hiByte sr] := if_pos h

theorem setInstrument_of_ge {s : State} {k : Word} (h : 16 ≤ k.toNat) (ad sr : Word) :
    s.setInstrument k ad sr = s := if_neg (Nat.not_lt.mpr h)

/-- Byte j of what was loaded. -/
theorem ramRead_ramLoad_add (s : State) (base : Nat) {bs : List Byte} {j : Nat} (h : j < bs.length) :
    (s.ramLoad base bs).ramRead (base + j) = bs[j] := by
  rw [ramRead_ramLoad, if_pos (by omega), Nat.add_sub_cancel_left, List.getD_eq_getElem _ _ h]

theorem paletteField_toNat (w : Word) : (paletteField w).toNat = w.toNat % 16 := by
  simp [paletteField]

theorem ramRead_swapColor (s : State) (w : Word) (v : Byte) (x : Nat) :
    (s.swapColor (paletteField w) v).ramRead x = if x = 0xFFF0 + w.toNat % 16 then v else s.ramRead x := by
  rw [State.swapColor, ramRead_ramWrite, paletteField_toNat, cfg_paletteBase]

/-- Settles O41: INSTR is an internal write of four bytes or nothing, SWC one of a byte. -/
theorem instrumentAndPaletteWrites : Obligations.InstrumentAndPaletteWrites := by
  intro s r a b
  rw [exec_instr, exec_swc]
  refine ⟨fun hlt => ?_, fun hge => ?_, ?_⟩
  · rw [setInstrument_of_lt hlt, ← loByte_eq, ← hiByte_eq, ← loByte_eq, ← hiByte_eq]
    have honly : OnlyRam s (s.ramLoad (0xF7C0 + 4 * (s.reg r).toNat)
      [loByte (s.reg a), hiByte (s.reg a), loByte (s.reg b), hiByte (s.reg b)]) := ⟨rfl, rfl⟩
    exact ⟨_, rfl, advance_advanced 2 rfl, ⟨rfl, rfl, rfl⟩,
      honly.ramKeptBut (fun x hx => ramRead_ramLoad_out s hx) 2,
      ramRead_ramLoad_add s _ (j := 0) (by simp), ramRead_ramLoad_add s _ (j := 1) (by simp),
      ramRead_ramLoad_add s _ (j := 2) (by simp), ramRead_ramLoad_add s _ (j := 3) (by simp)⟩
  · rw [setInstrument_of_ge hge]
    exact ⟨_, rfl, advance_kept s 2⟩
  · have honly : OnlyRam s (s.swapColor (paletteField (s.reg a)) (loByte (s.reg b))) := ⟨rfl, rfl⟩
    refine ⟨_, rfl, advance_advanced 2 rfl, ⟨rfl, rfl, rfl⟩, honly.ramKeptBut (fun x hx => ?_) 2, ?_⟩
    · rw [ramRead_swapColor, if_neg hx]
    · rw [ramRead_advance, ramRead_swapColor, if_pos rfl, loByte_eq]

/-! ## DRAW (R264, R423) -/

theorem exec_draw (r y t a : Reg) (s : State) :
    exec (.draw r y t a) s = .next ((s.drawSprite (s.reg r) (s.reg y) (loByte (s.reg t)) (loByte (s.reg a))
      (hiByte (s.reg a))).advance 3) := rfl

@[simp] theorem entryByte_advance (s : State) (n i k : Nat) : entryByte (s.advance n) i k = entryByte s i k := rfl

/-- The entry at the cursor holds the sprite's seven bytes, and every other entry its old ones (R45). -/
theorem entryByte_drawSprite (s : State) (x y : Word) (tile attr kind : Byte) (i : Nat) {k : Nat} (hk : k < 7) :
    entryByte (s.drawSprite x y tile attr kind) i k =
      if i = s.ppu.oamCursor then [loByte x, hiByte x, loByte y, hiByte y, tile, attr, kind][k]'hk
      else entryByte s i k := by
  have hload : entryByte (s.drawSprite x y tile attr kind) i k =
      Memory.read .oam (s.ppu.oam.load .oam (7 * s.ppu.oamCursor)
        [loByte x, hiByte x, loByte y, hiByte y, tile, attr, kind]) (7 * i + k) := rfl
  rw [hload, Memory.read_load]
  by_cases hi : i = s.ppu.oamCursor
  · subst hi
    rw [if_pos ⟨by omega, by simp only [List.length_cons, List.length_nil]; omega⟩, if_pos rfl,
      Nat.add_sub_cancel_left, List.getD_eq_getElem _ _ hk]
  · rw [if_neg (by simp only [List.length_cons, List.length_nil]; omega), if_neg hi]
    rfl

theorem loByte_add_hiByte (w : Word) : (loByte w).toNat + 256 * (hiByte w).toNat = w.toNat := by
  rw [loByte_toNat, hiByte_toNat, Nat.mod_add_div]

/-- The cursor moves to the next entry, from the last to the first. -/
theorem next_oamCursor {c : Nat} (h : c < 512) : (c + 1) % 512 = if c = 511 then 0 else c + 1 := by
  split <;> omega

/-- Settles O42: the bytes are those of `entryByte_drawSprite`, the coordinates put together again. -/
theorem drawWritesAnEntry : Obligations.DrawWritesAnEntry := by
  intro s r y t a hcursor
  have hentry := entryByte_drawSprite s (s.reg r) (s.reg y) (loByte (s.reg t)) (loByte (s.reg a)) (hiByte (s.reg a))
  have hbyte := fun {k : Nat} (hk : k < 7) => (hentry s.ppu.oamCursor hk).trans (if_pos rfl)
  refine ⟨_, exec_draw r y t a s, advance_advanced 3 rfl, .of_bus rfl, rfl, rfl,
    fun i k _ hk hne => (hentry i hk).trans (if_neg hne), ?_, ?_, ?_, ?_, ?_,
    fun i => Memory.read_write .tag _ _ i _, next_oamCursor hcursor, rfl⟩
  · rw [entryX, entryByte_advance, entryByte_advance, hbyte (k := 0) (by decide), hbyte (k := 1) (by decide)]
    exact loByte_add_hiByte (s.reg r)
  · rw [entryY, entryByte_advance, entryByte_advance, hbyte (k := 2) (by decide), hbyte (k := 3) (by decide)]
    exact loByte_add_hiByte (s.reg y)
  · rw [entryByte_advance, hbyte (k := 4) (by decide)]
    exact loByte_toNat (s.reg t)
  · rw [entryByte_advance, hbyte (k := 5) (by decide)]
    exact loByte_toNat (s.reg a)
  · rw [entryByte_advance, hbyte (k := 6) (by decide)]
    exact hiByte_toNat (s.reg a)

/-! ## CLS and ALT CLS (R265, R266, R420) -/

theorem exec_clears (alt : Bool) (s : State) :
    exec (if alt then .altCls else .cls) s = .next ((s.clearScreen alt).advance (if alt then 2 else 1)) := by
  cases alt
  · rfl
  · rfl

/-- Settles O43, by the form of the instruction. -/
theorem clearScreens : Obligations.ClearScreens := by
  intro s alt
  refine ⟨_, exec_clears alt s, ?_⟩
  cases alt with
  | false =>
    exact ⟨advance_advanced 1 rfl, .of_bus rfl, rfl, rfl, Memory.read_nil .text, rfl, ⟨rfl, rfl, rfl⟩, rfl⟩
  | true =>
    exact ⟨advance_advanced 2 rfl, .of_bus rfl, rfl, rfl, Memory.read_nil .text, rfl, oamReset_of rfl rfl rfl, rfl⟩

/-! ## TEXT, SETCRS, ALT SETCRS and ATTR (R273, R274, R277, R278, R421, R422) -/

theorem exec_text (a : Reg) (s : State) : exec (.text a) s = .next ((s.putChar (loByte (s.reg a))).advance 2) := rfl

theorem exec_setcrs (a b : Reg) (s : State) :
    exec (.setcrs a b) s = .next ((s.setCursor (s.reg a) (s.reg b)).advance 2) := rfl

theorem exec_altSetcrs (a b : Reg) (s : State) :
    exec (.altSetcrs a b) s = .next ((s.moveCursor (s.reg a).toInt (s.reg b).toInt).advance 3) := rfl

theorem exec_attr (a : Reg) (s : State) :
    exec (.attr a) s = .next ((s.setFontColor (colourField (s.reg a))).advance 2) := rfl

theorem colourField_toNat (w : Word) : (colourField w).toNat = w.toNat % 32 := by
  simp [colourField]

/-- The character lands in the cursor's cell, counted row by row (R47). -/
theorem textGrid_putChar (s : State) (ch : Byte) (i : Nat) :
    (s.putChar ch).ppu.textGrid.read .text i =
      if (i : Int) = 32 * (s.ppu.cursorY.val : Int) + (s.ppu.cursorX.val : Int) then ch
      else s.ppu.textGrid.read .text i := by
  have hcell : i = textIndex s.ppu.cursorY.val s.ppu.cursorX.val ↔
      (i : Int) = 32 * (s.ppu.cursorY.val : Int) + (s.ppu.cursorX.val : Int) := by
    rw [textIndex, cfg_textCols]
    omega
  exact (Memory.read_write .text _ _ i ch).trans (if_congr hcell rfl rfl)

/-- A move of one cell along the row goes on in the next row, and from the last cell to the first. -/
theorem movedCursor_one_place (x y : Fin 32) :
    32 * ((movedCursor x y 1 0).2.val : Int) + ((movedCursor x y 1 0).1.val : Int) =
      (32 * (y.val : Int) + x.val + 1).emod 1024 := by
  rw [movedCursor_place, mul_zero, add_zero]

/-- Settles O44: the two moves of the cursor are `movedCursor_place`. -/
theorem textAndCursor : Obligations.TextAndCursor := by
  rintro s a b place rfl
  refine ⟨⟨_, exec_text a s, advance_advanced 2 rfl, .of_bus rfl, rfl, rfl, fun i => ?_,
      movedCursor_one_place s.ppu.cursorX s.ppu.cursorY, rfl⟩,
    ⟨_, exec_setcrs a b s, advance_advanced 2 rfl, .of_bus rfl, rfl, rfl, rfl, rfl, rfl⟩,
    ⟨_, exec_altSetcrs a b s, advance_advanced 3 rfl, .of_bus rfl, rfl, rfl,
      movedCursor_place s.ppu.cursorX s.ppu.cursorY _ _, rfl⟩,
    ⟨_, exec_attr a s, advance_advanced 2 rfl, .of_bus rfl, rfl, rfl, colourField_toNat _, rfl⟩⟩
  rw [← loByte_eq]
  exact textGrid_putChar s _ i

/-! ## COL (R276, R427) -/

theorem exec_col (a b : Reg) (s : State) :
    exec (.col a b) s = writeReg a (checkCollision s.ppu.oam (s.reg b).toNat) 2 s := rfl

/-- The number of an entry fits a word. -/
theorem toNat_ofNat_entry {t : Nat} (h : t < 512) : (BitVec.ofNat 16 t).toNat = t := by
  rw [BitVec.toNat_ofNat]
  omega

/-- What COL gives: the lowest entry that collides, or the word that says there is none. -/
theorem checkCollision_spec (s : State) (i : Nat) :
    (checkCollision s.ppu.oam i = 0xFFFF ∧ ∀ t, ¬ Collision s i t) ∨
      (Collision s i (checkCollision s.ppu.oam i).toNat ∧
        ∀ t, t < (checkCollision s.ppu.oam i).toNat → ¬ Collision s i t) := by
  unfold checkCollision
  split
  · next hout => exact .inl ⟨rfl, fun t h => Nat.not_lt.mpr hout h.inRange.1⟩
  · next hin =>
    have hi : i < 512 := Nat.not_le.mp hin
    split
    · next hempty => exact .inl ⟨rfl, fun t h => h.populated.1 ((spriteAt_eq_none s i).mp hempty)⟩
    · next p hp =>
      split
      · next hnone =>
        refine .inl ⟨rfl, fun t h => ?_⟩
        have ht := h.inRange.2
        exact List.find?_eq_none.mp hnone t (List.mem_range.mpr ht) ((collides_iff hi hp t ht).mpr h)
      · next t hfound =>
        obtain ⟨hcollides, hmem, hbefore⟩ := List.find?_range_eq_some.mp hfound
        have ht : t < 512 := List.mem_range.mp hmem
        rw [toNat_ofNat_entry ht]
        refine .inr ⟨(collides_iff hi hp t ht).mp hcollides, fun u hu h => ?_⟩
        have hu' := (collides_iff hi hp u (hu.trans ht)).mpr h
        simpa [hu'] using hbefore u hu

/-- Settles O45: COL writes the result of the check to its register and nothing else. -/
theorem collisionCheck : Obligations.CollisionCheck := by
  intro s a b
  obtain ⟨u, hu, hcomputed⟩ := writeReg_computed 2 a (checkCollision s.ppu.oam (s.reg b).toNat) s
  exact ⟨u, _, (exec_col a b s).trans hu, hcomputed, checkCollision_spec s (s.reg b).toNat⟩

/-! ## CAM and CAMMV (R279, R280, R426) -/

theorem exec_cam (a b : Reg) (s : State) :
    exec (.cam a b) s = .next ((s.setCamera (s.reg a) (s.reg b)).advance 2) := rfl

theorem exec_cammv (a b : Reg) (s : State) :
    exec (.cammv a b) s = .next ((s.moveCamera (s.reg a).toInt (s.reg b).toInt).advance 2) := rfl

/-- A camera coordinate kept to its range (R49). -/
def clampCam (x : Int) : Nat := if x < 0 then 0 else if 65280 < x then 65280 else x.toNat

/-- A coordinate that is set is not negative, so only the upper bound can cut it. -/
theorem min_camMax (n : Nat) : min n cfg.camMax = clampCam n := by
  rw [clampCam, cfg_camMax]
  split_ifs <;> omega

/-- A coordinate that is moved saturates at both ends. -/
theorem movedCam_eq (cam : Nat) (d : Int) : movedCam cam d = clampCam (cam + d) := by
  rw [movedCam, clampCam, cfg_camMax]
  split_ifs <;> omega

theorem setCamera_ppu (s : State) (cx cy : Word) :
    (s.setCamera cx cy).ppu = { s.ppu with camX := clampCam cx.toNat, camY := clampCam cy.toNat } := by
  rw [← min_camMax, ← min_camMax]
  rfl

theorem moveCamera_ppu (s : State) (dx dy : Int) :
    (s.moveCamera dx dy).ppu =
      { s.ppu with camX := clampCam (s.ppu.camX + dx), camY := clampCam (s.ppu.camY + dy) } := by
  rw [← movedCam_eq, ← movedCam_eq]
  rfl

/-- Settles O46: the clamp of the statement is `clampCam`, which both triggers apply to either coordinate. -/
theorem cameraMoves : Obligations.CameraMoves := by
  intro s a b clamped hclamped
  obtain rfl : clamped = clampCam := hclamped
  exact ⟨⟨_, exec_cam a b s, advance_advanced 2 rfl, .of_bus rfl, rfl, rfl, setCamera_ppu s _ _⟩,
    ⟨_, exec_cammv a b s, advance_advanced 2 rfl, .of_bus rfl, rfl, rfl, moveCamera_ppu s _ _⟩⟩

/-! ## SETOAM (R281, R423, R454, R461) -/

theorem exec_setoam (a : Reg) (s : State) : exec (.setoam a) s = (setOamCursor (s.reg a) s).finish 2 := rfl

theorem setOamCursor_of_lt {v : Word} (h : v.toNat < 512) (s : State) :
    setOamCursor v s = .goOn { s with ppu := { s.ppu with oamCursor := v.toNat } } := if_neg (Nat.not_le.mpr h)

theorem setOamCursor_of_ge {v : Word} (h : 512 ≤ v.toNat) (s : State) :
    setOamCursor v s = takeFault .oamCursor s := if_pos h

/-- Settles O47, by the value and, past the table, by `power_on`. (`setOamCursor` is the model's trigger.) -/
theorem setOamCursor_cases : Obligations.SetOamCursor := by
  intro s a
  rw [exec_setoam]
  refine ⟨fun hlt => ?_, fun hge hpower => ?_, fun hge hpower => ?_⟩
  · rw [setOamCursor_of_lt hlt]
    exact ⟨_, rfl, advance_advanced 2 rfl, .of_bus rfl, rfl, rfl, rfl⟩
  · rw [setOamCursor_of_ge hge, takeFault_taken hpower]
    exact ⟨_, rfl, faultHandler_taken .oamCursor s⟩
  · rw [setOamCursor_of_ge hge, takeFault_suppressed hpower]
    exact ⟨_, rfl, advance_kept s 2⟩

end Sys2Proof.Machine
end

section
/-! RND, INPUT, BANK, OUT_R and OUT_S (R262, R272, R282 to R284): what comes of the environment, the bank selection
and the debug sink. -/

namespace Sys2Proof.Machine

/-! ## RND (R262) -/

theorem exec_rnd (r : Reg) (s : State) :
    exec (.rnd r) s = .next ((s.draw16.2.setReg r (Config.draw16 s.env.drawIndex)).advance 1) := rfl

/-- Settles O37: the draw is written on the state that has used it up. -/
theorem randomDraw : Obligations.RandomDraw := fun s r =>
  ⟨_, exec_rnd r s, State.reg_setReg_same s.draw16.2 r _, fun _ hq => State.reg_setReg_ne s.draw16.2 _ hq, rfl, rfl,
    ⟨rfl, rfl, rfl, rfl⟩, .of_bus rfl, rfl, rfl, rfl⟩

/-! ## INPUT (R272, R428) -/

theorem exec_input (a b : Reg) (s : State) : exec (.input a b) s = writeReg a (readInput s (s.reg b)) 2 s := rfl

theorem readInput_toNat {s : State} {v : Word} {i : Fin cfg.nControllers} (h : v.toNat = i.val) :
    (readInput s v).toNat = (s.env.inputLatch.get i).toNat := by
  obtain ⟨i, hi⟩ := i
  subst h
  rw [readInput, dif_pos hi, BitVec.toNat_setWidth_of_le (by decide)]

theorem readInput_of_ge {v : Word} (h : 2 ≤ v.toNat) (s : State) : readInput s v = 0 :=
  dif_neg (Nat.not_lt.mpr h)

/-! ## BANK (R82, R83, R282, R429) -/

theorem exec_bank (a : Reg) (s : State) : exec (.bank a) s = .next ((s.selectBank (s.reg a)).advance 2) := rfl

theorem selectBank_of_lt {s : State} {v : Word} (h : v.toNat < s.bus.banks.length) :
    s.selectBank v = { s with bus := { s.bus with selectedBank := v.toNat } } := if_pos h

theorem selectBank_of_ge {s : State} {v : Word} (h : s.bus.banks.length ≤ v.toNat) : s.selectBank v = s :=
  if_neg (Nat.not_lt.mpr h)

/-- Where an address is not banked a read does not see the selection. -/
theorem busRead8_of_not_banked {s t : State} {x : Word} {n : Nat} (ht : t.bus = { s.bus with selectedBank := n })
    (h : s.banked x = false) : busRead8 t x = busRead8 s x := by
  have ht' : t.banked x = false := by rw [State.banked, ht]; exact h
  unfold busRead8 State.ramRead
  rw [ht', h, ht]
  rfl

/-- Where it is banked a read is the selected bank's. -/
theorem busRead8_of_banked {s : State} {x : Word} (h : s.banked x = true) :
    busRead8 s x = s.bank.read .bank (x.toNat - 0x8000) := by
  obtain ⟨-, -, hmode, -⟩ := banked_window h
  rw [busRead8_cartridge hmode, if_pos h]

/-- Settles O48: a selection is seen by the reads of banked addresses alone. -/
theorem inputAndBank : Obligations.InputAndBank := by
  intro s a b
  refine ⟨?_, fun hlt => ?_, fun hge => ?_⟩
  · obtain ⟨t, ht, hcomputed⟩ := writeReg_computed 2 a (readInput s (s.reg b)) s
    exact ⟨t, _, (exec_input a b s).trans ht, hcomputed, fun _ => readInput_toNat, fun hge => readInput_of_ge hge s⟩
  · rw [exec_bank, selectBank_of_lt hlt]
    refine ⟨_, rfl, advance_advanced 2 rfl, ⟨rfl, rfl, rfl⟩, rfl, fun x hx => busRead8_of_not_banked rfl ?_,
      fun hboot x => busRead8_of_not_banked rfl ?_, fun hcart x hlo hhi => busRead8_of_banked ?_⟩
    · rw [← Bool.not_eq_true, banked_iff]
      exact fun ⟨_, _, hwindow⟩ => hx hwindow
    · rw [← Bool.not_eq_true, banked_iff, hboot]
      exact fun ⟨hmode, _⟩ => absurd hmode (by decide)
    · exact (banked_iff _ x).mpr ⟨hcart, List.ne_nil_of_length_pos (Nat.zero_lt_of_lt hlt), hlo, hhi⟩
  · rw [exec_bank, selectBank_of_ge hge]
    exact ⟨_, rfl, advance_kept s 2⟩

/-! ## OUT_R and OUT_S (R283, R284, R440) -/

theorem exec_outR (a : Reg) (s : State) :
    exec (.outR a) s = .next ((s.logEvent (.reg a (s.reg a))).advance 2) := rfl

theorem exec_outS (a : Reg) (s : State) :
    exec (.outS a) s = .next ((s.logEvent (.str (stringAt s (s.reg a) 256))).advance 2) := rfl

/-- Settles O49: each is one debug event, OUT_S's of the bytes of `stringAt_spec`. -/
theorem debugOutput : Obligations.DebugOutput := fun s a =>
  ⟨⟨_, exec_outR a s, advance_advanced 2 rfl, .of_bus rfl, rfl, rfl, rfl⟩,
    ⟨_, _, exec_outS a s, advance_advanced 2 rfl, .of_bus rfl, rfl, rfl, rfl, stringAt_spec s 256 (s.reg a)⟩⟩

end Sys2Proof.Machine
end

section
/-! The picture, the pixel buffer with the exported frame, is written by the VBlank pass alone and read by
nothing (R300, R327): every meaning run on a state with another picture ends in the same state with that other
picture, until a pass composes a new one. -/

namespace Sys2Proof.Machine

@[simp] theorem withPicture_cpu (s : State) (pb fr : Memory) : (s.withPicture pb fr).cpu = s.cpu := rfl
@[simp] theorem withPicture_bus (s : State) (pb fr : Memory) : (s.withPicture pb fr).bus = s.bus := rfl
@[simp] theorem withPicture_audio (s : State) (pb fr : Memory) : (s.withPicture pb fr).audio = s.audio := rfl
@[simp] theorem withPicture_env (s : State) (pb fr : Memory) : (s.withPicture pb fr).env = s.env := rfl

/-- A state is itself with its own picture. -/
theorem withPicture_self (s : State) : s.withPicture s.ppu.pixbuf s.ppu.frame = s := rfl

theorem ramWrite_withPicture (s : State) (pb fr : Memory) (a : Nat) (b : Byte) :
    (s.withPicture pb fr).ramWrite a b = (s.ramWrite a b).withPicture pb fr := rfl

theorem ramLoad_withPicture (s : State) (pb fr : Memory) (base : Nat) (bytes : List Byte) :
    (s.withPicture pb fr).ramLoad base bytes = (s.ramLoad base bytes).withPicture pb fr := rfl

/-! ## Triggers do not look at the picture -/

theorem playNote_withPicture (s : State) (pb fr : Memory) (ch : Nat) (note : Byte) (ins : BitVec 4)
    (override : Bool) :
    (s.withPicture pb fr).playNote ch note ins override =
      (s.playNote ch note ins override).withPicture pb fr := by
  unfold State.playNote
  split
  · unfold State.playChannel
    rw [withPicture_audio]
    split <;> rfl
  · rfl

theorem stopChannel_withPicture (s : State) (pb fr : Memory) (ch : Nat) :
    (s.withPicture pb fr).stopChannel ch = (s.stopChannel ch).withPicture pb fr := by
  unfold State.stopChannel
  split <;> rfl

theorem stopAll_withPicture (s : State) (pb fr : Memory) :
    (s.withPicture pb fr).stopAll = s.stopAll.withPicture pb fr :=
  List.foldl_hom (fun s : State => s.withPicture pb fr) fun _ _ => rfl

theorem seqEnd_withPicture (s : State) (pb fr : Memory) :
    (s.withPicture pb fr).seqEnd = s.seqEnd.withPicture pb fr :=
  stopAll_withPicture { s with audio := { s.audio with seqEnabled := false } } pb fr

/-- MUTE stops the sequence as END does (R394, R425), and its ALT form silences the channels too. -/
theorem muteAll_eq_seqEnd (s : State) (immediate : Bool) :
    s.muteAll immediate =
      if immediate then
        { s.seqEnd with audio := { s.seqEnd.audio with channels := s.seqEnd.audio.channels.map fun ch =>
          { ch with stage := .idle, volume := 0, retrig := false } } }
      else s.seqEnd := rfl

theorem muteAll_withPicture (s : State) (pb fr : Memory) (immediate : Bool) :
    (s.withPicture pb fr).muteAll immediate = (s.muteAll immediate).withPicture pb fr := by
  rw [muteAll_eq_seqEnd, muteAll_eq_seqEnd, seqEnd_withPicture]
  cases immediate <;> rfl

theorem setInstrument_withPicture (s : State) (pb fr : Memory) (k ad sr : Word) :
    (s.withPicture pb fr).setInstrument k ad sr = (s.setInstrument k ad sr).withPicture pb fr := by
  unfold State.setInstrument
  split <;> rfl

theorem selectBank_withPicture (s : State) (pb fr : Memory) (v : Word) :
    (s.withPicture pb fr).selectBank v = (s.selectBank v).withPicture pb fr := by
  unfold State.selectBank
  rw [withPicture_bus]
  split <;> rfl

theorem clearScreen_withPicture (s : State) (pb fr : Memory) (alt : Bool) :
    (s.withPicture pb fr).clearScreen alt = (s.clearScreen alt).withPicture pb fr := by
  cases alt <;> rfl

theorem busRead8_withPicture (s : State) (pb fr : Memory) (a : Word) :
    busRead8 (s.withPicture pb fr) a = busRead8 s a := rfl

theorem stringAt_withPicture (s : State) (pb fr : Memory) (p : Word) (n : Nat) :
    stringAt (s.withPicture pb fr) p n = stringAt s p n := by
  induction n generalizing p with
  | zero => rfl
  | succ n ih => simp only [stringAt, busRead8_withPicture, ih]

/-! ## Parts of an instruction that can end it -/

/-- The state a part of an instruction leaves, with another picture. -/
def Flow.withPicture (fl : Flow) (pb fr : Memory) : Flow :=
  match fl with
  | .goOn s => .goOn (s.withPicture pb fr)
  | .ended s => .ended (s.withPicture pb fr)

theorem takeFault_withPicture (kind : FaultKind) (s : State) (pb fr : Memory) :
    takeFault kind (s.withPicture pb fr) = (takeFault kind s).withPicture pb fr := by
  unfold takeFault
  rw [withPicture_bus]
  split <;> rfl

theorem place_withPicture (s : State) (pb fr : Memory) (a : Word) (b : Byte) :
    (s.withPicture pb fr).place a b = (s.place a b).withPicture pb fr := by
  have hbanked : (s.withPicture pb fr).banked a = s.banked a := rfl
  unfold State.place
  rw [hbanked]
  split <;> rfl

theorem busWrite8_withPicture (a : Word) (b : Byte) (s : State) (pb fr : Memory) :
    busWrite8 a b (s.withPicture pb fr) = (busWrite8 a b s).withPicture pb fr := by
  have hprotects : (s.withPicture pb fr).protects a = s.protects a := rfl
  have hhandsOff : (s.withPicture pb fr).handsOff a b = s.handsOff a b := rfl
  unfold busWrite8
  rw [hprotects, hhandsOff, place_withPicture]
  split
  · exact takeFault_withPicture .reservedWrite s pb fr
  · split <;> rfl

theorem memWrite16_withPicture (a v : Word) (s : State) (pb fr : Memory) :
    memWrite16 a v (s.withPicture pb fr) = (memWrite16 a v s).withPicture pb fr := by
  unfold memWrite16
  rw [busWrite8_withPicture]
  cases busWrite8 a (loByte v) s with
  | goOn t => exact busWrite8_withPicture (a + 1) (hiByte v) t pb fr
  | ended t => rfl

theorem setOamCursor_withPicture (v : Word) (s : State) (pb fr : Memory) :
    setOamCursor v (s.withPicture pb fr) = (setOamCursor v s).withPicture pb fr := by
  unfold setOamCursor
  split
  · exact takeFault_withPicture .oamCursor s pb fr
  · rfl

/-! ## The ends of an instruction -/

/-- A meaning that neither reads nor writes the picture: run on another picture it ends alike, with that other
picture still there. -/
def PictureUnread (m : State → Host.Outcome State Fault Refusal) : Prop :=
  ∀ s t pb fr, m s = .next t → m (s.withPicture pb fr) = .next (t.withPicture pb fr)

theorem next_pictureUnread {u : State → State}
    (hu : ∀ s pb fr, u (s.withPicture pb fr) = (u s).withPicture pb fr) :
    PictureUnread fun s => .next (u s) := by
  intro s t pb fr h
  cases h
  exact congrArg Host.Outcome.next (hu s pb fr)

theorem done_pictureUnread {u : State → State} (len : Nat)
    (hu : ∀ s pb fr, u (s.withPicture pb fr) = (u s).withPicture pb fr) :
    PictureUnread fun s => done len (u s) :=
  next_pictureUnread fun s pb fr => congrArg (State.advance · len) (hu s pb fr)

theorem finish_withPicture {fl : Flow} {len : Nat} {t : State} (pb fr : Memory) (h : fl.finish len = .next t) :
    (fl.withPicture pb fr).finish len = .next (t.withPicture pb fr) := by
  cases fl <;> cases h <;> rfl

theorem finish_pictureUnread {m : State → Flow} (len : Nat)
    (hm : ∀ s pb fr, m (s.withPicture pb fr) = (m s).withPicture pb fr) :
    PictureUnread fun s => (m s).finish len := fun s _ pb fr h =>
  (congrArg (Flow.finish len) (hm s pb fr)).trans (finish_withPicture pb fr h)

theorem writeBack_pictureUnread {res : State → Word × Flags} (r : Reg)
    (hres : ∀ s pb fr, res (s.withPicture pb fr) = res s) : PictureUnread fun s => writeBack r (res s) s :=
  finish_pictureUnread 4 fun s pb fr => by
    rw [hres]
    exact memWrite16_withPicture (s.reg r) (res s).1 (s.setFlags (res s).2) pb fr

theorem jumpIf_pictureUnread {taken : State → Bool} (a : Word)
    (ht : ∀ s pb fr, taken (s.withPicture pb fr) = taken s) : PictureUnread fun s => jumpIf (taken s) a s := by
  simp only [jumpIf_eq]
  exact next_pictureUnread fun s pb fr => by rw [ht]; rfl

theorem ret_pictureUnread : PictureUnread (exec .ret) := by
  intro s t pb fr h
  cases hstack : s.cpu.stack with
  | nil =>
    rw [exec_ret_of_nil hstack] at h
    rw [exec_ret_of_nil (s := s.withPicture pb fr) hstack, takeFault_withPicture]
    exact finish_withPicture pb fr h
  | cons top rest =>
    rw [exec_ret_of_cons hstack] at h
    rw [exec_ret_of_cons (s := s.withPicture pb fr) hstack]
    cases h
    rfl

/-- No instruction reads or writes the picture (R300). -/
theorem exec_pictureUnread (i : Instr) : PictureUnread (exec i) := by
  cases i with
  | halt | vblnk => exact done_pictureUnread 1 fun _ _ _ => rfl
  | ret => exact ret_pictureUnread
  | call a | jmp a => exact next_pictureUnread fun _ _ _ => rfl
  | jeq a | jne a | jgt a | jlt a | jge a | jle a => exact jumpIf_pictureUnread a fun _ _ _ => rfl
  | add _ _ | sub _ _ | div _ _ | mod _ _ | and _ _ | or _ _ | xor _ _ | shl _ _ | shr _ _ =>
    exact done_pictureUnread 2 fun _ _ _ => rfl
  | inc _ | dec _ | neg _ | not _ => exact done_pictureUnread 2 fun _ _ _ => rfl
  | iadd _ _ | isub _ _ | icmp _ _ => exact done_pictureUnread 3 fun _ _ _ => rfl
  | adc _ _ => exact done_pictureUnread (u := id) 2 fun _ _ _ => rfl
  | cmp _ _ => exact done_pictureUnread 2 fun _ _ _ => rfl
  | altIcmp _ _ => exact done_pictureUnread 4 fun _ _ _ => rfl
  | ldi _ _ | ldm _ _ => exact done_pictureUnread 3 fun _ _ _ => rfl
  | ldp _ _ | input _ _ | col _ _ => exact done_pictureUnread 2 fun _ _ _ => rfl
  | altLdm _ _ => exact done_pictureUnread 4 fun _ _ _ => rfl
  | altLdp _ _ => exact done_pictureUnread 3 fun _ _ _ => rfl
  | rnd _ => exact done_pictureUnread 1 fun _ _ _ => rfl
  | stm r a => exact finish_pictureUnread 3 fun s => memWrite16_withPicture a (s.reg r) s
  | altStm r a => exact finish_pictureUnread 4 fun s => busWrite8_withPicture a (loByte (s.reg r)) s
  | altIadd r _ | altIsub r _ => exact writeBack_pictureUnread r fun _ _ _ => rfl
  | cls => exact done_pictureUnread 1 fun s pb fr => clearScreen_withPicture s pb fr false
  | altCls => exact done_pictureUnread 2 fun s pb fr => clearScreen_withPicture s pb fr true
  | song _ => exact done_pictureUnread 1 fun _ _ _ => rfl
  | text _ | attr _ | setcrs _ _ | cam _ _ | cammv _ _ | swc _ _ | outR _ =>
    exact done_pictureUnread 2 fun _ _ _ => rfl
  | draw _ _ _ _ | altSetcrs _ _ => exact done_pictureUnread 3 fun _ _ _ => rfl
  | outS a => exact done_pictureUnread 2 fun s pb fr => by rw [stringAt_withPicture]; rfl
  | play _ _ _ => exact done_pictureUnread 3 fun s pb fr => playNote_withPicture s pb fr _ _ _ _
  | stop _ => exact done_pictureUnread 2 fun s pb fr => stopChannel_withPicture s pb fr _
  | mute => exact done_pictureUnread 1 fun s pb fr => muteAll_withPicture s pb fr false
  | altMute => exact done_pictureUnread 2 fun s pb fr => muteAll_withPicture s pb fr true
  | instr _ _ _ => exact done_pictureUnread 2 fun s pb fr => setInstrument_withPicture s pb fr _ _ _
  | bank _ => exact done_pictureUnread 2 fun s pb fr => selectBank_withPicture s pb fr _
  | setoam a => exact finish_pictureUnread 2 fun s => setOamCursor_withPicture (s.reg a) s

/-! ## The audio agent -/

theorem channelSample_withPicture (p : ApuParams) (s : State) (pb fr : Memory) (c : Fin 8) :
    channelSample p (s.withPicture pb fr) c =
      ((channelSample p s c).1, (channelSample p s c).2.withPicture pb fr) := by
  have hshaped : shapedChannel p (s.withPicture pb fr) c = shapedChannel p s c := rfl
  have hfreq : channelFreq (s.withPicture pb fr) c = channelFreq s c := rfl
  unfold channelSample
  dsimp only
  rw [hshaped, hfreq, withPicture_env]
  split
  · rfl
  · split
    · rfl
    · split <;> rfl

theorem mixChannels_withPicture (p : ApuParams) (s : State) (pb fr : Memory) :
    mixChannels p (s.withPicture pb fr) = ((mixChannels p s).1, (mixChannels p s).2.withPicture pb fr) :=
  List.foldl_hom (l := List.finRange 8) (init := ((0 : Rat), s))
    (fun acc : Rat × State => (acc.1, acc.2.withPicture pb fr)) fun acc c => by
      rw [channelSample_withPicture]

theorem seqPlay_withPicture (s : State) (pb fr : Memory) (r : Record) :
    (s.withPicture pb fr).seqPlay r = (s.seqPlay r).withPicture pb fr := by
  unfold State.seqPlay
  split
  · split
    · exact stopChannel_withPicture s pb fr _
    · exact playNote_withPicture s pb fr _ _ _ _
  · rfl

theorem seqLoop_withPicture (fuel : Nat) (s : State) (pb fr : Memory) :
    seqLoop fuel (s.withPicture pb fr) = (seqLoop fuel s).map (·.withPicture pb fr) := by
  induction fuel generalizing s with
  | zero => rfl
  | succ n ih =>
    have hrecord : recordAt (s.withPicture pb fr) s.audio.seqCursor = recordAt s s.audio.seqCursor := rfl
    have hcursor (a : Word) : (s.withPicture pb fr).setSeqCursor a = (s.setSeqCursor a).withPicture pb fr := rfl
    simp only [seqLoop, withPicture_audio, hrecord, hcursor, seqEnd_withPicture, seqPlay_withPicture, ih]
    split
    · rfl
    · split
      · rfl
      · split <;> rfl

theorem sequencerTick_withPicture (s : State) (pb fr : Memory) :
    sequencerTick (s.withPicture pb fr) = (sequencerTick s).map (·.withPicture pb fr) := by
  unfold sequencerTick
  rw [withPicture_audio]
  split
  · rfl
  · split
    · rfl
    · exact seqLoop_withPicture _ s pb fr

theorem clockSequencer_withPicture (p : ApuParams) (s : State) (pb fr : Memory) :
    clockSequencer p (s.withPicture pb fr) = (clockSequencer p s).map (·.withPicture pb fr) := by
  unfold clockSequencer
  rw [withPicture_audio]
  dsimp only
  split
  · exact sequencerTick_withPicture { s with audio := { s.audio with seqSamples := _ } } pb fr
  · rfl

theorem sampleStep_withPicture (p : ApuParams) (s : State) (pb fr : Memory) :
    sampleStep p (s.withPicture pb fr) = (sampleStep p s).map (·.withPicture pb fr) := by
  unfold sampleStep
  rw [clockSequencer_withPicture]
  cases clockSequencer p s with
  | error e => rfl
  | ok u =>
    simp only [Except.map, mixChannels_withPicture]
    rfl

theorem generateSamples_withPicture (p : ApuParams) (n : Nat) (s : State) (pb fr : Memory) :
    generateSamples p n (s.withPicture pb fr) = (generateSamples p n s).map (·.withPicture pb fr) := by
  induction n generalizing s with
  | zero => rfl
  | succ n ih =>
    unfold generateSamples
    rw [sampleStep_withPicture]
    cases sampleStep p s with
    | error e => rfl
    | ok u => exact ih u

/-! ## The host -/

theorem loadBios_withPicture (s : State) (pb fr : Memory) (img : List Byte) :
    (s.withPicture pb fr).loadBios img = (s.loadBios img).withPicture pb fr := by
  unfold State.loadBios
  dsimp only
  split <;> rfl

theorem loadCartridge_withPicture (s : State) (pb fr : Memory) (img : List Byte) :
    (s.withPicture pb fr).loadCartridge img = (s.loadCartridge img).withPicture pb fr := by
  unfold State.loadCartridge
  split
  · dsimp only
    simp only [← ramWrite_withPicture, ← ramLoad_withPicture]
    rfl
  · rfl

theorem saveLoad_withPicture (s : State) (pb fr : Memory) (buf : List Byte) :
    (s.withPicture pb fr).saveLoad buf = (s.saveLoad buf).withPicture pb fr := by
  unfold State.saveLoad
  split <;> rfl

theorem audioBatch_pictureUnread (n : Nat) :
    PictureUnread fun s => ofExcept (generateSamples Config.apu n s) := by
  intro s t pb fr h
  dsimp only at h ⊢
  rw [generateSamples_withPicture]
  revert h
  cases generateSamples Config.apu n s <;> intro h <;> cases h
  rfl

/-- Every host operation but `PowerOn()`, which clears the picture (R412), leaves it. -/
theorem hostStep_pictureUnread (op : HostOp) (hop : op ≠ .powerOn) : PictureUnread (hostStep op) := by
  cases op with
  | powerOn => exact absurd rfl hop
  | loadBios img => exact next_pictureUnread fun s pb fr => loadBios_withPicture s pb fr img
  | loadCartridge img => exact next_pictureUnread fun s pb fr => loadCartridge_withPicture s pb fr img
  | loadBanks _ | reset | halt | saveView => exact next_pictureUnread fun _ _ _ => rfl
  | saveLoad buf => exact next_pictureUnread fun s pb fr => saveLoad_withPicture s pb fr buf
  | generateSamples n => exact audioBatch_pictureUnread n

/-- A host operation on another picture ends alike but for the picture: `PowerOn()` in the same state, as both
pictures are cleared. -/
theorem hostStep_withPicture (op : HostOp) {s t : State} (pb fr : Memory) (h : hostStep op s = .next t) :
    ∃ pb' fr', hostStep op (s.withPicture pb fr) = .next (t.withPicture pb' fr') := by
  by_cases hop : op = .powerOn
  · subst hop
    exact ⟨t.ppu.pixbuf, t.ppu.frame, h⟩
  · exact ⟨pb, fr, hostStep_pictureUnread op hop s t pb fr h⟩

/-! ## The frame agent -/

/-- R300: a pass composes and exports from the other parts of the state. -/
theorem vblankPass_withPicture (s : State) (pb fr : Memory) : (s.withPicture pb fr).vblankPass = s.vblankPass := by
  have hcompose : compose (s.withPicture pb fr) = compose s := rfl
  have hexport : exportFrame (s.withPicture pb fr) = exportFrame s := rfl
  unfold State.vblankPass
  rw [hcompose, hexport]
  rfl

theorem frameTail_withPicture (s : State) (pb fr : Memory) : (s.withPicture pb fr).frameTail = s.frameTail := by
  have hpass : (s.withPicture pb fr).pollInput.vblankPass = s.pollInput.vblankPass :=
    vblankPass_withPicture s.pollInput pb fr
  unfold State.frameTail
  rw [hpass]

theorem executeInstruction_pictureUnread : PictureUnread executeInstruction := by
  intro s t pb fr h
  have hfetch : fetchBytes (s.withPicture pb fr) = fetchBytes s := rfl
  cases hdec : decode (fetchBytes s) with
  | ok r =>
    rw [executeInstruction_of_decode hdec] at h
    rw [executeInstruction_of_decode (hfetch ▸ hdec)]
    exact exec_pictureUnread r.1 s t pb fr h
  | error e =>
    rw [executeInstruction_of_reject hdec] at h
    rw [executeInstruction_of_reject (hfetch ▸ hdec)]
    cases e <;> cases h <;> rfl

/-- A move of the frame agent on another picture keeps that picture while it runs an instruction, and ends in
the same state where it ends the frame step. -/
theorem frameMove_withPicture {s t : State} (pb fr : Memory) (h : frameMove s = .next t) :
    frameMove (s.withPicture pb fr) =
      if s.runsInstruction then .next (t.withPicture pb fr) else .next t := by
  have hruns : (s.withPicture pb fr).runsInstruction = s.runsInstruction := rfl
  unfold frameMove at h ⊢
  rw [hruns]
  split
  · next hr =>
    rw [if_pos hr] at h
    exact executeInstruction_pictureUnread s.countInstruction t pb fr h
  · next hr =>
    rw [if_neg hr] at h
    rw [frameTail_withPicture, h]

/-- R100: a scheduled operation is due, or it is the frame agent's move. -/
theorem hostOp_due_or_frameAgentMoves (s : State) :
    (∃ op rest, s.env.schedule = (0, op) :: rest) ∨ ∃ later, s.FrameAgentMoves later := by
  rcases h : s.env.schedule with _ | ⟨⟨_ | n, op⟩, rest⟩
  · exact .inr ⟨[], .inl ⟨h, rfl⟩⟩
  · exact .inl ⟨op, rest, rfl⟩
  · exact .inr ⟨_, .inr ⟨n, op, rest, h, rfl⟩⟩

theorem step_of_due {s : State} {op : HostOp} {rest : List (Nat × HostOp)}
    (h : s.env.schedule = (0, op) :: rest) : step s = hostStep op (s.setSchedule rest) := by
  unfold step move
  rw [h]

theorem frameAgentNext_of_due {s : State} {op : HostOp} {rest : List (Nat × HostOp)}
    (h : s.env.schedule = (0, op) :: rest) : s.frameAgentNext = false := by
  simp only [State.frameAgentNext, h]

/-- Settles O16, by whose move the step is: a host or audio operation that is due, or the frame agent's
instruction or VBlank pass. -/
theorem pictureIsNeverRead : Obligations.PictureIsNeverRead := by
  intro s t pb fr h
  rcases hostOp_due_or_frameAgentMoves s with ⟨op, rest, hdue⟩ | ⟨later, hmoves⟩
  · rw [step_of_due hdue] at h
    obtain ⟨pb', fr', h'⟩ := hostStep_withPicture op pb fr h
    have hdue' : (s.withPicture pb fr).env.schedule = (0, op) :: rest := hdue
    refine ⟨_, (step_of_due hdue').trans h', ⟨pb', fr', rfl⟩, fun hnext => ?_⟩
    rw [frameAgentNext_of_due hdue] at hnext
    cases hnext
  · have hmoves' : (s.withPicture pb fr).FrameAgentMoves later := hmoves
    rw [hmoves.step_eq] at h
    have h' : step (s.withPicture pb fr) =
        if s.runsInstruction then .next (t.withPicture pb fr) else .next t :=
      hmoves'.step_eq.trans (frameMove_withPicture (s := s.setSchedule later) pb fr h)
    cases hruns : s.runsInstruction with
    | true =>
      rw [hruns, if_pos rfl] at h'
      exact ⟨_, h', ⟨pb, fr, rfl⟩, fun _ hf => by cases hf⟩
    | false =>
      rw [hruns, if_neg (by decide)] at h'
      exact ⟨t, h', ⟨_, _, (withPicture_self t).symm⟩, fun _ _ => rfl⟩

end Sys2Proof.Machine
end

section
/-! The VBlank pass (R300 to R325): the sprite in front of all others at a pixel, the text over it, and the
frame that goes out through the palette. -/

namespace Sys2Proof.Machine

/-! ## The sprites of one layer (R312) -/

/-- The colour value entry i stores at pixel (x, y), if it belongs to the layer: the HUD entries, or the
others. -/
def layerEntry (s : State) (hud : Bool) (x y i : Nat) : Option Byte :=
  (spriteAt s.ppu.oam i).bind fun p => if p.hud = hud then layerColour s x y p else none

/-- The colour value of the layer's last entry that draws at pixel (x, y). -/
def layerTop (s : State) (hud : Bool) (x y : Nat) : Option Byte :=
  ((List.range 512).filterMap (layerEntry s hud x y)).getLast?

/-- What an entry stores in a layer it draws, and it is an entry of that layer. -/
theorem layerEntry_eq_some {s : State} {hud : Bool} {x y i : Nat} {b : Byte} (hi : i < 512)
    (h : layerEntry s hud x y i = some b) :
    SpriteShows s i x y b.toNat ∧ (EntryHud s i ↔ hud = true) := by
  obtain ⟨p, hp, hb⟩ := Option.bind_eq_some_iff.mp h
  obtain ⟨-, -, hhud⟩ := spriteAt_fields hp
  split at hb
  · next hlayer => exact ⟨(spriteShows_iff s i x y _).mpr ⟨hi, p, b, hp, hb, rfl⟩, by rw [← hhud, hlayer]⟩
  · cases hb

theorem layerEntry_of_shows {s : State} {hud : Bool} {x y i v : Nat} (h : SpriteShows s i x y v)
    (hhud : EntryHud s i ↔ hud = true) : ∃ b, layerEntry s hud x y i = some b ∧ b.toNat = v := by
  obtain ⟨-, p, b, hp, hb, hv⟩ := (spriteShows_iff s i x y v).mp h
  obtain ⟨-, -, hhud'⟩ := spriteAt_fields hp
  have hlayer : p.hud = hud := Bool.eq_iff_iff.mpr (hhud'.trans hhud)
  exact ⟨b, by rw [layerEntry, hp, Option.bind_some, if_pos hlayer, hb], hv⟩

/-- The populated entries of a layer, each by what it stores, are the entries of the table by what they store
in that layer. -/
theorem filterMap_layerColour (s : State) (hud : Bool) (x y : Nat) {q : Sprite → Bool}
    (hq : ∀ p, q p = true ↔ p.hud = hud) :
    ((populated s.ppu.oam).filter q).filterMap (layerColour s x y) =
      (List.range 512).filterMap (layerEntry s hud x y) := by
  unfold populated
  rw [List.filterMap_filter, List.filterMap_filterMap]
  refine List.filterMap_congr fun i _ => congrArg (Option.bind _) (funext fun p => ?_)
  exact if_congr (hq p) rfl rfl

/-- R312: a pixel after the sprites, by the two layers. -/
theorem drawSprites_read_layers (s : State) (pb : Memory) {x y : Nat} (hx : x < 256) (hy : y < 256) :
    (drawSprites s pb).read .pixbuf (pixelIndex x y) =
      (layerTop s true x y).getD ((layerTop s false x y).getD (pb.read .pixbuf (pixelIndex x y))) := by
  rw [drawSprites_read s pb hx hy, filterMap_layerColour s true x y (fun _ => Iff.rfl),
    filterMap_layerColour s false x y (fun p => by simp)]
  rfl

/-- The last number of a range with a value decides. -/
theorem getLast?_filterMap_range {β : Type} {f : Nat → Option β} {i n : Nat} {b : β} (hi : i < n)
    (hb : f i = some b) (hlast : ∀ j, i < j → j < n → f j = none) :
    ((List.range n).filterMap f).getLast? = some b := by
  induction n with
  | zero => cases hi
  | succ n ih =>
    rw [List.range_succ, List.filterMap_append]
    by_cases hn : n = i
    · subst hn
      simp [hb]
    · rw [List.filterMap_cons_none (hlast n (by omega) (by omega)), List.filterMap_nil, List.append_nil]
      exact ih (by omega) fun j h1 h2 => hlast j h1 (by omega)

/-- An entry over which no later one of its layer draws gives the layer's colour. -/
theorem layerTop_eq_some {s : State} {hud : Bool} {x y i : Nat} {b : Byte} (hi : i < 512)
    (hb : layerEntry s hud x y i = some b)
    (hlast : ∀ j w, SpriteShows s j x y w → (EntryHud s j ↔ hud = true) → j ≤ i) :
    layerTop s hud x y = some b := by
  refine getLast?_filterMap_range hi hb fun j hij hj => ?_
  refine Option.eq_none_iff_forall_ne_some.mpr fun c hc => ?_
  obtain ⟨hshows, hhud⟩ := layerEntry_eq_some hj hc
  exact absurd (hlast j _ hshows hhud) (by omega)

theorem layerTop_eq_none {s : State} {hud : Bool} {x y : Nat}
    (h : ∀ j w, SpriteShows s j x y w → ¬ (EntryHud s j ↔ hud = true)) : layerTop s hud x y = none := by
  rw [layerTop, List.getLast?_eq_none_iff, List.filterMap_eq_nil_iff]
  refine fun j hj => Option.eq_none_iff_forall_ne_some.mpr fun c hc => ?_
  obtain ⟨hshows, hhud⟩ := layerEntry_eq_some (List.mem_range.mp hj) hc
  exact h j _ hshows hhud

/-- R312: a pixel has the colour of the sprite in front of all others that draw there. -/
theorem drawSprites_read_of_front {s : State} {x y i v : Nat} (pb : Memory) (hx : x < 256) (hy : y < 256)
    (h : SpriteShows s i x y v) (hfront : ∀ j w, SpriteShows s j x y w → j ≠ i → InFront s i j) :
    ((drawSprites s pb).read .pixbuf (pixelIndex x y)).toNat = v := by
  rw [drawSprites_read_layers s pb hx hy]
  by_cases hhud : EntryHud s i
  · obtain ⟨b, hb, hv⟩ := layerEntry_of_shows h (iff_of_true hhud rfl)
    rw [layerTop_eq_some h.inTable hb, Option.getD_some, hv]
    intro j w hj hjhud
    by_contra hlt
    rcases hfront j w hj (by omega) with ⟨-, hworld⟩ | ⟨-, hbehind⟩
    · exact hworld (hjhud.mpr rfl)
    · omega
  · obtain ⟨b, hb, hv⟩ := layerEntry_of_shows h (hud := false) (by simp [hhud])
    have hnone : layerTop s true x y = none := by
      refine layerTop_eq_none fun j w hj hjhud => ?_
      have hjhud : EntryHud s j := hjhud.mpr rfl
      rcases hfront j w hj (fun e => hhud (e ▸ hjhud)) with ⟨hihud, -⟩ | ⟨hsame, -⟩
      · exact hhud hihud
      · exact hhud (hsame.mpr hjhud)
    rw [hnone, layerTop_eq_some h.inTable hb, Option.getD_none, Option.getD_some, hv]
    intro j w hj _
    by_contra hlt
    rcases hfront j w hj (by omega) with ⟨hihud, -⟩ | ⟨-, hbehind⟩
    · exact hhud hihud
    · omega

/-- Where no sprite draws, a pixel stays as it was. -/
theorem drawSprites_read_of_none {s : State} {x y : Nat} (pb : Memory) (hx : x < 256) (hy : y < 256)
    (h : ∀ i v, ¬ SpriteShows s i x y v) :
    (drawSprites s pb).read .pixbuf (pixelIndex x y) = pb.read .pixbuf (pixelIndex x y) := by
  rw [drawSprites_read_layers s pb hx hy, layerTop_eq_none fun j w hj _ => h j w hj,
    layerTop_eq_none fun j w hj _ => h j w hj]
  rfl

/-- The pixel buffer of a pass without text: the sprites over the background. -/
theorem clearText_vblankPass_pixbuf (s : State) :
    s.clearText.vblankPass.ppu.pixbuf = drawSprites s (background s.ppu.bgColor) := by
  rw [vblankPass_pixbuf, drawText_blank (State.clearText_textGrid s)]
  rfl

/-- Settles O51, by the two layers of the sprites. -/
theorem spritesAreComposited : Obligations.SpritesAreComposited := by
  intro s x y hx hy
  rw [clearText_vblankPass_pixbuf]
  refine ⟨fun i v h hfront => drawSprites_read_of_front _ hx hy h hfront, fun hnone => ?_⟩
  have hread := drawSprites_read_of_none (background s.ppu.bgColor) hx hy hnone
  exact (congrArg BitVec.toNat hread).trans (background_read s.ppu.bgColor (pixelIndex_lt hx hy))

/-! ## The text (R316) -/

/-- Pixels are numbered row by row (R301). -/
theorem pixelIndex_eq_iff {x y x' y' : Nat} (hx : x < 256) (hx' : x' < 256) :
    pixelIndex x y = pixelIndex x' y' ↔ x = x' ∧ y = y' := by
  unfold pixelIndex
  rw [cfg_screenW]
  omega

/-- Folding over numbers none of which touches a value leaves it. -/
theorem foldl_range_kept {α β : Type} (f : β → Nat → β) (g : β → α) {n : Nat}
    (ho : ∀ b i, i < n → g (f b i) = g b) (b : β) : g ((List.range n).foldl f b) = g b :=
  foldl_keeps (P := fun c => g c = g b) rfl fun c i hi hc => (ho c i (List.mem_range.mp hi)).trans hc

/-- Folding over numbers of which only k, one of them, touches a value applies the operation for k once. -/
theorem foldl_range_at {α β : Type} (f : β → Nat → β) (g : β → α) (val : α → α) {k n : Nat} (hkn : k < n)
    (hk : ∀ b, g (f b k) = val (g b)) (ho : ∀ b i, i < n → i ≠ k → g (f b i) = g b) (b : β) :
    g ((List.range n).foldl f b) = val (g b) := by
  have hguard : (List.range n).foldl f b = (List.range n).foldl (fun b i => if i < n then f b i else b) b :=
    List.foldl_ext _ _ _ fun b i hi => (if_pos (List.mem_range.mp hi)).symm
  rw [hguard, foldl_range_once _ g val k, if_pos hkn]
  · intro b
    rw [if_pos hkn, hk]
  · intro b i hik
    split
    · next hi => exact ho b i hi hik
    · rfl

/-- The pixel at row r and column c of a cell of the text grid. -/
def cellPixel (row col r c : Nat) (pb : Memory) : Byte :=
  pb.read .pixbuf (pixelIndex (8 * col + c) (8 * row + r))

/-- What a glyph leaves at its row r and column c over the byte v: the text colour where its bit is set. -/
def glyphPixel (s : State) (ch : Byte) (r c : Nat) (v : Byte) : Byte :=
  if (Config.font ch r).getLsbD (7 - c) then s.ppu.fontColor.setWidth 8 else v

/-- A row of a glyph, as the pass draws it. -/
def drawGlyphRow (s : State) (ch : Byte) (row col r : Nat) (pb : Memory) : Memory :=
  (List.range 8).foldl (fun pb c =>
    if (Config.font ch r).getLsbD (7 - c) then
      pb.write .pixbuf (pixelIndex (8 * col + c) (8 * row + r)) (s.ppu.fontColor.setWidth 8)
    else pb) pb

theorem drawGlyph_eq_rows (s : State) (ch : Byte) (row col : Nat) (pb : Memory) :
    drawGlyph s ch row col pb = (List.range 8).foldl (fun pb r => drawGlyphRow s ch row col r pb) pb := rfl

theorem glyphWrite_read (s : State) (ch : Byte) (r c a : Nat) (pb : Memory) (x : Nat) :
    Memory.read .pixbuf (if (Config.font ch r).getLsbD (7 - c) then
      pb.write .pixbuf a (s.ppu.fontColor.setWidth 8) else pb) x =
      if x = a then glyphPixel s ch r c (pb.read .pixbuf x) else pb.read .pixbuf x := by
  unfold glyphPixel
  by_cases hbit : (Config.font ch r).getLsbD (7 - c) = true
  · rw [if_pos hbit, if_pos hbit, Memory.read_write]
  · rw [if_neg hbit, if_neg hbit, ite_self]

section

variable (s : State) (ch : Byte) (pb : Memory) {row col row' col' r r' c : Nat}

/-- A row of a glyph leaves the other rows of pixels and the other cells. -/
theorem drawGlyphRow_other (hcol : col < 32) (hcol' : col' < 32) (hc : c < 8)
    (h : 8 * row' + r' ≠ 8 * row + r ∨ col' ≠ col) :
    cellPixel row col r c (drawGlyphRow s ch row' col' r' pb) = cellPixel row col r c pb := by
  refine foldl_range_kept _ (cellPixel row col r c) (fun b i hi => ?_) pb
  unfold cellPixel
  rw [glyphWrite_read, if_neg]
  rw [pixelIndex_eq_iff (by omega) (by omega)]
  omega

theorem drawGlyphRow_same (hcol : col < 32) (hc : c < 8) :
    cellPixel row col r c (drawGlyphRow s ch row col r pb) = glyphPixel s ch r c (cellPixel row col r c pb) := by
  refine foldl_range_at _ (cellPixel row col r c) (glyphPixel s ch r c) hc (fun b => ?_) (fun b i hi hne => ?_) pb
  · unfold cellPixel
    rw [glyphWrite_read, if_pos rfl]
  · unfold cellPixel
    rw [glyphWrite_read, if_neg]
    rw [pixelIndex_eq_iff (by omega) (by omega)]
    omega

/-- A glyph leaves the pixels of other cells. -/
theorem drawGlyph_other (hcol : col < 32) (hcol' : col' < 32) (hr : r < 8) (hc : c < 8)
    (h : row' ≠ row ∨ col' ≠ col) :
    cellPixel row col r c (drawGlyph s ch row' col' pb) = cellPixel row col r c pb :=
  foldl_range_kept _ (cellPixel row col r c)
    (fun b _ hi => drawGlyphRow_other s ch b hcol hcol' hc (by omega)) pb

theorem drawGlyph_same (hcol : col < 32) (hr : r < 8) (hc : c < 8) :
    cellPixel row col r c (drawGlyph s ch row col pb) = glyphPixel s ch r c (cellPixel row col r c pb) := by
  rw [drawGlyph_eq_rows]
  exact foldl_range_at _ (cellPixel row col r c) (glyphPixel s ch r c) hr
    (fun b => drawGlyphRow_same s ch b hcol hc)
    (fun b _ _ hne => drawGlyphRow_other s ch b hcol hcol hc (by omega)) pb

/-- A cell of the text grid, as the pass draws it: the character 0xFF draws nothing (R47, R316). -/
def drawCell (s : State) (row col : Nat) (pb : Memory) : Memory :=
  if s.ppu.textGrid.read .text (textIndex row col) = 0xFF then pb
  else drawGlyph s (s.ppu.textGrid.read .text (textIndex row col)) row col pb

theorem drawText_eq_cells :
    drawText s pb =
      (List.range 32).foldl (fun pb row => (List.range 32).foldl (fun pb col => drawCell s row col pb) pb) pb :=
  rfl

/-- What a character leaves at its row r and column c over the byte v. -/
def charPixel (s : State) (ch : Byte) (r c : Nat) (v : Byte) : Byte :=
  if ch = 0xFF then v else glyphPixel s ch r c v

theorem drawCell_other (hcol : col < 32) (hcol' : col' < 32) (hr : r < 8) (hc : c < 8)
    (h : row' ≠ row ∨ col' ≠ col) :
    cellPixel row col r c (drawCell s row' col' pb) = cellPixel row col r c pb := by
  unfold drawCell
  split
  · rfl
  · exact drawGlyph_other s _ pb hcol hcol' hr hc h

theorem drawCell_same (hcol : col < 32) (hr : r < 8) (hc : c < 8) :
    cellPixel row col r c (drawCell s row col pb) =
      charPixel s (s.ppu.textGrid.read .text (textIndex row col)) r c (cellPixel row col r c pb) := by
  unfold drawCell charPixel
  split
  · rfl
  · exact drawGlyph_same s _ pb hcol hr hc

/-- R316: after the text a pixel holds what the character of its cell leaves there. -/
theorem drawText_read (hrow : row < 32) (hcol : col < 32) (hr : r < 8) (hc : c < 8) :
    cellPixel row col r c (drawText s pb) =
      charPixel s (s.ppu.textGrid.read .text (textIndex row col)) r c (cellPixel row col r c pb) := by
  rw [drawText_eq_cells]
  refine foldl_range_at _ (cellPixel row col r c) (charPixel s _ r c) hrow (fun b => ?_) (fun b i _ hne => ?_) pb
  · exact foldl_range_at _ (cellPixel row col r c) (charPixel s _ r c) hcol
      (fun b => drawCell_same s b hcol hr hc)
      (fun b j hj hne => drawCell_other s b hcol hj hr hc (.inr hne)) b
  · exact foldl_range_kept _ (cellPixel row col r c)
      (fun b j hj => drawCell_other s b hcol hj hr hc (.inl hne)) b

end

theorem charPixel_toNat (s : State) (ch : Byte) (r c : Nat) (v : Byte) :
    (charPixel s ch r c v).toNat =
      if ch ≠ 0xFF ∧ (Config.font ch r).getLsbD (7 - c) = true then s.ppu.fontColor.toNat else v.toNat := by
  unfold charPixel glyphPixel
  by_cases hblank : ch = 0xFF
  · rw [if_pos hblank, if_neg fun h => h.1 hblank]
  · by_cases hbit : (Config.font ch r).getLsbD (7 - c) = true
    · rw [if_neg hblank, if_pos hbit, if_pos ⟨hblank, hbit⟩, BitVec.toNat_setWidth]
      omega
    · rw [if_neg hblank, if_neg hbit, if_neg fun h => hbit h.2]

/-- Settles O52: the pass draws the text over the picture of the pass without text. -/
theorem textIsInFront : Obligations.TextIsInFront := by
  rintro s row col r c _ hrow hcol hr hc rfl
  have hread := drawText_read s (drawSprites s (background s.ppu.bgColor)) hrow hcol hr hc
  rw [← vblankPass_pixbuf, ← clearText_vblankPass_pixbuf] at hread
  exact (congrArg BitVec.toNat hread).trans (charPixel_toNat s _ r c _)

/-! ## The frame (R325) -/

/-- Lists of one length joined: number w * i + k is number k of list i. -/
theorem getElem?_flatMap_range {α : Type} {g : Nat → List α} {w : Nat} (hw : ∀ i, (g i).length = w) {n i k : Nat}
    (hi : i < n) (hk : k < w) : ((List.range n).flatMap g)[w * i + k]? = (g i)[k]? := by
  induction n with
  | zero => cases hi
  | succ n ih =>
    have hlen : ((List.range n).flatMap g).length = w * n := by
      simp [List.length_flatMap, hw, Nat.mul_comm]
    rw [List.range_succ, List.flatMap_append, List.flatMap_singleton]
    by_cases hn : i = n
    · subst hn
      rw [List.getElem?_append_right (by omega), hlen, Nat.add_sub_cancel_left]
    · have hlt : w * i + k < w * n := by
        calc w * i + k < w * i + w := by omega
          _ = w * (i + 1) := by ring
          _ ≤ w * n := Nat.mul_le_mul_left w (by omega)
      rw [List.getElem?_append_left (by omega), ih (by omega)]

theorem masterSlot_eq (s : State) (p : Byte) :
    masterSlot s p = ((busRead8 s (BitVec.ofNat 16 (0xFFF0 + p.toNat % 16))).toNat % 32 +
      16 * (p.toNat / 16 % 2)) % 32 := by
  have hindex : (p &&& 0x0F).toNat = p.toNat % 16 := by revert p; decide
  have halternate : (p &&& 0x10).toNat = 16 * (p.toNat / 16 % 2) := by revert p; decide
  have hcolour (b : Byte) : (b &&& 0x1F).toNat = b.toNat % 32 := by revert b; decide
  unfold masterSlot
  rw [hindex, halternate, cfg_paletteBase]
  dsimp only
  rw [hcolour]

theorem getElem?_exportFrame (s : State) (pb : Memory) {i k : Nat} (hi : i < 65536) (hk : k < 4) :
    (exportFrame s pb)[4 * i + k]? = (exportPixel s (pb.read .pixbuf i))[k]? := by
  unfold exportFrame
  rw [cfg_screenW, cfg_screenH]
  exact getElem?_flatMap_range (g := fun i => exportPixel s (pb.read .pixbuf i)) (fun _ => rfl) hi hk

/-- R325: byte k of pixel i of the frame is byte k of the colour its stored value exports as. -/
theorem vblankPass_frame_read (s : State) {i k : Nat} (hi : i < 65536) (hk : k < 4) :
    s.vblankPass.ppu.frame.read .frame (4 * i + k) =
      (exportPixel s (s.vblankPass.ppu.pixbuf.read .pixbuf i)).getD k 0 := by
  have hframe : s.vblankPass.ppu.frame = Memory.load .frame [] 0 (exportFrame s s.vblankPass.ppu.pixbuf) := rfl
  rw [hframe, Memory.read_load, length_exportFrame, if_pos (by omega), Nat.sub_zero,
    List.getD_eq_getElem?_getD, List.getD_eq_getElem?_getD, getElem?_exportFrame s _ hi hk, Store.blank_frame]

/-- The four exported bytes of a pixel, by its master slot. -/
theorem vblankPass_frame_pixel (s : State) {i m : Nat} (hi : i < 65536)
    (hm : m = masterSlot s (s.vblankPass.ppu.pixbuf.read .pixbuf i)) :
    s.vblankPass.ppu.frame.read .frame (4 * i) = (Config.masterPalette m).1 ∧
      s.vblankPass.ppu.frame.read .frame (4 * i + 1) = (Config.masterPalette m).2.1 ∧
      s.vblankPass.ppu.frame.read .frame (4 * i + 2) = (Config.masterPalette m).2.2 ∧
      s.vblankPass.ppu.frame.read .frame (4 * i + 3) = (if m = 0 ∨ m = 16 then 0x00 else 0xFF) := by
  subst hm
  exact ⟨vblankPass_frame_read s hi (k := 0) (by decide), vblankPass_frame_read s hi (by decide),
    vblankPass_frame_read s hi (by decide), vblankPass_frame_read s hi (by decide)⟩

/-- A text grid without a character draws nothing (R47, R316). -/
theorem drawText_of_empty {s : State} (h : ∀ a, a < 1024 → s.ppu.textGrid.read .text a = 0xFF) (pb : Memory) :
    drawText s pb = pb := by
  rw [drawText_eq_cells]
  refine foldl_id (fun _ row hrow => foldl_id (fun _ col hcol => if_pos (h _ ?_)) _) pb
  have hrow := List.mem_range.mp hrow
  have hcol := List.mem_range.mp hcol
  unfold textIndex
  rw [cfg_textCols]
  omega

/-- Settles O50: every pixel's four bytes, and the plain background as the picture no sprite and no text
changed. -/
theorem frameExport : Obligations.FrameExport := by
  rintro s _ rfl
  constructor
  · rintro i _ m hi rfl hm
    exact vblankPass_frame_pixel s hi (hm.trans (masterSlot_eq s _).symm)
  · intro hentries htext i hi
    have hpixel : pixelIndex (i % 256) (i / 256) = i := by
      unfold pixelIndex
      rw [cfg_screenW]
      omega
    have hnone : ∀ j v, ¬ SpriteShows s j (i % 256) (i / 256) v := fun j v h => h.populated (hentries j h.inTable)
    have hread := drawSprites_read_of_none (background s.ppu.bgColor) (by omega) (by omega) hnone
    rw [hpixel] at hread
    rw [vblankPass_pixbuf, drawText_of_empty htext, hread]
    exact background_read s.ppu.bgColor hi

end Sys2Proof.Machine
end

section
/-! The audio unit (R346 to R360): the note table, the moves of an envelope, and what a batch of samples leaves
as it was. -/

namespace Sys2Proof.Machine

/-! ## The note table (R348) -/

/-- f hertz is the frequency of a note, 440 · 2^((note − 69) / 12), rounded to the nearest whole number: the
bounds 2f − 1 ≤ 880 · 2^((note − 69) / 12) < 2f + 1, to the twelfth power. -/
def RoundsNote (note f : Nat) : Prop :=
  (2 * f - 1) ^ 12 * 2 ^ 69 ≤ 880 ^ 12 * 2 ^ note ∧ 880 ^ 12 * 2 ^ note < (2 * f + 1) ^ 12 * 2 ^ 69

theorem length_noteFreqLow : noteFreqLow.length = 64 := rfl

theorem length_noteFreqHigh : noteFreqHigh.length = 92 := rfl

theorem noteFreqLow_rounds : ∀ k : Fin noteFreqLow.length, RoundsNote k (noteFreqLow.get k).toNat := by
  unfold RoundsNote
  decide

theorem noteFreqHigh_rounds :
    ∀ k : Fin noteFreqHigh.length, RoundsNote (64 + k) (noteFreqHigh.get k).toNat := by
  unfold RoundsNote
  decide

theorem noteFreq_of_low {note : Byte} (h : note.toNat < noteFreqLow.length) :
    noteFreq note = noteFreqLow.get ⟨note.toNat, h⟩ :=
  (List.getD_append _ _ _ _ h).trans (List.getD_eq_getElem _ _ h)

/-- From note 64 up the table goes on with its second part. -/
theorem noteFreq_of_ge_low {note : Byte} (h : 64 ≤ note.toNat) :
    noteFreq note = (noteFreqHigh ++ List.replicate 100 0xFFFF).getD (note.toNat - 64) 0xFFFF :=
  List.getD_append_right _ _ _ _ h

theorem noteFreq_of_high {note : Byte} (h : 64 ≤ note.toNat) (h' : note.toNat - 64 < noteFreqHigh.length) :
    noteFreq note = noteFreqHigh.get ⟨note.toNat - 64, h'⟩ :=
  (noteFreq_of_ge_low h).trans ((List.getD_append _ _ _ _ h').trans (List.getD_eq_getElem _ _ h'))

theorem noteFreq_of_ge {note : Byte} (h : 156 ≤ note.toNat) : noteFreq note = 0xFFFF := by
  rw [noteFreq_of_ge_low (by omega), List.getD_append_right _ _ _ _ (by rw [length_noteFreqHigh]; omega),
    List.getD_eq_getElem?_getD]
  exact List.getElem?_getD_replicate_default_eq _ _ _

theorem noteFreq_rounds {note : Byte} (h : note.toNat < 156) : RoundsNote note.toNat (noteFreq note).toNat := by
  by_cases hlow : note.toNat < 64
  · rw [noteFreq_of_low hlow]
    exact noteFreqLow_rounds ⟨note.toNat, hlow⟩
  · have hhigh : note.toNat - 64 < noteFreqHigh.length := by rw [length_noteFreqHigh]; omega
    have hnote : 64 + (note.toNat - 64) = note.toNat := by omega
    have := noteFreqHigh_rounds ⟨note.toNat - 64, hhigh⟩
    rwa [hnote, ← noteFreq_of_high (by omega) hhigh] at this

/-- Settles O53: the table's two written parts entry by entry, and the constant part above them. -/
theorem noteTable : Obligations.NoteTable :=
  fun _ => ⟨noteFreq_rounds, noteFreq_of_ge⟩

/-! ## Edge detection (R352) -/

theorem getLsbD_zero_eq (b : Byte) : b.getLsbD 0 = decide (b.toNat % 2 = 1) :=
  Bool.eq_iff_iff.mpr ((attr_bits b).1.trans decide_eq_true_iff.symm)

section

variable {p : ApuParams} {f : Word} {ctrl : Byte} {ch : Channel}

/-- An open gate on a channel that was closed, changed or asked to retrigger starts the attack. -/
theorem edgeDetect_of_started (hgate : ctrl.getLsbD 0 = true)
    (h : ch.lastCtrl.getLsbD 0 = false ∨ f ≠ ch.lastFreq ∨ ctrl ≠ ch.lastCtrl ∨ ch.retrig = true) :
    edgeDetect p f ctrl ch = { ch with
      volume := ch.volume * p.retriggerKeep, stage := .attack, lastFreq := f, lastCtrl := ctrl, retrig := false } := by
  have hstart : (ctrl.getLsbD 0 && (ctrl.getLsbD 0 && !ch.lastCtrl.getLsbD 0 ||
      (f != ch.lastFreq || ctrl != ch.lastCtrl) || ch.retrig)) = true := by
    simpa [hgate, or_assoc] using h
  unfold edgeDetect
  dsimp only
  rw [if_pos hstart, if_neg (by simp [hgate])]

/-- An open gate on a channel that saw the same registers before changes nothing. -/
theorem edgeDetect_of_held (hgate : ctrl.getLsbD 0 = true) (hctrl : ch.lastCtrl = ctrl) (hfreq : f = ch.lastFreq)
    (hretrig : ch.retrig = false) : edgeDetect p f ctrl ch = ch := by
  cases ch
  dsimp only at hctrl hfreq hretrig
  subst hctrl hfreq hretrig
  simp [-BitVec.getLsbD_eq_getElem, edgeDetect, hgate]

/-- A closed gate releases every channel but an idle one. -/
theorem edgeDetect_of_closed (hgate : ctrl.getLsbD 0 = false) :
    edgeDetect p f ctrl ch = { ch with
      stage := if ch.stage = .idle then .idle else .release, lastFreq := f, lastCtrl := ctrl, retrig := false } := by
  cases hstage : ch.stage <;> simp [-BitVec.getLsbD_eq_getElem, edgeDetect, hgate, hstage]

end

/-- The registers a sample saw are remembered, and the retrigger is used up; a note's priority and the
oscillator are left. -/
theorem edgeDetect_registers (p : ApuParams) (f : Word) (ctrl : Byte) (ch : Channel) :
    (edgeDetect p f ctrl ch).lastFreq = f ∧ (edgeDetect p f ctrl ch).lastCtrl = ctrl ∧
      (edgeDetect p f ctrl ch).retrig = false ∧ (edgeDetect p f ctrl ch).priority = ch.priority ∧
      (edgeDetect p f ctrl ch).phase = ch.phase := by
  cases hgate : ctrl.getLsbD 0 with
  | false =>
    rw [edgeDetect_of_closed hgate]
    exact ⟨rfl, rfl, rfl, rfl, rfl⟩
  | true =>
    by_cases h : ch.lastCtrl.getLsbD 0 = false ∨ f ≠ ch.lastFreq ∨ ctrl ≠ ch.lastCtrl ∨ ch.retrig = true
    · rw [edgeDetect_of_started hgate h]
      exact ⟨rfl, rfl, rfl, rfl, rfl⟩
    · simp only [not_or, not_not, Bool.not_eq_true] at h
      obtain ⟨-, hfreq, hctrl, hretrig⟩ := h
      rw [edgeDetect_of_held hgate hctrl.symm hfreq hretrig]
      exact ⟨hfreq.symm, hctrl.symm, hretrig, rfl, rfl⟩

/-! ## One step of the envelope (R353) -/

section

variable {p : ApuParams} {vmax : Rat} {e : Envelope} {ch : Channel}

theorem envelopeStep_of_idle (h : ch.stage = .idle) : envelopeStep p vmax e ch = { ch with volume := 0 } := by
  simp only [envelopeStep, h]

/-- The attack rises by one step below full volume, or ends there. -/
theorem envelopeStep_of_attack (h : ch.stage = .attack) :
    (ch.volume + p.attackStep e.attack < vmax ∧
        envelopeStep p vmax e ch = { ch with volume := ch.volume + p.attackStep e.attack }) ∨
      envelopeStep p vmax e ch = { ch with volume := vmax, stage := .decay } := by
  simp only [envelopeStep, h]
  split
  · exact .inr rfl
  · next hbelow => exact .inl ⟨not_le.mp hbelow, rfl⟩

/-- The decay falls by one step above the sustain volume, or ends there. -/
theorem envelopeStep_of_decay (h : ch.stage = .decay) :
    envelopeStep p vmax e ch = { ch with volume := ch.volume - p.decayStep e.decay } ∨
      envelopeStep p vmax e ch = { ch with volume := unitOf e.sustain * vmax, stage := .sustain } := by
  simp only [envelopeStep, h]
  split
  · exact .inr rfl
  · exact .inl rfl

theorem envelopeStep_of_sustain (h : ch.stage = .sustain) :
    envelopeStep p vmax e ch = { ch with volume := unitOf e.sustain * vmax } := by
  simp only [envelopeStep, h]

/-- The release falls by one step above 0, or ends there. -/
theorem envelopeStep_of_release (h : ch.stage = .release) :
    (0 < ch.volume - p.releaseStep e.release ∧
        envelopeStep p vmax e ch = { ch with volume := ch.volume - p.releaseStep e.release }) ∨
      envelopeStep p vmax e ch = { ch with volume := 0, stage := .idle } := by
  simp only [envelopeStep, h]
  split
  · exact .inr rfl
  · next habove => exact .inl ⟨not_le.mp habove, rfl⟩

/-- What one step can do to a channel: volume and stage alone change, along an edge of the relation (R354), and a
channel is silent as soon as it is idle. -/
theorem envelopeStep_edge (p : ApuParams) (vmax : Rat) (e : Envelope) (ch : Channel) :
    ∃ v st, envelopeStep p vmax e ch = { ch with volume := v, stage := st } ∧ (st = .idle → v = 0) ∧
      (ch.stage = .idle → st = .idle) ∧
      (ch.stage = .attack → (st = .attack ∧ v < vmax) ∨ (st = .decay ∧ v = vmax)) ∧
      (ch.stage = .decay → st = .decay ∨ st = .sustain) ∧
      (ch.stage = .sustain → st = .sustain) ∧
      (ch.stage = .release → st = .release ∨ st = .idle) := by
  cases hstage : ch.stage with
  | idle => exact ⟨0, .idle, by rw [envelopeStep_of_idle hstage, hstage], by simp⟩
  | attack =>
    rcases envelopeStep_of_attack (p := p) (vmax := vmax) (e := e) hstage with ⟨hbelow, hstep⟩ | hstep
    · exact ⟨_, .attack, by rw [hstep, hstage], by simp [hbelow]⟩
    · exact ⟨vmax, .decay, hstep, by simp⟩
  | decay =>
    rcases envelopeStep_of_decay (p := p) (vmax := vmax) (e := e) hstage with hstep | hstep
    · exact ⟨_, .decay, by rw [hstep, hstage], by simp⟩
    · exact ⟨_, .sustain, hstep, by simp⟩
  | sustain => exact ⟨_, .sustain, by rw [envelopeStep_of_sustain hstage, hstage], by simp⟩
  | release =>
    rcases envelopeStep_of_release (p := p) (vmax := vmax) (e := e) hstage with ⟨-, hstep⟩ | hstep
    · exact ⟨_, .release, by rw [hstep, hstage], by simp⟩
    · exact ⟨0, .idle, hstep, by simp⟩

/-! ## The end of a release (R353, R354) -/

theorem iterate_envelopeStep_of_silent (n : Nat) (h : ch.stage = .idle) (hv : ch.volume = 0) :
    (envelopeStep p vmax e)^[n] ch = ch :=
  Function.iterate_fixed ((envelopeStep_of_idle h).trans (by rw [← hv])) n

/-- Each sample of a release takes one step off the volume, so the samples whose steps cover it end the
release. -/
theorem iterate_envelopeStep_of_release {n : Nat} (hn : 0 < n) (h : ch.stage = .release)
    (hv : ch.volume ≤ n * p.releaseStep e.release) :
    ((envelopeStep p vmax e)^[n] ch).stage = .idle ∧ ((envelopeStep p vmax e)^[n] ch).volume = 0 := by
  induction n generalizing ch with
  | zero => cases hn
  | succ n ih =>
    rw [Function.iterate_succ_apply]
    rcases envelopeStep_of_release (p := p) (vmax := vmax) (e := e) h with ⟨habove, hstep⟩ | hstep
    · push_cast at hv
      have hrest : ch.volume - p.releaseStep e.release ≤ n * p.releaseStep e.release := by linarith
      have hpos : 0 < n := by
        rcases Nat.eq_zero_or_pos n with rfl | hpos
        · simp only [Nat.cast_zero, zero_mul] at hrest
          linarith
        · exact hpos
      rw [hstep]
      exact ih hpos h hrest
    · rw [hstep, iterate_envelopeStep_of_silent n rfl rfl]
      exact ⟨rfl, rfl⟩

end

/-- Settles O56: edge detection gives the stage from which the envelope takes its step. -/
theorem envelopeTransitions : Obligations.EnvelopeTransitions := by
  rintro p vmax e f ctrl ch _ _ rfl rfl
  obtain ⟨hfreq, hctrl, hretrig, hpriority, hphase⟩ := edgeDetect_registers p f ctrl ch
  obtain ⟨v, st, hstep, hsilent, hidle, hattack, hdecay, hsustain, hrelease⟩ :=
    envelopeStep_edge p vmax e (edgeDetect p f ctrl ch)
  rw [hstep, ← getLsbD_zero_eq]
  refine ⟨⟨hfreq, hctrl, hretrig, hpriority, hphase⟩, hsilent, fun hgate hstart => ?_, fun hgate hc hf hr => ?_,
    fun hgate => ?_, fun n hn hrel _ hv => iterate_envelopeStep_of_release hn hrel hv⟩
  · have hstart' := hstart.imp_left fun h => (getLsbD_zero_eq ch.lastCtrl).trans (by rw [h])
    exact hattack (by rw [edgeDetect_of_started hgate hstart'])
  · rw [edgeDetect_of_held hgate hc hf hr] at hidle hattack hdecay hsustain hrelease
    exact ⟨hidle, fun h => (hattack h).imp And.left And.left, hdecay, hsustain, hrelease⟩
  · rw [edgeDetect_of_closed hgate] at hidle hrelease
    exact ⟨fun h => hidle (if_pos h), fun h => hrelease (if_neg h)⟩

/-! ## What a batch of samples leaves as it was (R350, R410, R437) -/

/-- The bytes of `ram` a note's start or end writes (R418, R419): a channel's frequency and control, not its
volume (R42). -/
def NoteByte (a : Nat) : Prop :=
  ∃ c, c < 8 ∧ (a = 0xF7A0 + 4 * c ∨ a = 0xF7A1 + 4 * c ∨ a = 0xF7A3 + 4 * c)

theorem NoteByte.mem_registers {a : Nat} (h : NoteByte a) : 0xF7A0 ≤ a ∧ a < 0xF7C0 := by
  obtain ⟨c, hc, h⟩ := h
  omega

theorem not_noteByte_volume (c : Nat) : ¬ NoteByte (0xF7A2 + 4 * c) := by
  rintro ⟨d, -, h⟩
  omega

/-- t is s after a part of the audio agent that hands k samples to the sink: outside the audio unit only those,
the noise draws (log entry 6) and the note bytes may differ. -/
structure AudioMoves (k : Nat) (s t : State) : Prop where
  samples : t.env.audioOut.length = s.env.audioOut.length + k
  cpu : t.cpu = s.cpu
  ppu : t.ppu = s.ppu
  bus : t.bus = { s.bus with ram := t.bus.ram }
  ram : ∀ a, ¬ NoteByte a → t.ramRead a = s.ramRead a
  env : t.env = { s.env with audioOut := t.env.audioOut, noiseIndex := t.env.noiseIndex }

theorem AudioMoves.refl (s : State) : AudioMoves 0 s s := ⟨rfl, rfl, rfl, rfl, fun _ _ => rfl, rfl⟩

theorem AudioMoves.trans {j k : Nat} {s t u : State} (h : AudioMoves j s t) (h' : AudioMoves k t u) :
    AudioMoves (j + k) s u where
  samples := by rw [h'.samples, h.samples, Nat.add_assoc]
  cpu := h'.cpu.trans h.cpu
  ppu := h'.ppu.trans h.ppu
  bus := by rw [h'.bus, h.bus]
  ram a ha := (h'.ram a ha).trans (h.ram a ha)
  env := by rw [h'.env, h.env]

/-- Nothing but the audio unit's own state changed. -/
theorem AudioMoves.of_audio (s : State) (audio : Audio) : AudioMoves 0 s { s with audio := audio } :=
  ⟨rfl, rfl, rfl, rfl, fun _ _ => rfl, rfl⟩

/-- A trigger that only wrote `ram`, and there only note bytes, moves the audio unit alone. -/
theorem AudioMoves.of_ram {s t : State} (h : OnlyRam s t) (hppu : t.ppu = s.ppu) (henv : t.env = s.env)
    (hram : ∀ a, ¬ NoteByte a → t.ramRead a = s.ramRead a) : AudioMoves 0 s t where
  samples := by rw [henv, Nat.add_zero]
  cpu := h.cpu
  ppu := hppu
  bus := h.bus
  ram := hram
  env := by rw [henv]

/-! ### The sequencer (R391 to R399) -/

theorem releaseChannel_audioMoves (s : State) (c : Fin 8) : AudioMoves 0 s (s.releaseChannel c) := by
  refine .of_ram ⟨rfl, rfl⟩ rfl rfl fun a ha => ?_
  rw [ramRead_releaseChannel, if_neg fun h => ha ⟨c.val, c.isLt, .inr (.inr h)⟩]

theorem stopAll_audioMoves (s : State) : AudioMoves 0 s s.stopAll :=
  foldl_keeps (P := AudioMoves 0 s) (.refl s) fun t c _ h => h.trans (releaseChannel_audioMoves t c)

theorem stopChannel_audioMoves (s : State) (ch : Nat) : AudioMoves 0 s (s.stopChannel ch) := by
  unfold State.stopChannel
  split
  · exact releaseChannel_audioMoves s _
  · exact .refl s

theorem playChannel_audioMoves (s : State) (c : Fin 8) (note : Byte) (ins : BitVec 4) :
    AudioMoves 0 s (s.playChannel c note ins true) := by
  obtain ⟨hram, -, hcpu, hppu, henv, hbus, -⟩ := playChannel_spec s c note ins true (.inr rfl)
  refine .of_ram ⟨hcpu, hbus⟩ hppu henv fun a ha => ?_
  rw [hram, if_neg fun h => ha ⟨c.val, c.isLt, .inl h⟩, if_neg fun h => ha ⟨c.val, c.isLt, .inr (.inl h)⟩,
    if_neg fun h => ha ⟨c.val, c.isLt, .inr (.inr h)⟩]

theorem seqPlay_audioMoves (s : State) (r : Record) : AudioMoves 0 s (s.seqPlay r) := by
  unfold State.seqPlay
  split
  · next hch =>
    split
    · exact stopChannel_audioMoves s _
    · rw [playNote_of_lt s ⟨_, hch⟩]
      exact playChannel_audioMoves s _ _ _
  · exact .refl s

theorem seqLoop_audioMoves {fuel : Nat} {s t : State} (h : seqLoop fuel s = .ok t) : AudioMoves 0 s t := by
  induction fuel generalizing s with
  | zero => cases h
  | succ n ih =>
    unfold seqLoop at h
    dsimp only at h
    have hplayed := ((AudioMoves.of_audio s { s.audio with seqCursor := s.audio.seqCursor + 4 }).trans
      (seqPlay_audioMoves (s.setSeqCursor (s.audio.seqCursor + 4)) (recordAt s s.audio.seqCursor)))
    split at h
    · cases h
      exact (AudioMoves.of_audio s _).trans (stopAll_audioMoves _)
    · split at h
      · exact (AudioMoves.of_audio s _).trans (ih h)
      · split at h
        · exact hplayed.trans (ih h)
        · cases h
          exact hplayed.trans (.of_audio _ _)

theorem sequencerTick_audioMoves {s t : State} (h : sequencerTick s = .ok t) : AudioMoves 0 s t := by
  unfold sequencerTick at h
  split at h
  · cases h
    exact .refl s
  · split at h
    · cases h
      exact .of_audio s _
    · exact seqLoop_audioMoves h

theorem clockSequencer_audioMoves {p : ApuParams} {s t : State} (h : clockSequencer p s = .ok t) :
    AudioMoves 0 s t := by
  unfold clockSequencer at h
  dsimp only at h
  split at h
  · exact (AudioMoves.of_audio s _).trans (sequencerTick_audioMoves h)
  · cases h
    exact .of_audio s _

/-! ### The channels and the batch (R350, R351) -/

/-- A noise draw moves on to the next free value (log entry 6). -/
theorem audioMoves_noiseDraw (s : State) (n : Nat) :
    AudioMoves 0 s { s with env := { s.env with noiseIndex := n } } :=
  ⟨rfl, rfl, rfl, rfl, fun _ _ => rfl, rfl⟩

theorem channelSample_audioMoves (p : ApuParams) (s : State) (c : Fin 8) :
    AudioMoves 0 s (channelSample p s c).2 := by
  have hmodify (f : Channel → Channel) : AudioMoves 0 s (s.modifyChannel c f) := .of_audio s _
  unfold channelSample
  dsimp only
  split
  · exact hmodify fun _ => _
  · split
    · exact hmodify fun _ => _
    · split
      · exact (hmodify fun _ => _).trans (audioMoves_noiseDraw _ _)
      · exact hmodify fun _ => _

theorem mixChannels_audioMoves (p : ApuParams) (s : State) : AudioMoves 0 s (mixChannels p s).2 :=
  foldl_keeps (P := fun acc : Rat × State => AudioMoves 0 s acc.2) (.refl s) fun acc c _ h =>
    h.trans (channelSample_audioMoves p acc.2 c)

theorem audioMoves_sample (s : State) (x : Sample) :
    AudioMoves 1 s { s with env := { s.env with audioOut := s.env.audioOut ++ [x] } } :=
  ⟨List.length_append, rfl, rfl, rfl, fun _ _ => rfl, rfl⟩

theorem sampleStep_audioMoves {p : ApuParams} {s t : State} (h : sampleStep p s = .ok t) : AudioMoves 1 s t := by
  unfold sampleStep at h
  split at h
  · cases h
  · next u hclock =>
    cases h
    exact ((clockSequencer_audioMoves hclock).trans (mixChannels_audioMoves p u)).trans (audioMoves_sample _ _)

theorem generateSamples_audioMoves {p : ApuParams} {n : Nat} {s t : State} (h : generateSamples p n s = .ok t) :
    AudioMoves n s t := by
  induction n generalizing s with
  | zero =>
    cases h
    exact .refl _
  | succ n ih =>
    unfold generateSamples at h
    split at h
    · cases h
    · next hsample =>
      rw [Nat.add_comm]
      exact (sampleStep_audioMoves hsample).trans (ih h)

/-- Settles O55: the moves of the audio agent composed over the batch, whose writes to `ram` are note bytes. -/
theorem audioLeavesTheRest : Obligations.AudioLeavesTheRest := by
  intro p n s t h
  have hmoves := generateSamples_audioMoves h
  exact ⟨hmoves.samples, hmoves.cpu, hmoves.ppu, hmoves.bus,
    fun a ha => hmoves.ram a fun hnote => ha hnote.mem_registers,
    fun c _ => hmoves.ram _ (not_noteByte_volume c), hmoves.env⟩

end Sys2Proof.Machine
end

section
/-! The sequencer's tick (52_sequencer.md): each kind of record by an equation of `seqLoop`, and what the notes
and stops of a record change. -/

namespace Sys2Proof.Machine

/-! ## The tick before it reads a record (R391, R399) -/

theorem sequencerTick_stopped {s : State} (h : s.audio.seqEnabled = false) : sequencerTick s = .ok s := if_pos h

theorem sequencerTick_delayed {s : State} (h : s.audio.seqEnabled = true) (hdelay : 0 < s.audio.seqDelay) :
    sequencerTick s = .ok (s.setSeqDelay (s.audio.seqDelay - 1)) :=
  (if_neg (by rw [h]; decide)).trans (if_pos hdelay)

theorem sequencerTick_due {s : State} (h : s.audio.seqEnabled = true) (hdelay : s.audio.seqDelay = 0) :
    sequencerTick s = seqLoop cfg.seqLoopLimit s :=
  (if_neg (by rw [h]; decide)).trans (if_neg (by rw [hdelay]; decide))

/-! ## One record of the loop (R394 to R398) -/

theorem seqLoop_end {s : State} (h : busRead8 s s.audio.seqCursor = 0xFF) (n : Nat) :
    seqLoop (n + 1) s = .ok s.seqEnd := if_pos h

/-- A JUMP's target is its third and fourth byte, little-endian (R395). -/
theorem seqLoop_jump {s : State} (h : busRead8 s s.audio.seqCursor = 0xFE) (n : Nat) :
    seqLoop (n + 1) s = seqLoop n (s.setSeqCursor
      (wordOf (busRead8 s (s.audio.seqCursor + 2)) (busRead8 s (s.audio.seqCursor + 3)))) := by
  have hnotEnd : (recordAt s s.audio.seqCursor).channel ≠ 0xFF := fun hend => absurd (h.symm.trans hend) (by decide)
  rw [← joinBytes_eq]
  exact (if_neg hnotEnd).trans (if_pos h)

/-- The state after the record at the cursor was played: the cursor past it, and its note started or its channel
stopped. -/
def State.recordPlayed (s : State) : State :=
  (s.setSeqCursor (s.audio.seqCursor + 4)).seqPlay (recordAt s s.audio.seqCursor)

/-- A channel byte that is no control code plays its record, and the duration says whether the tick ends. -/
theorem seqLoop_play {s : State} (h : (busRead8 s s.audio.seqCursor).toNat ≤ 0xFD) (n : Nat) :
    seqLoop (n + 1) s =
      if busRead8 s (s.audio.seqCursor + 2) = 0 then seqLoop n s.recordPlayed
      else .ok (s.recordPlayed.setSeqDelay (busRead8 s (s.audio.seqCursor + 2)).toNat) := by
  have hcode {b : Byte} (hb : 0xFE ≤ b.toNat) : (recordAt s s.audio.seqCursor).channel ≠ b := by
    rintro rfl
    exact absurd (hb.trans h) (by decide)
  exact (if_neg (hcode (by decide))).trans (if_neg (hcode (by decide)))

/-! ## What a record plays (R396 to R398) -/

theorem seqPlay_of_ge (s : State) {r : Record} (h : 8 ≤ r.channel.toNat) : s.seqPlay r = s :=
  if_neg (Nat.not_lt.mpr h)

theorem seqPlay_stop (s : State) {r : Record} {c : Fin 8} (h : r.channel.toNat = c.val) (hnote : r.note = 0) :
    s.seqPlay r = s.releaseChannel c := by
  rw [State.seqPlay, h, if_pos c.isLt, if_pos hnote, stopChannel_of_lt]

theorem seqPlay_note (s : State) {r : Record} {c : Fin 8} (h : r.channel.toNat = c.val) (hnote : r.note ≠ 0) :
    s.seqPlay r = s.playChannel c r.note (loNibble r.ins) true := by
  rw [State.seqPlay, h, if_pos c.isLt, if_neg hnote, playNote_of_lt]

/-- t is s after notes were started or stopped: only `ram` and the channels may differ. -/
structure NotesOnly (s t : State) : Prop extends OnlyRam s t where
  ppu : t.ppu = s.ppu
  env : t.env = s.env
  audio : t.audio = { s.audio with channels := t.audio.channels }

theorem NotesOnly.refl (s : State) : NotesOnly s s := ⟨.refl s, rfl, rfl, rfl⟩

theorem releaseChannel_notesOnly (s : State) (c : Fin 8) : NotesOnly s (s.releaseChannel c) :=
  ⟨⟨rfl, rfl⟩, rfl, rfl, rfl⟩

theorem playChannel_notesOnly (s : State) (c : Fin 8) (note : Byte) (ins : BitVec 4) :
    NotesOnly s (s.playChannel c note ins true) := by
  obtain ⟨-, -, hcpu, hppu, henv, hbus, haudio⟩ := playChannel_spec s c note ins true (.inr rfl)
  exact ⟨⟨hcpu, hbus⟩, hppu, henv, haudio⟩

/-- By the channel byte and the note. -/
theorem seqPlay_notesOnly (s : State) (r : Record) : NotesOnly s (s.seqPlay r) := by
  by_cases hch : 8 ≤ r.channel.toNat
  · rw [seqPlay_of_ge s hch]
    exact .refl s
  · let c : Fin 8 := ⟨r.channel.toNat, Nat.not_le.mp hch⟩
    by_cases hnote : r.note = 0
    · rw [seqPlay_stop s (c := c) rfl hnote]
      exact releaseChannel_notesOnly s c
    · rw [seqPlay_note s (c := c) rfl hnote]
      exact playChannel_notesOnly s c _ _

/-! ## A channel stopped (R419) -/

/-- In t, channel c of s has stopped: its gate is closed and its priority cleared, and no other channel changed. -/
structure ChannelStopped (c : Fin 8) (s t : State) : Prop where
  channel : t.audio.channels.get c = { s.audio.channels.get c with priority := false }
  others : ∀ d, d ≠ c → t.audio.channels.get d = s.audio.channels.get d
  ram : RamKeptBut (fun a => a = 0xF7A3 + 4 * c.val) s t
  control : (t.ramRead (0xF7A3 + 4 * c.val)).toNat = 16 * ((s.ramRead (0xF7A3 + 4 * c.val)).toNat / 16)

theorem releaseChannel_stopped (s : State) (c : Fin 8) : ChannelStopped c s (s.releaseChannel c) where
  channel := (channels_releaseChannel s c c).trans (if_pos rfl)
  others d hd := (channels_releaseChannel s c d).trans (if_neg hd)
  ram := .of_ram (fun a ha => (ramRead_releaseChannel s c a).trans (if_neg ha)) rfl
  control := by rw [ramRead_releaseChannel, if_pos rfl, and_highNibble_toNat]

/-- The cursor is neither a channel nor a byte of `ram`. -/
theorem ChannelStopped.of_setSeqCursor {c : Fin 8} {s t : State} {q : Word}
    (h : ChannelStopped c (s.setSeqCursor q) t) : ChannelStopped c s t :=
  ⟨h.channel, h.others, ⟨h.ram.ram, h.ram.bytes, h.ram.rest⟩, h.control⟩

/-! ## A note started with override (R418) -/

/-- In t, channel c of s plays a note with override: its frequency and its control byte are written, it holds
its priority and retriggers, and no other channel changed. -/
structure NoteStarted (c : Fin 8) (note ins : Byte) (s t : State) : Prop where
  channel : t.audio.channels.get c = { s.audio.channels.get c with priority := true, retrig := true }
  others : ∀ d, d ≠ c → t.audio.channels.get d = s.audio.channels.get d
  ram : RamKeptBut (fun a => a = 0xF7A0 + 4 * c.val ∨ a = 0xF7A1 + 4 * c.val ∨ a = 0xF7A3 + 4 * c.val) s t
  frequency :
    wordOf (t.ramRead (0xF7A0 + 4 * c.val)) (t.ramRead (0xF7A1 + 4 * c.val)) = noteFreq note
  control : (t.ramRead (0xF7A3 + 4 * c.val)).toNat = 16 * (ins.toNat % 16) + 1

theorem playChannel_started (s : State) (c : Fin 8) (note ins : Byte) :
    NoteStarted c note ins s (s.playChannel c note (loNibble ins) true) := by
  obtain ⟨hram, hchannels, -, -, -, hbus, -⟩ := playChannel_spec s c note (loNibble ins) true (.inr rfl)
  refine ⟨(hchannels c).trans (if_pos rfl), fun d hd => (hchannels d).trans (if_neg hd),
    .of_ram (fun a ha => ?_) hbus, ?_, ?_⟩
  · rw [not_or, not_or] at ha
    obtain ⟨hlo, hhi, hctrl⟩ := ha
    rw [hram, if_neg hlo, if_neg hhi, if_neg hctrl]
  · rw [hram, hram, if_pos rfl, if_neg (by omega), if_pos rfl, wordOf_split]
  · rw [hram, if_neg (by omega), if_neg (by omega), if_pos rfl]
    exact playControl_toNat ins

theorem NoteStarted.of_setSeqCursor {c : Fin 8} {note ins : Byte} {s t : State} {q : Word}
    (h : NoteStarted c note ins (s.setSeqCursor q) t) : NoteStarted c note ins s t :=
  ⟨h.channel, h.others, ⟨h.ram.ram, h.ram.bytes, h.ram.rest⟩, h.frequency, h.control⟩

/-! ## The played record, against the state before it -/

/-- A channel byte that names no channel only moves the cursor (R397). -/
theorem recordPlayed_of_ge {s : State} (h : 8 ≤ (busRead8 s s.audio.seqCursor).toNat) :
    s.recordPlayed = s.setSeqCursor (s.audio.seqCursor + 4) := seqPlay_of_ge _ h

/-- Note 0 stops its channel (R396). -/
theorem recordPlayed_stopped {s : State} {c : Fin 8} (h : (busRead8 s s.audio.seqCursor).toNat = c.val)
    (hnote : busRead8 s (s.audio.seqCursor + 1) = 0) : ChannelStopped c s s.recordPlayed := by
  have hplayed : s.recordPlayed = (s.setSeqCursor (s.audio.seqCursor + 4)).releaseChannel c :=
    seqPlay_stop _ h hnote
  rw [hplayed]
  exact (releaseChannel_stopped _ c).of_setSeqCursor

/-- Another note is started with override (R398). -/
theorem recordPlayed_started {s : State} {c : Fin 8} (h : (busRead8 s s.audio.seqCursor).toNat = c.val)
    (hnote : busRead8 s (s.audio.seqCursor + 1) ≠ 0) :
    NoteStarted c (busRead8 s (s.audio.seqCursor + 1)) (busRead8 s (s.audio.seqCursor + 3)) s s.recordPlayed := by
  have hplayed : s.recordPlayed = (s.setSeqCursor (s.audio.seqCursor + 4)).playChannel c
      (busRead8 s (s.audio.seqCursor + 1)) (loNibble (busRead8 s (s.audio.seqCursor + 3))) true :=
    seqPlay_note _ h hnote
  rw [hplayed]
  exact (playChannel_started _ c _ _).of_setSeqCursor

/-! ## END (R394) -/

/-- END does what MUTE without ALT does (R425). -/
theorem seqEnd_eq_muteAll (s : State) : s.seqEnd = s.muteAll false := rfl

/-- Settles O54: the three beginnings of a tick, then one record of the loop by its channel byte.
(`sequencerTick` is the model's tick.) -/
theorem sequencerTick_cases : Obligations.SequencerTick := by
  intro s p ch note dur ins hp hch hnote hdur hins
  subst hp hch hnote hdur hins
  refine ⟨sequencerTick_stopped, sequencerTick_delayed, sequencerTick_due, rfl,
    fun n => ⟨fun hend => ?_, fun hjump => seqLoop_jump hjump n, fun hplay => ?_⟩⟩
  · have honly := muteAll_onlyRam s false
    obtain ⟨hppu, henv⟩ := muteAll_ppu_env s false
    rw [seqLoop_end hend, seqEnd_eq_muteAll]
    exact ⟨_, rfl, honly.cpu, hppu, henv,
      .of_ram (fun a ha => (ramRead_muteAll s false a).trans (if_neg ha)) honly.bus,
      fun c hc => (ramRead_muteAll s false _).trans (if_pos ⟨c, hc, rfl⟩), muteAll_audio s false,
      channels_muteAll s false⟩
  · obtain ⟨⟨hcpu, -⟩, hppu, henv, haudio⟩ :=
      seqPlay_notesOnly (s.setSeqCursor (s.audio.seqCursor + 4)) (recordAt s s.audio.seqCursor)
    refine ⟨s.recordPlayed, seqLoop_play hplay n, hcpu, hppu, henv, haudio, recordPlayed_of_ge,
      fun c hc => ⟨?_, fun hstop => ?_, fun hstart => ?_⟩⟩
    · by_cases hnote : busRead8 s (s.audio.seqCursor + 1) = 0
      · exact (recordPlayed_stopped hc hnote).others
      · exact (recordPlayed_started hc hnote).others
    · have h := recordPlayed_stopped hc hstop
      exact ⟨h.channel, h.ram, h.control⟩
    · have h := recordPlayed_started hc hstart
      exact ⟨h.channel, h.ram, h.frequency, h.control⟩

end Sys2Proof.Machine
end

section
/-! Every instruction answers a next state (R458, R476), and the mode changes by the handoff and by a fault alone
(R38, R416, R460, R470). -/

namespace Sys2Proof.Machine

/-! ## Every instruction answers -/

theorem Flow.finish_answers (fl : Flow) (len : Nat) : ∃ t, fl.finish len = .next t := by
  cases fl with
  | goOn s => exact ⟨_, rfl⟩
  | ended s => exact ⟨_, rfl⟩

/-- None of the ways an instruction can end is a fault of the machine or a refusal. -/
theorem ExecEnd.answers {i : Instr} {s : State} {o : Host.Outcome State Fault Refusal} (he : ExecEnd i s o) :
    ∃ t, o = .next t := by
  cases he with
  | result | compare | load | device | jump | transfer | halt | await => exact ⟨_, rfl⟩
  | store | raise => exact Flow.finish_answers _ _

/-- Settles O7, by the ways an instruction can end. -/
theorem everyInstructionAnswersNext : Obligations.EveryInstructionAnswersNext :=
  fun i s => (exec_end i s).answers

theorem executeInstruction_answers (s : State) : ∃ t, executeInstruction s = .next t := by
  cases h : decode (fetchBytes s) with
  | ok p => rw [executeInstruction_of_decode h]; exact (exec_end p.1 s).answers
  | error e => exact ⟨_, executeInstruction_of_reject h⟩

/-! ## The mode changes by the handoff and by a fault alone -/

/-- How a move of the frame agent may change the mode and `power_on` (R38, R470). -/
structure ModeChange (s t : State) : Prop where
  handoff : s.bus.bootMode = true → t.bus.bootMode = false →
    t.cpu = Cpu.reset ∧ t.bus.powerOn = false ∧ t.ramRead 0xFFE8 = 0xA5
  fault : s.bus.bootMode = false → t.bus.bootMode = true →
    ∃ kind, t.EndedByFault kind ∧ t.ramRead 0xFFEA = kind.code
  powerOn : s.bus.powerOn = false → t.bus.powerOn = false

/-- A move that keeps both. -/
theorem ModeChange.of_kept {s t : State} (hm : t.bus.bootMode = s.bus.bootMode)
    (hp : t.bus.powerOn = s.bus.powerOn) : ModeChange s t where
  handoff hs ht := absurd (hs.symm.trans (hm.symm.trans ht)) (by decide)
  fault hs ht := absurd (hs.symm.trans (hm.symm.trans ht)) (by decide)
  powerOn hs := hp.trans hs

theorem ModeChange.of_faultHandler {s u : State} (kind : FaultKind) (hp : u.bus.powerOn = s.bus.powerOn) :
    ModeChange s (u.faultHandler kind) where
  handoff _ ht := nomatch ht
  fault _ _ := ⟨kind, (faultHandler_taken kind u).halted, (faultHandler_taken kind u).error⟩
  powerOn hs := hp.trans hs

/-- The handoff keeps the byte that asked for it (R416). -/
theorem ModeChange.of_bootHandoff {s u : State} (hb : s.bus.bootMode = true) (hmagic : u.ramRead 0xFFE8 = 0xA5) :
    ModeChange s u.bootHandoff where
  handoff _ _ := ⟨rfl, rfl, ((bootHandoff_taken u).kept 0xFFE8 (by decide) (by decide)).trans hmagic⟩
  fault hs := absurd (hs.symm.trans hb) (by decide)
  powerOn _ := rfl

/-- Every way a store can end, before which the flags may have been written. -/
theorem StoreEnd.modeChange {s t : State} {f : Flags} {fl : Flow} {len : Nat} (hend : StoreEnd (s.setFlags f) fl)
    (ht : fl.finish len = .next t) : ModeChange s t := by
  cases hend with
  | goOn hu =>
    cases ht
    exact .of_kept (by rw [State.advance_bus, hu.bus]; rfl) (by rw [State.advance_bus, hu.bus]; rfl)
  | fault hu => cases ht; exact .of_faultHandler _ (by rw [hu.bus]; rfl)
  | handoff _ hb hmagic => cases ht; exact .of_bootHandoff hb hmagic

theorem UnitEffect.modesKept {i : Instr} {s u : State} (hu : UnitEffect i s u) :
    u.bus.bootMode = s.bus.bootMode ∧ u.bus.powerOn = s.bus.powerOn :=
  ⟨by rw [hu.bus], by rw [hu.bus]⟩

theorem takeFault_modeChange {s t : State} {kind : FaultKind} {len : Nat}
    (ht : (takeFault kind s).finish len = .next t) : ModeChange s t := by
  unfold takeFault at ht
  split at ht
  · cases ht; exact .of_kept rfl rfl
  · cases ht; exact .of_faultHandler kind rfl

/-- Of the ways an instruction can end, a store's and a fault's alone change the mode. -/
theorem ExecEnd.modeChange {i : Instr} {s t : State} {o : Host.Outcome State Fault Refusal} (he : ExecEnd i s o)
    (ho : o = .next t) : ModeChange s t := by
  cases he with
  | result | compare | jump | transfer | halt | await => cases ho; exact .of_kept rfl rfl
  | load _ _ _ _ hu | device _ hu =>
    cases ho
    obtain ⟨hmode, hpower⟩ := hu.modesKept
    exact .of_kept hmode hpower
  | store _ _ _ _ hend => exact hend.modeChange ho
  | raise => exact takeFault_modeChange ho

theorem executeInstruction_modeChange {s t : State} (h : executeInstruction s = .next t) : ModeChange s t := by
  unfold executeInstruction at h
  split at h
  · next i _ _ => exact (exec_end i s).modeChange h
  · cases h; exact .of_kept rfl rfl

theorem frameMove_modeChange {s t : State} (h : frameMove s = .next t) : ModeChange s t := by
  unfold frameMove at h
  split at h
  · obtain ⟨hhandoff, hfault, hpower⟩ := executeInstruction_modeChange h
    exact ⟨hhandoff, hfault, hpower⟩
  · cases h; exact .of_kept rfl rfl

/-- Settles O11: the step is the frame agent's move, and of its ways the handoff and a fault alone change the
mode. -/
theorem modeChangesOnlyByHandoffAndFault : Obligations.ModeChangesOnlyByHandoffAndFault := by
  intro s t hnext h
  rcases hostOp_due_or_frameAgentMoves s with ⟨op, rest, hdue⟩ | ⟨later, hmoves⟩
  · exact absurd (hnext.symm.trans (frameAgentNext_of_due hdue)) (by decide)
  · rw [hmoves.step_eq] at h
    obtain ⟨hhandoff, hfault, hpower⟩ := frameMove_modeChange h
    exact ⟨hhandoff, hfault, hpower⟩

end Sys2Proof.Machine
end

section
/-! The frame step (R413, R414, R471, R475, R521): its tail, and that it ends. -/

namespace Sys2Proof.Machine

/-! ## The tail of a frame step -/

/-- The loop of the frame step ends on a halt, on an awaited VBlank and on a used budget (R413). -/
theorem runsInstruction_eq_false_iff (s : State) : s.runsInstruction = false ↔
    s.cpu.run = .halted ∨ s.cpu.awaitingVblank = true ∨ 16000 ≤ s.env.frameCount := by
  have hrun : s.cpu.run ≠ .running ↔ s.cpu.run = .halted := by
    cases s.cpu.run <;> decide
  unfold State.runsInstruction
  rw [cfg_cycleBudget, Bool.and_eq_false_iff, Bool.and_eq_false_iff, Bool.not_eq_false', beq_eq_false_iff_ne,
    hrun, decide_eq_false_iff_not, Nat.not_lt, or_assoc]

theorem frameMove_of_ended {s : State} (h : s.runsInstruction = false) : frameMove s = .next s.frameTail := by
  rw [frameMove, h, if_neg (by decide)]

/-- Settles O17: the step is the frame agent's move, which is the tail. -/
theorem frameStepTail : Obligations.FrameStepTail := by
  intro s later hmoves hended
  have hruns : (s.setSchedule later).runsInstruction = false := (runsInstruction_eq_false_iff s).mpr hended
  refine ⟨_, hmoves.step_eq.trans (frameMove_of_ended hruns), rfl, rfl, rfl, rfl, rfl, rfl, fun i => ?_,
    busRead8_congr rfl⟩
  show (Vector.ofFn fun i : Fin cfg.nControllers => Config.controllerByte s.env.pollIndex i.val).get i = _
  rw [Vector.get_eq_getElem, Vector.getElem_ofFn]

/-! ## A frame step ends -/

/-- What the frame step counts by, and the schedule, are as they were (R413, R436). -/
structure FrameCountersKept (s t : State) : Prop where
  schedule : t.env.schedule = s.env.schedule
  count : t.env.frameCount = s.env.frameCount
  shown : t.env.framesShown = s.env.framesShown

theorem FrameCountersKept.of_env {s t : State} (h : t.env = s.env) : FrameCountersKept s t :=
  ⟨by rw [h], by rw [h], by rw [h]⟩

theorem StoreEnd.frameCountersKept {s t : State} {fl : Flow} {len : Nat} (hend : StoreEnd s fl)
    (ht : fl.finish len = .next t) : FrameCountersKept s t := by
  cases hend with
  | goOn hu => cases ht; exact .of_env hu.env
  | fault hu =>
    cases ht
    have hkept := FrameCountersKept.of_env hu.env
    exact ⟨hkept.schedule, hkept.count, hkept.shown⟩
  | handoff hu => cases ht; exact .of_env hu.env

theorem takeFault_frameCountersKept {s t : State} {kind : FaultKind} {len : Nat}
    (ht : (takeFault kind s).finish len = .next t) : FrameCountersKept s t := by
  unfold takeFault at ht
  split at ht
  · cases ht; exact ⟨rfl, rfl, rfl⟩
  · cases ht; exact ⟨rfl, rfl, rfl⟩

theorem playNote_env (s : State) (ch : Nat) (note : Byte) (ins : BitVec 4) (override : Bool) :
    (s.playNote ch note ins override).env = s.env := by
  unfold State.playNote State.playChannel
  split
  · split <;> rfl
  · rfl

theorem stopChannel_env (s : State) (ch : Nat) : (s.stopChannel ch).env = s.env := by
  unfold State.stopChannel
  split <;> rfl

theorem setInstrument_env (s : State) (k ad sr : Word) : (s.setInstrument k ad sr).env = s.env := by
  unfold State.setInstrument
  split <;> rfl

theorem selectBank_env (s : State) (v : Word) : (s.selectBank v).env = s.env := by
  unfold State.selectBank
  split <;> rfl

/-- No instruction writes the counters: they are the arbiter's (R413). -/
theorem exec_frameCountersKept {i : Instr} {s t : State} (h : exec i s = .next t) : FrameCountersKept s t := by
  cases i with
  | stm r a => exact (memWrite16_end a _ s).frameCountersKept h
  | altStm r a => exact (busWrite8_end a _ s).frameCountersKept h
  | altIadd r w | altIsub r w =>
    obtain ⟨hschedule, hcount, hshown⟩ := (memWrite16_end _ _ (s.setFlags _)).frameCountersKept h
    exact ⟨hschedule, hcount, hshown⟩
  | ret =>
    cases hstack : s.cpu.stack with
    | nil => rw [exec_ret_of_nil hstack] at h; exact takeFault_frameCountersKept h
    | cons top rest => rw [exec_ret_of_cons hstack] at h; cases h; exact .of_env rfl
  | setoam a =>
    rcases Nat.lt_or_ge (s.reg a).toNat 512 with hlt | hge
    · rw [exec_setoam, setOamCursor_of_lt hlt] at h; cases h; exact .of_env rfl
    · rw [exec_setoam, setOamCursor_of_ge hge] at h; exact takeFault_frameCountersKept h
  | jeq a | jne a | jgt a | jlt a | jge a | jle a =>
    have h' := (jumpIf_eq _ a s).symm.trans h
    cases h'
    exact .of_env rfl
  | play _ _ _ => cases h; exact .of_env (playNote_env s _ _ _ _)
  | stop _ => cases h; exact .of_env (stopChannel_env s _)
  | mute => cases h; exact .of_env (muteAll_ppu_env s false).2
  | altMute => cases h; exact .of_env (muteAll_ppu_env s true).2
  | instr _ _ _ => cases h; exact .of_env (setInstrument_env s _ _ _)
  | bank _ => cases h; exact .of_env (selectBank_env s _)
  | _ => cases h; exact ⟨rfl, rfl, rfl⟩

theorem executeInstruction_frameCountersKept {s t : State} (h : executeInstruction s = .next t) :
    FrameCountersKept s t := by
  unfold executeInstruction at h
  split at h
  · exact exec_frameCountersKept h
  · cases h; exact ⟨rfl, rfl, rfl⟩

theorem step_of_unscheduled {s : State} (h : s.env.schedule = []) : step s = frameMove s :=
  (State.FrameAgentMoves.step_eq (.inl ⟨h, rfl⟩)).trans (by rw [State.setSchedule_self h])

theorem run_zero (s : State) : core.run 0 s = .next s := rfl

theorem run_succ {s u : State} (h : step s = .next u) (n : Nat) : core.run (n + 1) s = core.run n u := by
  have hcore : core.step s = .next u := h
  simp only [Host.Core.run, hcore]

/-- n steps after s one more frame is shown, and the next frame step starts afresh. -/
def FrameShownAfter (n : Nat) (s : State) : Prop :=
  ∃ t, core.run n s = .next t ∧ t.env.framesShown = s.env.framesShown + 1 ∧ t.env.frameCount = 0 ∧
    t.cpu.awaitingVblank = false

theorem frameShownAfter_tail {s : State} (h : s.env.schedule = []) (hended : s.runsInstruction = false) :
    FrameShownAfter 1 s :=
  ⟨_, run_succ ((step_of_unscheduled h).trans (frameMove_of_ended hended)) 0, rfl, rfl, rfl⟩

/-- While the loop goes on a step is one counted instruction, whatever it is (R413). -/
theorem step_counts {s : State} (h : s.env.schedule = []) (hruns : s.runsInstruction = true) :
    ∃ u, step s = .next u ∧ FrameCountersKept s.countInstruction u := by
  obtain ⟨u, hu⟩ := executeInstruction_answers s.countInstruction
  refine ⟨u, ?_, executeInstruction_frameCountersKept hu⟩
  rw [step_of_unscheduled h, frameMove, hruns, if_pos rfl, hu]

/-- A frame step with at most k instructions of its budget left ends within them and its tail, by induction on
k: an instruction uses one up. -/
theorem frameShownAfter_of_budget (k : Nat) : ∀ s : State, s.env.schedule = [] →
    16000 ≤ s.env.frameCount + k → ∃ n, n ≤ k + 1 ∧ FrameShownAfter n s := by
  induction k with
  | zero =>
    intro s h hk
    exact ⟨1, Nat.le_refl 1, frameShownAfter_tail h ((runsInstruction_eq_false_iff s).mpr (.inr (.inr hk)))⟩
  | succ k ih =>
    intro s h hk
    cases hruns : s.runsInstruction with
    | false => exact ⟨1, by omega, frameShownAfter_tail h hruns⟩
    | true =>
      obtain ⟨u, hstep, hschedule, hcount, hshown⟩ := step_counts h hruns
      have hcount' : u.env.frameCount = s.env.frameCount + 1 := hcount
      obtain ⟨n, hn, t, ht, hframes, hrest⟩ := ih u (hschedule.trans h) (by omega)
      exact ⟨n + 1, by omega, t, (run_succ hstep n).trans ht, by rw [hframes, hshown]; rfl, hrest⟩

/-- Settles O18: a frame step has at most the whole budget left. -/
theorem frameStepTerminates : Obligations.FrameStepTerminates := by
  intro s h
  obtain ⟨n, hn, t, ht⟩ := frameShownAfter_of_budget 16000 s h (Nat.le_add_left _ _)
  exact ⟨n, t, hn, ht⟩

end Sys2Proof.Machine
end

section
/-! Stores the bus turns away with a fault, and stores it answers with the boot handoff (R84, R85, R89, R416, R453,
R463). -/

namespace Sys2Proof.Machine

/-- In cartridge mode after the handoff a byte from RESERVED_BASE up is turned away with the fault (R85, R453). -/
theorem busWrite8_faults {s : State} {a : Word} (b : Byte) (hmode : s.bus.bootMode = false)
    (hpower : s.bus.powerOn = false) (ha : 0xF800 ≤ a.toNat) :
    busWrite8 a b s = .ended (s.faultHandler .reservedWrite) := by
  rw [busWrite8_protected ⟨hmode, ha⟩, takeFault_taken hpower]

/-- A word there is turned away at its low byte (R89, R463). -/
theorem memWrite16_faults {s : State} {a : Word} (v : Word) (hmode : s.bus.bootMode = false)
    (hpower : s.bus.powerOn = false) (ha : 0xF800 ≤ a.toNat) :
    memWrite16 a v s = .ended (s.faultHandler .reservedWrite) := by
  rw [memWrite16, busWrite8_faults _ hmode hpower ha, Flow.andThen]

/-- Outside the bank window a byte the bus accepts lands in `ram`, in either mode (R84). -/
theorem place_of_not_inBankWindow {s : State} {a : Word} (h : inBankWindow a = false) (b : Byte) :
    s.place a b = s.ramWrite a.toNat b := by
  unfold State.place State.banked
  rw [h, Bool.and_false, if_neg (by decide)]

/-- A word across RESERVED_BASE stores its low byte before its high byte is turned away (R89, R513). -/
theorem memWrite16_straddles {s : State} (v : Word) (hmode : s.bus.bootMode = false)
    (hpower : s.bus.powerOn = false) :
    memWrite16 0xF7FF v s = .ended ((s.ramWrite 0xF7FF (loByte v)).faultHandler .reservedWrite) := by
  have haccept : s.Accepts 0xF7FF (loByte v) :=
    ⟨fun h => absurd h.2 (by decide), fun h => absurd h.2.1 (by decide)⟩
  rw [memWrite16, busWrite8_accepted haccept, place_of_not_inBankWindow (by decide)]
  exact busWrite8_faults (hiByte v) hmode hpower (by decide)

/-- In boot mode a word at the verify byte whose low byte is the magic hands off before its high byte is stored
(R416, R463). -/
theorem memWrite16_handsOff_low {s : State} {v : Word} (hmode : s.bus.bootMode = true) (hv : loByte v = 0xA5) :
    memWrite16 0xFFE8 v s = .ended (s.ramWrite 0xFFE8 0xA5).bootHandoff := by
  rw [memWrite16, busWrite8_handoff ⟨hmode, rfl, hv⟩, hv]
  rfl

/-- In boot mode a word below the verify byte whose high byte is the magic hands off with both bytes stored. -/
theorem memWrite16_handsOff_high {s : State} {v : Word} (hmode : s.bus.bootMode = true) (hv : hiByte v = 0xA5) :
    memWrite16 0xFFE7 v s = .ended ((s.ramWrite 0xFFE7 (loByte v)).ramWrite 0xFFE8 0xA5).bootHandoff := by
  have haccept : s.Accepts 0xFFE7 (loByte v) :=
    ⟨fun h => absurd (hmode.symm.trans h.1) (by decide), fun h => absurd h.2.1 (by decide)⟩
  rw [memWrite16, busWrite8_accepted haccept, place_boot hmode, ← hv]
  exact busWrite8_handoff ⟨hmode, rfl, hv⟩

/-- A write-back is the store of a word on the state that has the result's flags (R193, R194). -/
theorem writeBack_eq (r : Reg) (res : Word × Flags) (s : State) :
    writeBack r res s = (memWrite16 (s.reg r) res.1 (s.setFlags res.2)).finish 4 := rfl

theorem exec_altIadd_eq (r : Reg) (w : Word) (s : State) : exec (.altIadd r w) s =
    writeBack r (add16 (wordOf (busRead8 s (s.reg r)) (busRead8 s (s.reg r + 1))) w) s :=
  (exec_altIadd r w s).trans (by rw [Ea.loadWord_eq]; rfl)

theorem exec_altIsub_eq (r : Reg) (w : Word) (s : State) : exec (.altIsub r w) s =
    writeBack r (sub16 (wordOf (busRead8 s (s.reg r)) (busRead8 s (s.reg r + 1))) w) s :=
  (exec_altIsub r w s).trans (by rw [Ea.loadWord_eq]; rfl)

theorem loByte_ofNat (n : Nat) : loByte (BitVec.ofNat 16 n) = BitVec.ofNat 8 n := by
  apply BitVec.eq_of_toNat_eq
  rw [loByte_toNat, BitVec.toNat_ofNat, BitVec.toNat_ofNat]
  omega

/-! ## The ReservedWrite fault -/

theorem writeBack_faults {s : State} {r : Reg} (res : Word × Flags) (hmode : s.bus.bootMode = false)
    (hpower : s.bus.powerOn = false) (hr : 0xF800 ≤ (s.reg r).toNat) :
    ∃ t, writeBack r res s = .next t ∧ FaultTaken .reservedWrite 0x01 (s.setFlags res.2) t := by
  have hfault := memWrite16_faults (s := s.setFlags res.2) res.1 hmode hpower hr
  exact ⟨_, by rw [writeBack_eq, hfault]; rfl, faultHandler_taken .reservedWrite _⟩

theorem writeBack_straddles {s : State} {r : Reg} (res : Word × Flags) (hmode : s.bus.bootMode = false)
    (hpower : s.bus.powerOn = false) (hr : s.reg r = 0xF7FF) :
    ∃ t, writeBack r res s = .next t ∧
      FaultTaken .reservedWrite 0x01 ((s.setFlags res.2).ramWrite 0xF7FF (loByte res.1)) t := by
  have hfault := memWrite16_straddles (s := s.setFlags res.2) res.1 hmode hpower
  exact ⟨_, by rw [writeBack_eq, hr, hfault]; rfl, faultHandler_taken .reservedWrite _⟩

/-- Settles O22: each form's store is turned away at its first protected byte; the pointer forms have their
result's flags by then. -/
theorem protectedStoresFault : Obligations.ProtectedStoresFault := by
  intro s r a w hmode hpower
  rw [exec_altIadd_eq, exec_altIsub_eq, exec_stm, exec_stm, exec_altStm]
  refine ⟨fun ha => ⟨?_, ?_⟩, ?_, fun hr => ⟨?_, ?_⟩, fun m hr hm => ?_⟩
  · rw [memWrite16_faults _ hmode hpower ha]
    exact ⟨_, rfl, faultHandler_taken .reservedWrite s⟩
  · rw [busWrite8_faults _ hmode hpower ha]
    exact ⟨_, rfl, faultHandler_taken .reservedWrite s⟩
  · rw [memWrite16_straddles _ hmode hpower]
    exact ⟨_, rfl, faultHandler_taken .reservedWrite _⟩
  · obtain ⟨t, ht, hfault⟩ := writeBack_faults (add16 _ w) hmode hpower hr
    exact ⟨t, _, ht, hfault, addCarry16_flags _ w false⟩
  · obtain ⟨t, ht, hfault⟩ := writeBack_faults (sub16 _ w) hmode hpower hr
    exact ⟨t, _, ht, hfault, sub16_flags _ w⟩
  · have hword : wordOf (busRead8 s (s.reg r)) (busRead8 s (s.reg r + 1)) = m := by rw [hr, hm]; rfl
    rw [hword, ← loByte_ofNat, ← loByte_ofNat, ← sub16_result]
    obtain ⟨t, ht, hfault⟩ := writeBack_straddles (add16 m w) hmode hpower hr
    obtain ⟨u, hu, hfault'⟩ := writeBack_straddles (sub16 m w) hmode hpower hr
    exact ⟨⟨t, _, ht, addCarry16_flags m w false, hfault⟩, ⟨u, _, hu, sub16_flags m w, hfault'⟩⟩

/-! ## The boot handoff -/

/-- The flags written before the write-back are lost to the handoff's CPU reset (R416). -/
theorem writeBack_handsOff_low {s : State} {r : Reg} {res : Word × Flags} (hmode : s.bus.bootMode = true)
    (hr : s.reg r = 0xFFE8) (hv : loByte res.1 = 0xA5) :
    ∃ t, writeBack r res s = .next t ∧ HandoffTaken (s.ramWrite 0xFFE8 0xA5) t := by
  have hoff := memWrite16_handsOff_low (s := s.setFlags res.2) hmode hv
  exact ⟨_, by rw [writeBack_eq, hr, hoff]; rfl, bootHandoff_taken _⟩

theorem writeBack_handsOff_high {s : State} {r : Reg} {res : Word × Flags} (hmode : s.bus.bootMode = true)
    (hr : s.reg r = 0xFFE7) (hv : hiByte res.1 = 0xA5) :
    ∃ t, writeBack r res s = .next t ∧
      HandoffTaken ((s.ramWrite 0xFFE7 (loByte res.1)).ramWrite 0xFFE8 0xA5) t := by
  have hoff := memWrite16_handsOff_high (s := s.setFlags res.2) hmode hv
  exact ⟨_, by rw [writeBack_eq, hr, hoff]; rfl, bootHandoff_taken _⟩

/-- A pointer form writes back the word v of the exact result modulo 65536. -/
theorem exec_pointer_writeBack {s : State} {r : Reg} {i : Instr} {w m v : Word}
    (hm : m = wordOf (busRead8 s (s.reg r)) (busRead8 s (s.reg r + 1)))
    (hi : (i = .altIadd r w ∧ v.toNat = (m.toNat + w.toNat) % 65536) ∨
      (i = .altIsub r w ∧ v.toNat = (m.toNat + 65536 - w.toNat) % 65536)) :
    ∃ f, exec i s = writeBack r (v, f) s := by
  subst hm
  rcases hi with ⟨rfl, hv⟩ | ⟨rfl, hv⟩
  · rw [exec_altIadd_eq]
    generalize wordOf (busRead8 s (s.reg r)) (busRead8 s (s.reg r + 1)) = m at hv ⊢
    have hres : (add16 m w).1 = v := BitVec.eq_of_toNat_eq (hv ▸ BitVec.toNat_ofNat _ 16)
    exact ⟨(add16 m w).2, by rw [← hres]⟩
  · rw [exec_altIsub_eq]
    generalize wordOf (busRead8 s (s.reg r)) (busRead8 s (s.reg r + 1)) = m at hv ⊢
    have hres : (sub16 m w).1 = v :=
      BitVec.eq_of_toNat_eq (by rw [sub16_result, hv]; exact BitVec.toNat_ofNat _ 16)
    exact ⟨(sub16 m w).2, by rw [← hres]⟩

/-- Settles O23: each form's store hands off at the byte that is the magic. -/
theorem storingTheMagicHandsOff : Obligations.StoringTheMagicHandsOff := by
  intro s r hmode
  refine ⟨fun hlo => ⟨?_, ?_⟩, fun hhi => ?_, fun i w m v hm hi => ?_⟩
  · rw [exec_altStm, busWrite8_handoff ⟨hmode, rfl, hlo⟩, hlo]
    exact ⟨_, rfl, bootHandoff_taken _⟩
  · rw [exec_stm, memWrite16_handsOff_low hmode hlo]
    exact ⟨_, rfl, bootHandoff_taken _⟩
  · rw [exec_stm, memWrite16_handsOff_high hmode hhi]
    exact ⟨_, rfl, bootHandoff_taken _⟩
  · obtain ⟨f, hexec⟩ := exec_pointer_writeBack hm hi
    rw [hexec]
    refine ⟨fun hr hv => writeBack_handsOff_low hmode hr ?_, fun hr hv => ?_⟩
    · exact BitVec.eq_of_toNat_eq ((loByte_toNat v).trans hv)
    · rw [← loByte_eq]
      exact writeBack_handsOff_high (res := (v, f)) hmode hr (BitVec.eq_of_toNat_eq ((hiByte_toNat v).trans hv))

end Sys2Proof.Machine
end

section
/-! The host's Reset, Halt and loads (R431 to R435, R438). -/

namespace Sys2Proof.Machine

/-! ## Reset and Halt (R435) -/

/-- Settles O57: the step is the host's operation that is due. -/
theorem hostResetAndHalt : Obligations.HostResetAndHalt := by
  intro s rest
  refine ⟨fun hdue => ?_, fun hdue => ?_⟩
  · exact ⟨_, step_of_due hdue, Cpu.reset_reg (s.setSchedule rest), rfl, rfl, rfl, rfl, rfl, rfl, rfl, rfl, rfl⟩
  · exact ⟨_, step_of_due hdue, rfl, rfl, rfl, rfl, rfl⟩

/-! ## What a load leaves in a store -/

/-- In the bytes loaded the store reads as they are, whatever is given for the bytes past their end. -/
theorem Memory.read_load_of_mem (st : Store) (m : Memory) {base a : Nat} {bs : List Byte} (h1 : base ≤ a)
    (h2 : a < base + bs.length) (d : Byte) :
    Memory.read st (Memory.load st m base bs) a = bs.getD (a - base) d := by
  have h : a - base < bs.length := by omega
  rw [Memory.read_load, if_pos ⟨h1, h2⟩, List.getD_eq_getElem _ _ h, List.getD_eq_getElem _ _ h]

theorem getD_take_of_lt {l : List Byte} {n k : Nat} (h : k < n) (d : Byte) : (l.take n).getD k d = l.getD k d := by
  rw [List.getD_eq_getElem?_getD, List.getD_eq_getElem?_getD, List.getElem?_take_of_lt h]

theorem getD_drop (l : List Byte) (n k : Nat) (d : Byte) : (l.drop n).getD k d = l.getD (n + k) d := by
  rw [List.getD_eq_getElem?_getD, List.getD_eq_getElem?_getD, List.getElem?_drop]

/-- An empty store with the first n bytes of an image loaded from 0 reads as the image there, padded with what
the store reads as unlisted. -/
theorem Memory.read_load_image (st : Store) (img : List Byte) (n a : Nat) :
    Memory.read st (Memory.load st [] 0 (img.take n)) a =
      if a < n then img.getD a (st.blank a) else st.blank a := by
  have hlen : (img.take n).length = min n img.length := List.length_take
  by_cases ha : a < (img.take n).length
  · rw [Memory.read_load_of_mem st [] (Nat.zero_le a) (by omega) (st.blank a), if_pos (by omega), Nat.sub_zero,
      getD_take_of_lt (by omega)]
  · rw [Memory.read_load, if_neg (by omega), Memory.read_nil]
    by_cases hn : a < n
    · rw [if_pos hn, List.getD_eq_default _ _ (by omega)]
    · rw [if_neg hn]

/-- The reading after n bytes of an image, from its byte k up, are loaded: those the image has. -/
theorem ramRead_ramLoad_slice (s : State) (base : Nat) (img : List Byte) (k n x : Nat) :
    (s.ramLoad base ((img.drop k).take n)).ramRead x =
      if base ≤ x ∧ x < base + min n (img.length - k) then img.getD (k + (x - base)) 0 else s.ramRead x := by
  have hlen : ((img.drop k).take n).length = min n (img.length - k) := by
    rw [List.length_take, List.length_drop]
  by_cases h : base ≤ x ∧ x < base + min n (img.length - k)
  · rw [if_pos h, ← getD_drop, ← getD_take_of_lt (n := n) (by omega)]
    exact Memory.read_load_of_mem .ram _ h.1 (by omega) 0
  · rw [if_neg h, ramRead_ramLoad_out s (by rwa [hlen])]

/-! ## A cartridge image (R432, R433, R457) -/

theorem cartridgeAccepted_iff (img : List Byte) :
    cartridgeAccepted img = true ↔ 64 ≤ img.length ∧ img.take 4 = [0x53, 0x48, 0x52, 0x50] := by
  unfold cartridgeAccepted
  rw [Bool.and_eq_true, decide_eq_true_eq, beq_iff_eq]
  exact Iff.rfl

/-- The header latched from an image (R39, R432). -/
def State.latchHeader (s : State) (img : List Byte) : State :=
  { s with bus := { s.bus with cartHeader := Memory.load .header [] 0 (img.take 64) } }

theorem loadCartridge_of_accepted {img : List Byte} (h : cartridgeAccepted img = true) (s : State) :
    s.loadCartridge img =
      (((((s.latchHeader img).ramLoad 0 ((img.drop 64).take 0xE000)).ramLoad 0xFFE0 (img.take 4)).ramLoad 0xFFE6
        [img.getD 44 0, img.getD 45 0]).ramWrite 0xFFE9 0x01) := by
  rw [State.loadCartridge, if_pos h]
  rfl

theorem loadCartridge_of_rejected {img : List Byte} (h : ¬ cartridgeAccepted img = true) (s : State) :
    s.loadCartridge img = s.ramWrite 0xFFE9 0xFF := by
  rw [State.loadCartridge, if_neg h]
  rfl

/-- All that an accepted image writes to `ram`: its bytes after the header from 0 up, and of the header the
magic, the bytes 44 and 45, and the mark that it is loaded. -/
theorem ramRead_loadCartridge {img : List Byte} (h : cartridgeAccepted img = true) (s : State) (x : Nat) :
    (s.loadCartridge img).ramRead x =
      if x = 0xFFE9 then 0x01
      else if x = 0xFFE6 then img.getD 44 0
      else if x = 0xFFE7 then img.getD 45 0
      else if 0xFFE0 ≤ x ∧ x ≤ 0xFFE3 then img.getD (x - 0xFFE0) 0
      else if x < min (img.length - 64) 0xE000 then img.getD (64 + x) 0
      else s.ramRead x := by
  obtain ⟨hlen, -⟩ := (cartridgeAccepted_iff img).mp h
  rw [loadCartridge_of_accepted h, ramRead_ramWrite]
  refine if_congr Iff.rfl rfl ?_
  by_cases h6 : x = 0xFFE6
  · subst h6
    rw [ramRead_ramLoad, if_pos (by simp), if_pos rfl]
    rfl
  · by_cases h7 : x = 0xFFE7
    · subst h7
      rw [ramRead_ramLoad, if_pos (by simp), if_neg h6, if_pos rfl]
      rfl
    · have hmagic := ramRead_ramLoad_slice ((s.latchHeader img).ramLoad 0 ((img.drop 64).take 0xE000)) 0xFFE0 img 0 4 x
      rw [List.drop_zero, Nat.zero_add] at hmagic
      rw [ramRead_ramLoad_out _ (by simp only [List.length_cons, List.length_nil]; omega), hmagic,
        ramRead_ramLoad_slice, Nat.zero_add, Nat.sub_zero, if_neg h6, if_neg h7]
      exact if_congr (by omega) rfl (if_congr (by omega) rfl rfl)

theorem loadCartridge_frame (s : State) (img : List Byte) :
    (s.loadCartridge img).bus =
        { s.bus with ram := (s.loadCartridge img).bus.ram, cartHeader := (s.loadCartridge img).bus.cartHeader } ∧
      (s.loadCartridge img).cpu = s.cpu ∧ UnitsKept s (s.loadCartridge img) := by
  unfold State.loadCartridge
  split <;> exact ⟨rfl, rfl, rfl, rfl, rfl⟩

theorem header_loadCartridge {img : List Byte} (h : cartridgeAccepted img = true) (s : State) {a : Nat}
    (ha : a < 64) : (s.loadCartridge img).bus.cartHeader.read .header a = img.getD a 0 := by
  obtain ⟨hlen, -⟩ := (cartridgeAccepted_iff img).mp h
  rw [loadCartridge_of_accepted h]
  refine (Memory.read_load_image .header img 64 a).trans ?_
  rw [if_pos ha, List.getD_eq_getElem _ _ (by omega), List.getD_eq_getElem _ _ (by omega)]

/-! ## Banks and the save window (R434, R438) -/

theorem read_loadBanks (s : State) (images : List (List Byte)) {j a : Nat} (hj : j < images.length)
    (ha : a < 0x4000) :
    Memory.read .bank ((s.loadBanks images).bus.banks.getD j []) a = (images.getD j []).getD a 0x00 := by
  have hbank : (s.loadBanks images).bus.banks.getD j [] =
      Memory.load .bank [] 0 ((images.getD j []).take 0x4000) := by
    show (images.map fun img => Memory.load .bank [] 0 (img.take cfg.bankSize)).getD j [] = _
    rw [List.getD_eq_getElem _ _ (by rwa [List.length_map]), List.getElem_map, List.getD_eq_getElem _ _ hj,
      cfg_bankSize]
  rw [hbank, Memory.read_load_image, if_pos ha]
  rfl

theorem saveLoad_of_length {buf : List Byte} (h : buf.length = 2048) (s : State) :
    s.saveLoad buf = s.ramLoad 0xF000 buf := if_pos h

theorem saveLoad_of_length_ne {buf : List Byte} (h : buf.length ≠ 2048) (s : State) : s.saveLoad buf = s := if_neg h

/-- SaveView gives the bytes a save buffer put in the window. -/
theorem saveView_ramLoad {buf : List Byte} (h : buf.length = 2048) (s : State) :
    saveView (s.ramLoad 0xF000 buf) = buf := by
  unfold saveView
  rw [cfg_saveSize, cfg_saveBase]
  refine List.ext_getElem (by rw [List.length_map, List.length_range, h]) fun i hi hbuf => ?_
  rw [List.getElem_map, List.getElem_range]
  refine (Memory.read_load_of_mem .ram s.bus.ram (Nat.le_add_right _ _) (by omega) 0).trans ?_
  rw [Nat.add_sub_cancel_left, List.getD_eq_getElem _ _ hbuf]

/-- Settles O58: a cartridge image by whether it is accepted, the banks, and a save buffer by its length. -/
theorem hostLoads : Obligations.HostLoads := by
  intro s img images buf
  refine ⟨fun hlen hmagic => ?_, fun hrejected => ?_, ?_, fun hlen => ?_, fun hlen => ?_⟩
  · have hacc := (cartridgeAccepted_iff img).mpr ⟨hlen, hmagic⟩
    have hram := ramRead_loadCartridge hacc s
    refine ⟨_, rfl, fun a => header_loadCartridge hacc s, fun a ha => ?_, fun a ha => ?_, ?_, ?_, ?_,
      fun a h1 h2 h3 h4 h5 => ?_, loadCartridge_frame s img⟩
    · rw [hram, if_neg (by omega), if_neg (by omega), if_neg (by omega), if_neg (by omega), if_pos ha]
    · rw [hram, if_neg (by omega), if_neg (by omega), if_neg (by omega), if_pos (by omega),
        Nat.add_sub_cancel_left]
    · rw [hram, if_neg (by decide), if_pos rfl]
    · rw [hram, if_neg (by decide), if_neg (by decide), if_pos rfl]
    · rw [hram, if_pos rfl]
    · rw [hram, if_neg h5, if_neg h3, if_neg h4, if_neg h2, if_neg (by omega)]
  · have hnot : ¬ cartridgeAccepted img = true := by
      rw [cartridgeAccepted_iff]
      exact fun hacc => hrejected.elim (fun hlt => absurd hacc.1 (by omega)) fun hne => hne hacc.2
    exact congrArg _ (loadCartridge_of_rejected hnot s)
  · exact ⟨_, rfl, List.length_map _, rfl, fun _ _ => read_loadBanks s images, rfl, rfl, rfl, rfl, rfl⟩
  · have hload : hostStep (.saveLoad buf) s = .next (s.ramLoad 0xF000 buf) :=
      congrArg Host.Outcome.next (saveLoad_of_length hlen s)
    refine ⟨_, _, hload, rfl, ?_, fun a ha => ?_, rfl, rfl, rfl, rfl, rfl⟩
    · rw [saveView_ramLoad hlen]
    · exact ramRead_ramLoad_out s (by omega)
  · exact congrArg _ (saveLoad_of_length_ne hlen s)

/-! ## A BIOS image (R431) -/

/-- The BIOS store replaced by the first n bytes of an image (R36, R431). -/
def State.replaceBios (s : State) (img : List Byte) (n : Nat) : State :=
  { s with bus := { s.bus with bios := Memory.load .bios [] 0 (img.take n) } }

/-- The part of a load after the copy of the BIOS-call region: the version word, and no cartridge loaded. -/
def State.markBios (s : State) : State :=
  (s.ramLoad 0xFFE4 [loByte cfg.biosVersion, hiByte cfg.biosVersion]).ramWrite 0xFFE9 0x00

theorem loadBios_eq (s : State) (img : List Byte) {n : Nat} (hn : n = min img.length 65536) :
    s.loadBios img = State.markBios (if 0xF800 < n then
      (s.replaceBios img n).ramLoad 0xF800 ((img.take (min n 0xFFE0)).drop 0xF800) else s.replaceBios img n) := by
  subst hn
  rfl

theorem ramRead_markBios (s : State) (x : Nat) :
    s.markBios.ramRead x =
      if x = 0xFFE9 then 0x00
      else if x = 0xFFE4 then loByte cfg.biosVersion
      else if x = 0xFFE5 then hiByte cfg.biosVersion
      else s.ramRead x := by
  rw [State.markBios, ramRead_ramWrite]
  refine if_congr Iff.rfl rfl ?_
  by_cases h4 : x = 0xFFE4
  · subst h4
    rw [ramRead_ramLoad, if_pos (by simp), if_pos rfl]
    rfl
  · by_cases h5 : x = 0xFFE5
    · subst h5
      rw [ramRead_ramLoad, if_pos (by simp), if_neg h4, if_pos rfl]
      rfl
    · rw [ramRead_ramLoad_out _ (by simp only [List.length_cons, List.length_nil]; omega), if_neg h4, if_neg h5]

/-- All that a BIOS image writes to `ram`: its BIOS-call part, and the marks. -/
theorem ramRead_loadBios (s : State) (img : List Byte) {n : Nat} (hn : n = min img.length 65536) (x : Nat) :
    (s.loadBios img).ramRead x =
      if x = 0xFFE9 then 0x00
      else if x = 0xFFE4 then loByte cfg.biosVersion
      else if x = 0xFFE5 then hiByte cfg.biosVersion
      else if 0xF800 ≤ x ∧ x < min n 0xFFE0 then img.getD x 0
      else s.ramRead x := by
  rw [loadBios_eq s img hn, ramRead_markBios]
  refine if_congr Iff.rfl rfl (if_congr Iff.rfl rfl (if_congr Iff.rfl rfl ?_))
  split
  · rw [List.drop_take, ramRead_ramLoad_slice]
    by_cases hx : 0xF800 ≤ x ∧ x < min n 0xFFE0
    · rw [if_pos (by omega), if_pos hx, Nat.add_sub_cancel' hx.1]
    · rw [if_neg (by omega), if_neg hx]
      rfl
  · rw [if_neg (by omega)]
    rfl

/-- The devices, the CPU and everything behind the bus but `ram` and the BIOS store are as they were. -/
structure BiosFrame (s t : State) : Prop where
  bus : t.bus = { s.bus with ram := t.bus.ram, bios := t.bus.bios }
  cpu : t.cpu = s.cpu
  units : UnitsKept s t

theorem BiosFrame.markBios {s t : State} (h : BiosFrame s t) : BiosFrame s t.markBios where
  bus := congrArg (fun b : Bus => { b with ram := t.markBios.bus.ram }) h.bus
  cpu := h.cpu
  units := ⟨h.units.ppu, h.units.audio, h.units.env⟩

theorem loadBios_frame (s : State) (img : List Byte) : BiosFrame s (s.loadBios img) := by
  obtain ⟨n, hn⟩ : ∃ n, n = min img.length 65536 := ⟨_, rfl⟩
  rw [loadBios_eq s img hn]
  refine BiosFrame.markBios ?_
  split <;> exact ⟨rfl, rfl, rfl, rfl, rfl⟩

theorem bios_loadBios (s : State) (img : List Byte) {n : Nat} (hn : n = min img.length 65536) (a : Nat) :
    (s.loadBios img).bus.bios.read .bios a = if a < n then img.getD a 0 else 0x00 := by
  have hbios : (s.loadBios img).bus.bios = Memory.load .bios [] 0 (img.take n) := by
    rw [loadBios_eq s img hn]
    split <;> rfl
  rw [hbios]
  exact Memory.read_load_image .bios img n a

/-- Settles O59, address by address. -/
theorem biosLoad : Obligations.BiosLoad := by
  intro s img n hn
  have hram := ramRead_loadBios s img hn
  have hframe := loadBios_frame s img
  refine ⟨_, rfl, bios_loadBios s img hn, fun a h1 h2 => ?_, ?_, ?_, fun a h1 h2 h3 h4 => ?_, hframe.bus, hframe.cpu,
    hframe.units⟩
  · rw [hram, if_neg (by omega), if_neg (by omega), if_neg (by omega), if_pos ⟨h1, h2⟩]
  · rw [hram, hram, if_neg (by decide), if_pos rfl, if_neg (by decide), if_neg (by decide), if_pos rfl,
      ← joinBytes_eq, joinBytes_split]
  · rw [hram, if_pos rfl]
  · rw [hram, if_neg h4, if_neg h2, if_neg h3, if_neg h1]

end Sys2Proof.Machine
end
